-- ==== Sys2Proof/Word.lean ====
section
/-! DEFINITION. The word types of the wire format (spec 00 R13, R14): a byte and the 64-bit value of a declared
length field. Offsets and window lengths are unbounded naturals (R13, D11), so they are `Nat`, not words. -/

namespace Sys2Proof

/-- A wire byte, bit 7 most significant (R14). -/
abbrev Byte := BitVec 8

/-- The value of an 8-byte declared-length field (R13). -/
abbrev U64 := BitVec 64

end Sys2Proof
end

