-- ==== Sys2Proof/Config.lean ====
section
/-! DEFINITION. What an implementation fixes (spec 00 R9 to R12, 10 R30): the configuration record `Cfg`, the closed
enumerations it is indexed by, and the free values of the model (constants with no body, about which nothing can be
proved). -/

namespace Sys2Proof

/-- The six primitive kinds that own a one-byte tag (00 R9). -/
inductive Tag where
  | messageStart | frameLength | messageType | string | time | null
  deriving DecidableEq, Repr

/-- The closed enumeration of message types (10 R31). -/
inductive MessageType where
  | ping | authenticate | success | fail | set | get | delete
  deriving DecidableEq, Repr

/-- All tags, in the order of 00 R9. -/
def Tag.all : List Tag := [.messageStart, .frameLength, .messageType, .string, .time, .null]

/-- All message types, in the order of 10 R31. -/
def MessageType.all : List MessageType := [.ping, .authenticate, .success, .fail, .set, .get, .delete]

/-- A timezone-aware instant (10 R34): seconds since 1970-01-01T00:00:00Z, nanoseconds (1,000,000,000 or more for a
leap second), UTC offset in seconds. -/
structure Instant where
  secs : Int
  nanos : Fin 2000000000
  offset : Int
  deriving DecidableEq, Repr

/-- Which `PARSE_RFC3339` the instance was configured with (40 R115, R116). State holds this choice, not a function. -/
inductive TimeParser where
  /-- the reference of 40 R116 -/
  | reference
  /-- the implementation's own parser, of which 40 R115 says only that it is a function of the payload bytes -/
  | supplied
  deriving DecidableEq, Repr

/-- The configuration registers (10 R30): read by FPA, never written by it. -/
structure Cfg where
  tagMessageStart : Byte
  tagFrameLength : Byte
  tagMessageType : Byte
  tagString : Byte
  tagTime : Byte
  tagNull : Byte
  codePing : Byte
  codeAuthenticate : Byte
  codeSuccess : Byte
  codeFail : Byte
  codeSet : Byte
  codeGet : Byte
  codeDelete : Byte
  delim : List Byte
  maxDeclaredLen : Option Nat
  timeParser : TimeParser
  deriving DecidableEq, Repr

/-- The byte of a tag parameter (00 R9). -/
def Cfg.tag (c : Cfg) : Tag → Byte
  | .messageStart => c.tagMessageStart
  | .frameLength => c.tagFrameLength
  | .messageType => c.tagMessageType
  | .string => c.tagString
  | .time => c.tagTime
  | .null => c.tagNull

/-- The byte of a type-code parameter (00 R10). -/
def Cfg.code (c : Cfg) : MessageType → Byte
  | .ping => c.codePing
  | .authenticate => c.codeAuthenticate
  | .success => c.codeSuccess
  | .fail => c.codeFail
  | .set => c.codeSet
  | .get => c.codeGet
  | .delete => c.codeDelete

/-- The constraints the configuration must meet before the first operation (70 R233 step 1): six pairwise distinct
tags, seven pairwise distinct codes, a non-empty delimiter. -/
abbrev Cfg.WF (c : Cfg) : Prop :=
  (Tag.all.map c.tag).Nodup ∧ (MessageType.all.map c.code).Nodup ∧ c.delim ≠ []

/-- The configuration at reset. The source gives no value (R232). DESIGN CHOICE (log 1): the test configuration of
92 D23, with the spec's defaults for `MAX_DECLARED_LEN` (R12) and `PARSE_RFC3339` (D14). unsafe: no claim about the
repository's own bytes follows from it. -/
def Cfg.reset : Cfg where
  tagMessageStart := 0x2A#8
  tagFrameLength := 0x3A#8
  tagMessageType := 0x23#8
  tagString := 0x2B#8
  tagTime := 0x54#8
  tagNull := 0x7C#8
  codePing := 0x01#8
  codeAuthenticate := 0x02#8
  codeSuccess := 0x03#8
  codeFail := 0x04#8
  codeSet := 0x05#8
  codeGet := 0x06#8
  codeDelete := 0x07#8
  delim := [0x0D#8, 0x0A#8]
  maxDeclaredLen := none
  timeParser := .reference

/-- What one receive from the transport comes to (42 R174, R177): the bytes obtained (none of them means end of
stream), an I/O error, or the read deadline firing while the host waits. -/
inductive Receipt where
  | bytes (bs : List Byte)
  | ioError
  | deadline
  deriving DecidableEq, Repr, Inhabited

/-- The two read calls the host offers its caller (42 R171, R177). -/
inductive Call where
  | readMessage
  | readMessageWithTimeout
  deriving DecidableEq, Repr, Inhabited

/-- FREE VALUE (40 R115, log 3): the implementation's own `PARSE_RFC3339`, total and a function of the payload bytes;
which texts it accepts and which instants it gives are open. -/
opaque Config.suppliedRfc3339 : List Byte → Option Instant

/-- FREE VALUE (42 R174, R177, log 13): the `n`-th draw of the transport once no queued outcome is left. -/
opaque Config.transportDraw : Nat → Receipt

/-- FREE VALUE (log 16): the `n`-th read call of the caller once no queued call is left. -/
opaque Config.callDraw : Nat → Call

end Sys2Proof
end

