-- ==== Sys2Proof/Machine/Values.lean ====
section
/-! DEFINITION. The value types of the machine (spec 10_state sections 1, 3 and 5): grammar positions, frames, causes,
error records, the three-way result of a primitive, and the outputs of an operation. -/

namespace Sys2Proof.Machine

/-- The two commands of FPA (10 R20). -/
inductive Command where
  | check | parse
  deriving DecidableEq, Repr

/-- The grammar positions (10 R23). -/
inductive Pos where
  | start | flenTag | flenValue | typeTag | typeCode | pingClient | pingServer | authUser | authPass | done
  deriving DecidableEq, Repr

/-- The cause codes of 60 R201, codes 1 to 7 in this order. -/
inductive Cause where
  | badTag | invalidMessageType | delimMismatch | invalidUtf8 | invalidTimestamp | notImplemented | oversize
  deriving DecidableEq, Repr

/-- What the walk expected where it failed (10 R28): a tag set at a position, a delimiter byte at a position, or a
position. -/
inductive Expected where
  | tags (ts : List Tag) (g : Pos)
  | delimByte (b : Byte) (g : Pos)
  | position (g : Pos)
  deriving DecidableEq, Repr

/-- The error record (10 R28). -/
structure ErrorRecord where
  cause : Cause
  offset : Nat
  expected : Expected
  got : Option Byte
  deriving DecidableEq, Repr

/-- The outcome of a Frame Parser primitive (10 R27): `Ok(v, p')`, `Incomplete` or `Invalid(e)`. -/
inductive Res (α : Type) where
  | ok (v : α) (p : Nat)
  | incomplete
  | invalid (e : ErrorRecord)
  deriving DecidableEq, Repr

/-- A frame (10 R32). -/
inductive Frame where
  | messageStart
  | length (v : U64)
  | messageType (t : MessageType)
  | string (s : List Byte)
  | time (s : List Byte) (i : Instant)
  | null
  deriving DecidableEq, Repr

/-- The operation statuses (10 R29). -/
inductive Status where
  | complete | incomplete | invalid
  deriving DecidableEq, Repr

/-- The outputs of an operation (10 R29): each constructor is a status with exactly the fields the rule defines for it;
`none` is the state before an operation has ended, in which no output holds a value (10 R38). -/
inductive Output where
  | none
  /-- `COMPLETE` under `CHECK` -/
  | complete (consumed : Nat)
  /-- `COMPLETE` under `PARSE` -/
  | parsed (consumed : Nat) (frames : List Frame) (msgType : MessageType)
  | incomplete
  | invalid (err : ErrorRecord)
  deriving DecidableEq, Repr

/-- The operation-local registers (10 R21): cursor, grammar position, frame accumulator, and the two latches. -/
structure Walk where
  /-- cursor (R22) -/
  p : Nat
  /-- grammar position (R23) -/
  g : Pos
  /-- frame accumulator (R24) -/
  acc : List Frame
  /-- message-type latch (R25) -/
  mt : Option MessageType
  /-- frame-length latch (R26) -/
  flen : Option U64
  deriving DecidableEq, Repr

/-- How a walk ends (41 R140): complete with its final registers, incomplete, or invalid with an error record. -/
inductive WalkEnd where
  | complete (r : Walk)
  | incomplete
  | invalid (e : ErrorRecord)
  deriving DecidableEq, Repr

/-- The results of a read call (42 R175). A message is carried as the frames and type it is decoded from: the Message
Decoder is out of scope (00 R7). -/
inductive ReadResult where
  | message (frames : List Frame) (msgType : MessageType)
  | endOfStream
  | malformed (e : ErrorRecord)
  | ioError
  | resetByPeer
  | timeout
  deriving DecidableEq, Repr

end Sys2Proof.Machine
end

