-- ==== Sys2Proof/Machine/Flags.lean ====
section
/-! DEFINITION. FPA has no flags and no condition codes (spec 10 R35): the status output is the only result a caller
branches on. This file holds the status computation and the numeric codes of statuses and causes (10 R29, 60 R201,
D16), and which outputs hold a value. -/

namespace Sys2Proof.Machine

/-- The numeric code of a status (10 R29). -/
def Status.code : Status → Nat
  | .complete => 0
  | .incomplete => 1
  | .invalid => 2

/-- The numeric code of a cause (60 R201). -/
def Cause.code : Cause → Nat
  | .badTag => 1
  | .invalidMessageType => 2
  | .delimMismatch => 3
  | .invalidUtf8 => 4
  | .invalidTimestamp => 5
  | .notImplemented => 6
  | .oversize => 7

/-- The numeric code of a command (92 D1). -/
def Command.code : Command → Nat
  | .check => 0
  | .parse => 1

/-- Output `status` (10 R29). -/
def Output.status : Output → Option Status
  | .none => Option.none
  | .complete _ => some .complete
  | .parsed _ _ _ => some .complete
  | .incomplete => some .incomplete
  | .invalid _ => some .invalid

/-- Output `consumed` (10 R29). -/
def Output.consumed : Output → Option Nat
  | .complete n => some n
  | .parsed n _ _ => some n
  | .none | .incomplete | .invalid _ => Option.none

/-- Output `err` (10 R29). -/
def Output.err : Output → Option ErrorRecord
  | .invalid e => some e
  | .none | .complete _ | .parsed _ _ _ | .incomplete => Option.none

/-- Output `frames` (10 R29, R33). -/
def Output.frames : Output → Option (List Frame)
  | .parsed _ fs _ => some fs
  | .none | .complete _ | .incomplete | .invalid _ => Option.none

/-- Output `msg_type` (10 R29). -/
def Output.msgType : Output → Option MessageType
  | .parsed _ _ t => some t
  | .none | .complete _ | .incomplete | .invalid _ => Option.none

/-- The results after which the host issues no further operation (42 R175, R176). -/
def ReadResult.fatal : ReadResult → Bool
  | .malformed _ | .ioError | .resetByPeer => true
  | .message _ _ | .endOfStream | .timeout => false

end Sys2Proof.Machine
end

