-- ==== Sys2Proof/Machine/Operands.lean ====
section
/-! DEFINITION. Operand forms of the wire format: the reads of a byte and of a length field, the declared-length limit,
the delimiter and the body of a string or time frame (spec 20 R52, 30 R78, 40 R100 to R103, R106, R108, R109). The
window is the byte sequence `w`, its length `L` is `w.length` (R16, R61). -/

namespace Sys2Proof.Machine

/-- "if r is not Ok: return r", else go on with the value and the cursor after it (10 R27). -/
def Res.andThen {α β : Type} (r : Res α) (k : α → Nat → Res β) : Res β :=
  match r with
  | .ok v p => k v p
  | .incomplete => .incomplete
  | .invalid e => .invalid e

/-- `ByteRead(p)` (20 R52): the window byte at `p`, none exactly when `p` is at or beyond `L`. -/
def byteRead (w : List Byte) (p : Nat) : Option Byte := w[p]?

/-- `s[i..j)` (00 R14). -/
def slice (w : List Byte) (i j : Nat) : List Byte := (w.drop i).take (j - i)

/-- `be64(s)` (40 R103): the big-endian value of an 8-byte sequence. -/
def be64 (s : List Byte) : U64 := BitVec.ofNat 64 (s.foldl (fun a b => a * 256 + b.toNat) 0)

/-- The 8-byte big-endian spelling of a value (30 R78, R89): the inverse of `be64`. -/
def bytes64 (v : U64) : List Byte :=
  [56, 48, 40, 32, 24, 16, 8, 0].map fun k => v.extractLsb' k 8

/-- The error record of a wrong tag (40 R100, R114). -/
def badTag (ts : List Tag) (g : Pos) (p : Nat) (b : Byte) : ErrorRecord :=
  { cause := .badTag, offset := p, expected := .tags ts g, got := some b }

/-- `P_TAG(t, g)` (40 R100). -/
def pTag (c : Cfg) (w : List Byte) (t : Tag) (g : Pos) (p : Nat) : Res Unit :=
  match byteRead w p with
  | none => .incomplete
  | some b => if b = c.tag t then .ok () (p + 1) else .invalid (badTag [t] g p b)

/-- `P_U64(p)` (40 R101). -/
def pU64 (w : List Byte) (p : Nat) : Res U64 :=
  if p + 8 > w.length then .incomplete else .ok (be64 (slice w p (p + 8))) (p + 8)

/-- `CAP(V, q, g)` (40 R102) before going on with `k`. -/
def cap {α : Type} (c : Cfg) (v q : Nat) (g : Pos) (k : Res α) : Res α :=
  match c.maxDeclaredLen with
  | none => k
  | some m =>
    if v > m then .invalid { cause := .oversize, offset := q, expected := .position g, got := none } else k

/-- `DECODE_TYPE(b)` (40 R106). -/
def decodeType (c : Cfg) (b : Byte) : Option MessageType := MessageType.all.find? fun t => c.code t == b

/-- `P_DELIM(q, g)` (40 R108) over the delimiter bytes not yet compared. -/
def pDelimFrom (w : List Byte) (g : Pos) : List Byte → Nat → Res Unit
  | [], q => .ok () q
  | d :: ds, q =>
    match byteRead w q with
    | none => .incomplete
    | some b =>
      if b ≠ d then
        .invalid { cause := .delimMismatch, offset := q, expected := .delimByte d g, got := some b }
      else pDelimFrom w g ds (q + 1)

/-- `P_DELIM(q, g)` (40 R108). -/
def pDelim (c : Cfg) (w : List Byte) (g : Pos) (q : Nat) : Res Unit := pDelimFrom w g c.delim q

/-- `P_BODY(q, g)` (40 R109): the payload and the offset of its first byte. -/
def pBody (c : Cfg) (w : List Byte) (g : Pos) (q : Nat) : Res (List Byte × Nat) :=
  (pU64 w q).andThen fun v s0 =>
    cap c v.toNat q g
      (if s0 + v.toNat > w.length then .incomplete
       else (pDelim c w g (s0 + v.toNat)).andThen fun _ p' => .ok (slice w s0 (s0 + v.toNat), s0) p')

end Sys2Proof.Machine
end

