-- ==== Sys2Proof/Syntax.lean ====
section
/-! DEFINITION. The instruction set (spec 00 R2): one constructor per row of opcode_table.json, with the operands of
the spec's own notation (30 R89, R90). The two commands take their operands (the window, its length, `n_in`) from the
operation's inputs (10 R20), which are State. -/

namespace Sys2Proof

/-- The rows of opcode_table.json. -/
inductive Instr where
  /-- command code 0 (41 R144) -/
  | check
  /-- command code 1 (41 R145) -/
  | parse
  /-- `START` (40 R104) -/
  | start
  /-- `FLEN v` (40 R105) -/
  | flen (v : U64)
  /-- `TYPE Ping` (40 R107, 41 R142) -/
  | typePing
  /-- `TYPE Authenticate` (40 R107, 41 R142) -/
  | typeAuthenticate
  /-- `TYPE Success`, reserved (41 R142) -/
  | typeSuccess
  /-- `TYPE Fail`, reserved (41 R142) -/
  | typeFail
  /-- `TYPE Set`, reserved (41 R142) -/
  | typeSet
  /-- `TYPE Get`, reserved (41 R142) -/
  | typeGet
  /-- `TYPE Delete`, reserved (41 R142) -/
  | typeDelete
  /-- `TYPEB b`, a raw code byte that is none of the seven codes (40 R107) -/
  | typeInvalid (b : Byte)
  /-- `STR payload` (40 R111) -/
  | str (payload : List Byte)
  /-- `TIME payload` (40 R112) -/
  | time (payload : List Byte)
  /-- `NULL` (40 R113) -/
  | null
  /-- `OPT_TIME none` or `OPT_TIME payload`, the pseudo-frame (30 R90, 40 R114) -/
  | optTime (t : Option (List Byte))
  deriving DecidableEq, Repr

end Sys2Proof
end

