-- ==== Sys2Proof/WellFormed.lean ====
section
/-! DEFINITION. Which instructions have an encoding under a configuration (spec 30 R71, R87; 00 R12, R13). Content
(UTF-8, RFC 3339) is no part of it: a frame with ill-formed content is encodable, and executing it raises the cause
the spec names. -/

namespace Sys2Proof

/-- A byte count that the 8-byte field holds (00 R13) and the limit admits (00 R12). -/
def Cfg.countOk (c : Cfg) (n : Nat) : Bool :=
  n < 2 ^ 64 && (match c.maxDeclaredLen with
    | none => true
    | some m => n ≤ m)

/-- Well-formedness of an instruction: an invalid code byte is none of the seven codes, and a payload's length is a
byte count the frame can declare. -/
def Instr.wf (c : Cfg) : Instr → Bool
  | .typeInvalid b => MessageType.all.all fun t => c.code t != b
  | .str s => c.countOk s.length
  | .time s => c.countOk s.length
  | .optTime (some s) => c.countOk s.length
  | .check | .parse | .start | .flen _ | .typePing | .typeAuthenticate | .typeSuccess | .typeFail | .typeSet
  | .typeGet | .typeDelete | .null | .optTime none => true

end Sys2Proof
end

