-- ==== Sys2Proof/Decode.lean ====
section
/-! DEFINITION. The decoder and the encoder of the wire grammar (spec 30_encoding). The decoder is total on any bytes:
it gives the instruction at the cursor and the cursor after it, or `Incomplete`, or `Invalid` with the cause by name
(10 R27). It reads a frame's structure (tag, fixed fields, count and its limit, payload, delimiter); the content
checks that follow the structure (92 D9) belong to the instruction's meaning. -/

namespace Sys2Proof

open Machine

/-- The tags legal at a grammar position (30 R86). Positions that read a value, and the end of the walk, have none. -/
def Machine.Pos.legal : Pos → List Tag
  | .start => [.messageStart]
  | .flenTag => [.frameLength]
  | .typeTag => [.messageType]
  | .pingClient | .pingServer => [.time, .null]
  | .authUser | .authPass => [.string]
  | .flenValue | .typeCode | .done => []

/-- The tag a byte spells, if any (00 R9: tags are distinct, so at most one). -/
def decodeTag (c : Cfg) (b : Byte) : Option Tag := Tag.all.find? fun t => c.tag t == b

/-- The message-type row of a decoded type (30 R81). -/
def typeInstr : MessageType → Instr
  | .ping => .typePing
  | .authenticate => .typeAuthenticate
  | .success => .typeSuccess
  | .fail => .typeFail
  | .set => .typeSet
  | .get => .typeGet
  | .delete => .typeDelete

/-- The message-type row of a code byte (30 R81, R87). -/
def codeInstr (c : Cfg) (b : Byte) : Instr :=
  match decodeType c b with
  | some t => typeInstr t
  | none => .typeInvalid b

/-- The rest of a frame whose tag byte stands at `p` (30 R71, R88); `g` is the position the error record names. -/
def decodeRest (c : Cfg) (w : List Byte) (g : Pos) (p : Nat) : Tag → Res Instr
  | .messageStart => .ok .start (p + 1)
  | .frameLength => (pU64 w (p + 1)).andThen fun v p' => .ok (.flen v) p'
  | .messageType =>
    match byteRead w (p + 1) with
    | none => .incomplete
    | some b => .ok (codeInstr c b) (p + 2)
  | .string => (pBody c w g (p + 1)).andThen fun b p' => .ok (.str b.1) p'
  | .time => (pBody c w g (p + 1)).andThen fun b p' => .ok (.time b.1) p'
  | .null => .ok .null (p + 1)

/-- Decode the frame at cursor `p` for grammar position `g` (30 R86 to R88): a tag outside the position's legal set is
`BAD_TAG` whatever follows it. -/
def decodeAt (c : Cfg) (w : List Byte) (g : Pos) (p : Nat) : Res Instr :=
  match byteRead w p with
  | none => .incomplete
  | some b =>
    match decodeTag c b with
    | none => .invalid (badTag g.legal g p b)
    | some t => if t ∈ g.legal then decodeRest c w g p t else .invalid (badTag g.legal g p b)

/-- The command of a command code (92 D1); no other code exists. -/
def decodeCommand : Nat → Option Instr
  | 0 => some .check
  | 1 => some .parse
  | _ => none

/-- The first grammar position at which a tag is legal (30 R86). -/
def entryPos : Tag → Pos
  | .messageStart => .start
  | .frameLength => .flenTag
  | .messageType => .typeTag
  | .string => .authUser
  | .time | .null => .pingClient

/-- The grammar position at which the frame that begins with these bytes can stand. -/
def entryPosOf (c : Cfg) (bs : List Byte) : Pos :=
  match bs.head?.bind (decodeTag c) with
  | some t => entryPos t
  | none => .start

/-- The bytes of a table word in stream order (the table numbers bits from the first byte), followed by zero bytes up
to the end of an empty string or time frame. -/
def tableBytes (c : Cfg) (nbits w : Nat) : List Byte :=
  ((List.range ((nbits + 7) / 8)).map fun i => BitVec.ofNat 8 (w / 2 ^ (8 * i))) ++
    List.replicate (9 + c.delim.length) 0#8

/-- The command a table word stands for: a word of at most one byte that is no tag, read as a command code (log 20). -/
def tableCommand (c : Cfg) (nbits w : Nat) : Option Instr :=
  if nbits ≤ 8 ∧ decodeTag c (BitVec.ofNat 8 w) = none then decodeCommand w else none

/-- The instruction the decoder reads from a table word, under a configuration. -/
def decodeTableWordIn (c : Cfg) (nbits w : Nat) : Option Instr :=
  match tableCommand c nbits w with
  | some i => some i
  | none =>
    match decodeAt c (tableBytes c nbits w) (entryPosOf c (tableBytes c nbits w)) 0 with
    | .ok i _ => some i
    | .incomplete | .invalid _ => none

/-- The instruction the decoder reads from a table word under the reset configuration (log 20). -/
def decodeTableWord (nbits w : Nat) : Option Instr := decodeTableWordIn Cfg.reset nbits w

/-! The encoder (30 R71, R89, R90). -/

/-- Count, payload and delimiter of a string or time frame (30 R71). -/
def encodeBody (c : Cfg) (s : List Byte) : List Byte :=
  bytes64 (BitVec.ofNat 64 s.length) ++ s ++ c.delim

/-- The bytes of a message-type frame (30 R74). -/
def encodeType (c : Cfg) (t : MessageType) : List Byte := [c.tagMessageType, c.code t]

/-- The bytes of an instruction: 30 R89 for the frames, R90 for the pseudo-frame, and the one-byte command code for the
two commands (92 D1, not a wire value). -/
def encode (c : Cfg) : Instr → List Byte
  | .check => [0#8]
  | .parse => [1#8]
  | .start => [c.tagMessageStart]
  | .flen v => c.tagFrameLength :: bytes64 v
  | .typePing => encodeType c .ping
  | .typeAuthenticate => encodeType c .authenticate
  | .typeSuccess => encodeType c .success
  | .typeFail => encodeType c .fail
  | .typeSet => encodeType c .set
  | .typeGet => encodeType c .get
  | .typeDelete => encodeType c .delete
  | .typeInvalid b => [c.tagMessageType, b]
  | .str s => c.tagString :: encodeBody c s
  | .time s => c.tagTime :: encodeBody c s
  | .null => [c.tagNull]
  | .optTime none => [c.tagNull]
  | .optTime (some s) => c.tagTime :: encodeBody c s

/-- The frame a pseudo-frame expands to (30 R90); every other instruction is itself. -/
def Instr.expand : Instr → Instr
  | .optTime none => .null
  | .optTime (some s) => .time s
  | i => i

/-- The total length of a frame (30 R71); a command code is one byte (92 D1). -/
def Instr.size (c : Cfg) : Instr → Nat
  | .check | .parse => 1
  | .start | .null | .optTime none => 1
  | .flen _ => 9
  | .typePing | .typeAuthenticate | .typeSuccess | .typeFail | .typeSet | .typeGet | .typeDelete
  | .typeInvalid _ => 2
  | .str s | .time s | .optTime (some s) => 9 + s.length + c.delim.length

/-- The tag a frame begins with (30 R71); a command has none. -/
def Instr.tag? : Instr → Option Tag
  | .check | .parse => none
  | .start => some .messageStart
  | .flen _ => some .frameLength
  | .typePing | .typeAuthenticate | .typeSuccess | .typeFail | .typeSet | .typeGet | .typeDelete
  | .typeInvalid _ => some .messageType
  | .str _ => some .string
  | .time _ | .optTime (some _) => some .time
  | .null | .optTime none => some .null

/-- The bytes of one frame of a frame list (30 R71, R89). -/
def encodeFrame (c : Cfg) : Frame → List Byte
  | .messageStart => [c.tagMessageStart]
  | .length v => c.tagFrameLength :: bytes64 v
  | .messageType t => encodeType c t
  | .string s => c.tagString :: encodeBody c s
  | .time s _ => c.tagTime :: encodeBody c s
  | .null => [c.tagNull]

/-- The bytes of a Ping message after its frame length frame (30 R82, R90). -/
def pingRest (c : Cfg) (client server : Option (List Byte)) : List Byte :=
  encode c .typePing ++ encode c (.optTime client) ++ encode c (.optTime server)

/-- The bytes of an Authenticate message after its frame length frame (30 R83, R90). -/
def authRest (c : Cfg) (user pass : List Byte) : List Byte :=
  encode c .typeAuthenticate ++ encode c (.str user) ++ encode c (.str pass)

/-- A Ping message with the frame-length value `v`, which FPA does not check (30 R73, R82). -/
def pingMessage (c : Cfg) (v : U64) (client server : Option (List Byte)) : List Byte :=
  encode c .start ++ encode c (.flen v) ++ pingRest c client server

/-- An Authenticate message with the frame-length value `v`, which FPA does not check (30 R73, R83). -/
def authMessage (c : Cfg) (v : U64) (user pass : List Byte) : List Byte :=
  encode c .start ++ encode c (.flen v) ++ authRest c user pass

/-- The frame-length value an encoder writes before the bytes `rest` (30 R90, D24): how many they are; none where that
does not fit the 8 bytes of the field (log 32). -/
def declaredLength (rest : List Byte) : Option U64 :=
  if rest.length < 2 ^ 64 then some (BitVec.ofNat 64 rest.length) else none

/-- `MSG_PING(c, s)` (30 R90): `START`, `FLEN v`, `TYPE Ping`, `OPT_TIME c`, `OPT_TIME s`, where `v` is the message
length minus 10. -/
def msgPing (c : Cfg) (client server : Option (List Byte)) : Option (List Byte) :=
  (declaredLength (pingRest c client server)).map fun v => pingMessage c v client server

/-- `MSG_AUTH(u, pw)` (30 R90): `START`, `FLEN v`, `TYPE Authenticate`, `STR u`, `STR pw`, where `v` is the message
length minus 10. -/
def msgAuth (c : Cfg) (user pass : List Byte) : Option (List Byte) :=
  (declaredLength (authRest c user pass)).map fun v => authMessage c v user pass

end Sys2Proof
end

