-- ==== Sys2Proof/Machine/Rfc3339.lean ====
section
/-! DEFINITION. `PARSE_RFC3339` (spec 40 R115, R116): the reference parser, and the choice the configuration makes. -/

namespace Sys2Proof.Machine

/-- The value of an ASCII digit. -/
def digit? (b : Byte) : Option Nat := if 0x30 ≤ b.toNat ∧ b.toNat ≤ 0x39 then some (b.toNat - 0x30) else none

/-- `nDIGIT`: exactly `n` digits, read as a decimal number, after the value `acc` already read. -/
def digits : Nat → Nat → List Byte → Option (Nat × List Byte)
  | 0, acc, s => some (acc, s)
  | _ + 1, _, [] => none
  | n + 1, acc, b :: s =>
    match digit? b with
    | some d => digits n (acc * 10 + d) s
    | none => none

/-- One byte out of a list of accepted ones. -/
def oneOf (bs : List Byte) : List Byte → Option (List Byte)
  | [] => none
  | b :: s => if b ∈ bs then some s else none

/-- Gregorian leap years (40 R116). -/
def leapYear (y : Nat) : Bool := y % 4 = 0 && (y % 100 ≠ 0 || y % 400 = 0)

/-- `days(month, year)` (40 R116). -/
def daysInMonth (y m : Nat) : Nat :=
  match m with
  | 2 => if leapYear y then 29 else 28
  | 4 | 6 | 9 | 11 => 30
  | _ => 31

/-- The days of the months before month `m` of year `y`. -/
def daysBeforeMonth (y m : Nat) : Nat := ((List.range (m - 1)).map fun k => daysInMonth y (k + 1)).sum

/-- The days from the first day of year 0 to the first day of year `y`. -/
def daysBeforeYear (y : Nat) : Nat := 365 * y + (y + 3) / 4 - (y + 99) / 100 + (y + 399) / 400

/-- `days_from_civil` (40 R116), with `days_from_civil(1970, 1, 1) = 0`. -/
def daysFromCivil (y m d : Nat) : Int :=
  (daysBeforeYear y + daysBeforeMonth y m + (d - 1) : Nat) - (daysBeforeYear 1970 : Nat)

/-- `full-date`: year, month and day in range. -/
def fullDate (s : List Byte) : Option ((Nat × Nat × Nat) × List Byte) := do
  let (y, s) ← digits 4 0 s
  let s ← oneOf [0x2D#8] s
  let (m, s) ← digits 2 0 s
  let s ← oneOf [0x2D#8] s
  let (d, s) ← digits 2 0 s
  if 1 ≤ m ∧ m ≤ 12 ∧ 1 ≤ d ∧ d ≤ daysInMonth y m then some ((y, m, d), s) else none

/-- The optional fraction of a second, in nanoseconds; digits after the ninth are dropped. -/
def fraction (s : List Byte) : Option (Nat × List Byte) :=
  match oneOf [0x2E#8] s with
  | none => some (0, s)
  | some s' =>
    let ds := s'.takeWhile fun b => (digit? b).isSome
    if ds = [] then none
    else
      match digits 9 0 (ds ++ List.replicate 9 0x30#8) with
      | some (n, _) => some (n, s'.dropWhile fun b => (digit? b).isSome)
      | none => none

/-- `partial-time`: hour, minute, second in range, and the fraction in nanoseconds. -/
def partialTime (s : List Byte) : Option ((Nat × Nat × Nat × Nat) × List Byte) := do
  let (h, s) ← digits 2 0 s
  let s ← oneOf [0x3A#8] s
  let (m, s) ← digits 2 0 s
  let s ← oneOf [0x3A#8] s
  let (sec, s) ← digits 2 0 s
  let (n, s) ← fraction s
  if h ≤ 23 ∧ m ≤ 59 ∧ sec ≤ 60 then some ((h, m, sec, n), s) else none

/-- `time-offset`, in seconds. -/
def timeOffset (s : List Byte) : Option (Int × List Byte) :=
  match oneOf [0x5A#8, 0x7A#8] s with
  | some s' => some (0, s')
  | none => do
    let neg := s.head? = some 0x2D#8
    let s ← oneOf [0x2B#8, 0x2D#8] s
    let (h, s) ← digits 2 0 s
    let s ← oneOf [0x3A#8] s
    let (m, s) ← digits 2 0 s
    if h ≤ 23 ∧ m ≤ 59 then
      some (if neg then -((h * 3600 + m * 60 : Nat) : Int) else ((h * 3600 + m * 60 : Nat) : Int), s)
    else none

/-- The instant of a date, a time of day and an offset (40 R116). -/
def civilInstant (y mo d h mi sec n : Nat) (off : Int) : Instant where
  secs := daysFromCivil y mo d * 86400 + (h * 3600 + mi * 60 + min sec 59 : Nat) - off
  nanos := Fin.ofNat 2000000000 (n + if sec = 60 then 1000000000 else 0)
  offset := off

/-- The reference `PARSE_RFC3339` (40 R116): `date-time` and nothing after it. -/
def referenceRfc3339 (s : List Byte) : Option Instant := do
  let ((y, mo, d), s) ← fullDate s
  let s ← oneOf [0x54#8, 0x74#8] s
  let ((h, mi, sec, n), s) ← partialTime s
  let (off, s) ← timeOffset s
  if s = [] then some (civilInstant y mo d h mi sec n off) else none

/-- `PARSE_RFC3339` as the configuration chooses it (10 R30, 40 R115). -/
def parseRfc3339 (c : Cfg) (s : List Byte) : Option Instant :=
  match c.timeParser with
  | .reference => referenceRfc3339 s
  | .supplied => Config.suppliedRfc3339 s

end Sys2Proof.Machine
end

