-- ==== Sys2Proof/Machine/Utf8.lean ====
section
/-! DEFINITION. `UTF8_OK` (spec 40 R110), written from the rule's table. -/

namespace Sys2Proof.Machine

/-- The rows of the table of 40 R110: the range of the first byte and the ranges of the bytes that follow it. -/
def utf8Rows : List ((Nat × Nat) × List (Nat × Nat)) :=
  [((0x00, 0x7F), []),
   ((0xC2, 0xDF), [(0x80, 0xBF)]),
   ((0xE0, 0xE0), [(0xA0, 0xBF), (0x80, 0xBF)]),
   ((0xE1, 0xEC), [(0x80, 0xBF), (0x80, 0xBF)]),
   ((0xED, 0xED), [(0x80, 0x9F), (0x80, 0xBF)]),
   ((0xEE, 0xEF), [(0x80, 0xBF), (0x80, 0xBF)]),
   ((0xF0, 0xF0), [(0x90, 0xBF), (0x80, 0xBF), (0x80, 0xBF)]),
   ((0xF1, 0xF3), [(0x80, 0xBF), (0x80, 0xBF), (0x80, 0xBF)]),
   ((0xF4, 0xF4), [(0x80, 0x8F), (0x80, 0xBF), (0x80, 0xBF)])]

/-- A byte lies in an inclusive range. -/
def inRange (r : Nat × Nat) (b : Byte) : Bool := r.1 ≤ b.toNat && b.toNat ≤ r.2

/-- The ranges of the bytes that must follow a first byte, none if no row begins with it. -/
def utf8Follow (b : Byte) : Option (List (Nat × Nat)) := (utf8Rows.find? fun r => inRange r.1 b).map Prod.snd

/-- Scan with the ranges still owed to the sequence begun. -/
def utf8Scan : List (Nat × Nat) → List Byte → Bool
  | [], [] => true
  | _ :: _, [] => false
  | [], b :: bs =>
    match utf8Follow b with
    | some rs => utf8Scan rs bs
    | none => false
  | r :: rs, b :: bs => inRange r b && utf8Scan rs bs

/-- `UTF8_OK(s)` (40 R110). -/
def utf8Ok (s : List Byte) : Bool := utf8Scan [] s

end Sys2Proof.Machine
end

