-- ==== Sys2Proof/Machine/Primitives.lean ====
section
/-! DEFINITION. The Frame Parser primitives (spec 40 R104 to R114), each as the rule's pseudocode gives it, and the
walk of the message grammar built from them (41 R140). -/

namespace Sys2Proof.Machine

/-- `P_MESSAGE_START(p)` (40 R104). -/
def pMessageStart (c : Cfg) (w : List Byte) (p : Nat) : Res Frame :=
  (pTag c w .messageStart .start p).andThen fun _ p1 => .ok .messageStart p1

/-- The end of `P_FRAME_LENGTH`: the limit, then the frame (40 R105); `q` is the offset of the 8-byte field. -/
def lengthFrame (c : Cfg) (v : U64) (q p' : Nat) : Res Frame := cap c v.toNat q .flenValue (.ok (.length v) p')

/-- `P_FRAME_LENGTH(p)` (40 R105). -/
def pFrameLength (c : Cfg) (w : List Byte) (p : Nat) : Res Frame :=
  (pTag c w .frameLength .flenTag p).andThen fun _ q =>
    (pU64 w q).andThen fun v p' => lengthFrame c v q p'

/-- The end of `P_MESSAGE_TYPE`: the code byte `b`, which stands at `q` (40 R107). -/
def typeFrame (c : Cfg) (b : Byte) (q : Nat) : Res Frame :=
  match decodeType c b with
  | some t => .ok (.messageType t) (q + 1)
  | none =>
    .invalid { cause := .invalidMessageType, offset := q, expected := .position .typeCode, got := some b }

/-- `P_MESSAGE_TYPE(p)` (40 R107). -/
def pMessageType (c : Cfg) (w : List Byte) (p : Nat) : Res Frame :=
  (pTag c w .messageType .typeTag p).andThen fun _ q =>
    match byteRead w q with
    | none => .incomplete
    | some b => typeFrame c b q

/-- The content check of a string frame (40 R111); `s0` is the offset of the first payload byte. -/
def stringFrame (g : Pos) (payload : List Byte) (s0 p' : Nat) : Res Frame :=
  if utf8Ok payload then .ok (.string payload) p'
  else .invalid { cause := .invalidUtf8, offset := s0, expected := .position g, got := none }

/-- `P_STRING(p, g)` (40 R111). -/
def pString (c : Cfg) (w : List Byte) (g : Pos) (p : Nat) : Res Frame :=
  (pTag c w .string g p).andThen fun _ q =>
    (pBody c w g q).andThen fun b p' => stringFrame g b.1 b.2 p'

/-- The content check of a time frame (40 R112); `s0` is the offset of the first payload byte. -/
def timeFrame (c : Cfg) (g : Pos) (payload : List Byte) (s0 p' : Nat) : Res Frame :=
  match parseRfc3339 c payload with
  | some i => .ok (.time payload i) p'
  | none => .invalid { cause := .invalidTimestamp, offset := s0, expected := .position g, got := none }

/-- `P_TIME(p, g)` (40 R112). -/
def pTime (c : Cfg) (w : List Byte) (g : Pos) (p : Nat) : Res Frame :=
  (pTag c w .time g p).andThen fun _ q =>
    (pBody c w g q).andThen fun b p' => timeFrame c g b.1 b.2 p'

/-- `P_NULL(p, g)` (40 R113). -/
def pNull (c : Cfg) (w : List Byte) (g : Pos) (p : Nat) : Res Frame :=
  (pTag c w .null g p).andThen fun _ p1 => .ok .null p1

/-- `P_OPT_TIME(p, g)` (40 R114). -/
def pOptTime (c : Cfg) (w : List Byte) (g : Pos) (p : Nat) : Res Frame :=
  match byteRead w p with
  | none => .incomplete
  | some b =>
    if b = c.tagTime then pTime c w g p
    else if b = c.tagNull then .ok .null (p + 1)
    else .invalid (badTag [.time, .null] g p b)

/-! The walk (41 R140). -/

/-- The registers at the start of every walk (10 R38). -/
def Walk.init : Walk := { p := 0, g := .start, acc := [], mt := none, flen := none }

/-- Message types whose payload grammar is reserved (41 R142). -/
def reservedType : MessageType → Bool
  | .ping | .authenticate => false
  | .success | .fail | .set | .get | .delete => true

/-- The first payload position of a message type (41 R141, R142); a reserved type has no payload grammar, so its walk
never gets past the code byte. -/
def payloadPos : MessageType → Pos
  | .ping => .pingClient
  | .authenticate => .authUser
  | .success | .fail | .set | .get | .delete => .done

/-- The position after the frame `f` was read at `g` (41 R141). -/
def nextPos (g : Pos) (f : Frame) : Pos :=
  match f with
  | .messageStart => .flenTag
  | .length _ => .typeTag
  | .messageType t => payloadPos t
  | .string _ | .time _ _ | .null =>
    match g with
    | .pingClient => .pingServer
    | .authUser => .authPass
    | _ => .done

/-- What `STEP` does on `Ok(f, p')` (41 R140): append under `PARSE`, move the cursor, set the latches, and go to the
next position. -/
def Walk.take (op : Command) (r : Walk) (f : Frame) (p' : Nat) : Walk where
  p := p'
  g := nextPos r.g f
  acc := if op = .parse then r.acc ++ [f] else r.acc
  mt := match f with
    | .messageType t => some t
    | _ => r.mt
  flen := match f with
    | .length v => some v
    | _ => r.flen

/-- `STEP(g, r)` (41 R140) of the primitive `prim` at the cursor. -/
def stepAt (op : Command) (g : Pos) (prim : Nat → Res Frame) (r : Walk) : Except WalkEnd Walk :=
  match prim r.p with
  | .ok f p' => .ok ({ r with g := g }.take op f p')
  | .incomplete => .error .incomplete
  | .invalid e => .error (.invalid e)

/-- The error record of a reserved type (41 R140, R142) whose code byte stands at `q`. -/
def notImplemented (q : Nat) (got : Option Byte) : ErrorRecord :=
  { cause := .notImplemented, offset := q, expected := .position .typeCode, got := got }

/-- The payload part of the walk: the `case mt of` of 41 R140. The latch always has a value there (`mt` is set by the
step before it). -/
def walkPayload (c : Cfg) (op : Command) (w : List Byte) (r : Walk) : Except WalkEnd Walk :=
  match r.mt with
  | some .ping => do
    let r ← stepAt op .pingClient (pOptTime c w .pingClient) r
    stepAt op .pingServer (pOptTime c w .pingServer) r
  | some .authenticate => do
    let r ← stepAt op .authUser (pString c w .authUser) r
    stepAt op .authPass (pString c w .authPass) r
  | some .success | some .fail | some .set | some .get | some .delete =>
    .error (.invalid (notImplemented (r.p - 1) (byteRead w (r.p - 1))))
  | none => .error .incomplete

/-- The frames of one message, from the registers of 10 R38 (41 R140). -/
def walkFrames (c : Cfg) (op : Command) (w : List Byte) : Except WalkEnd Walk := do
  let r ← stepAt op .start (pMessageStart c w) Walk.init
  let r ← stepAt op .flenTag (pFrameLength c w) r
  let r ← stepAt op .typeTag (pMessageType c w) r
  walkPayload c op w r

/-- `WALK(mode, w)` (41 R140). -/
def walk (c : Cfg) (op : Command) (w : List Byte) : WalkEnd :=
  match walkFrames c op w with
  | .ok r => .complete { r with g := .done }
  | .error e => e

end Sys2Proof.Machine
end

