-- ==== Sys2Proof/Machine/State.lean ====
section
/-! DEFINITION. The machine's state as plain data, its stop reasons, and the state right after reset (spec 10_state,
42 R170, 70 R231). INVENTORY.md lists every field with its rule. -/

namespace Sys2Proof.Machine

/-- Why a run stops with a fault. -/
inductive Fault where
  /-- `PARSE_PRECONDITION` (41 R145, 60 R204, 70 R241): raised by `PARSE`, and at the end of a `PARSE` walk, when no
  complete `CHECK` precedes it on the same `n_in` bytes or the walk of `w[0 .. n_in)` is not complete at `n_in`. safe. -/
  | parsePrecondition
  /-- An output or latch that holds no value was read (10 R29, D16): raised by the host's moves and at the end of a
  `PARSE` walk; no state of the modelled host's loop reaches it. safe. -/
  | outputNotDefined
  /-- A step of a connection on which nothing more may be issued (42 R176, 70 R243): raised by `step` alone. safe. -/
  | connectionStopped
  deriving DecidableEq, Repr

/-- Why a step is refused. -/
inductive Refusal where
  /-- An instruction with no meaning yet; no arm of `exec` raises it. safe. -/
  | notModelled (mnemonic : String)
  /-- The configuration breaks the constraints of 70 R233, so no operation is defined (70 R232, 93): raised by every
  instruction. safe. -/
  | badConfiguration
  /-- A frame at a grammar position that reads no tag (30 R86): raised by every frame. safe. -/
  | notATagPosition
  deriving DecidableEq, Repr

/-- Who moves next. -/
inductive Phase where
  /-- no read call is running: the caller moves (42 R171) -/
  | idle
  /-- the host has issued the operation `op`; FPA performs it (10 R20) -/
  | command
  /-- inside an operation shown one `STEP` at a time (41 R140, log 4) -/
  | walking
  /-- `CHECK` has returned; the host acts on its status (42 R171) -/
  | checked
  /-- `PARSE` has returned; the host advances and delivers (42 R171 step 2) -/
  | parsed
  /-- the host waits in `transport.receive()` (42 R171 step 3) -/
  | receiving
  /-- nothing more may be issued on this connection (42 R176) -/
  | stopped
  deriving DecidableEq, Repr

/-- The machine's one byte memory, the window FPA reads and the host's receive buffer (20 R50, 42 R170): one cell per
byte, addresses rising from 0 (log 6). An unlisted address has no byte. -/
abbrev Memory := List Host.Cell

/-- The state of one FPA instance and its host. -/
structure State where
  /-- configuration (10 R30) -/
  cfg : Cfg
  /-- command input (10 R20) -/
  op : Command
  /-- input `n_in` (10 R20) -/
  nIn : Nat
  /-- operation-local registers (10 R21 to R26) -/
  regs : Walk
  /-- outputs (10 R29) -/
  out : Output
  /-- the bytes the last `CHECK` confirmed to be one complete message, none if it confirmed none or the host has
  discarded them: what `PARSE`'s precondition asks of the past (41 R145, 70 R241); the model's own (log 31) -/
  confirmed : Option (List Byte)
  /-- who moves next -/
  phase : Phase
  /-- whether the host's operations run one `STEP` a step or as one transaction; the model's own (log 4) -/
  stepwise : Bool
  /-- receive buffer `B` (42 R170), of which the window is a view (42 R171) -/
  buffer : Memory
  /-- write sink (42 R170, 70 R231) -/
  sink : List Byte
  /-- whether the write sink is flushed (70 R231) -/
  sinkFlushed : Bool
  /-- the host's receive capacity `BUF_CAP` (42 R174, D38) -/
  recvCap : Nat
  /-- the read call in progress is the bounded-time one (42 R177) -/
  bounded : Bool
  /-- the caller's pending read calls -/
  calls : List Call
  /-- the transport's pending receive outcomes (42 R174) -/
  incoming : List Receipt
  /-- index of the next free draw; the model's own -/
  draws : Nat
  /-- the transport has reported end of stream (42 R174, R176) -/
  eof : Bool
  /-- what the last read call returned (42 R175) -/
  result : Option ReadResult
  deriving DecidableEq, Repr

/-- The machine right after reset (10 R38, 70 R231): a connection just created, its configuration fixed (70 R233). -/
def State.reset : State where
  cfg := Cfg.reset
  op := .check
  nIn := 0
  regs := Walk.init
  out := .none
  confirmed := none
  phase := .idle
  stepwise := false
  buffer := []
  sink := []
  sinkFlushed := false
  recvCap := 4096
  bounded := false
  calls := []
  incoming := []
  draws := 0
  eof := false
  result := none

/-- What one step answers. -/
abbrev Answer := Host.Outcome State Fault Refusal

end Sys2Proof.Machine
end

