-- ==== Sys2Proof/Machine/Ops.lean ====
section
/-! DEFINITION. The named operations over memory and registers: the byte memory, the window, the end of an operation,
and taking an exception (spec 20_memory, 41 R140, R144, R145, 60 R200, R207). -/

namespace Sys2Proof.Machine

/-! Memory. -/

/-- Cells for a byte sequence from address `a` on. -/
def Memory.ofBytesFrom : Nat → List Byte → Memory
  | _, [] => []
  | a, b :: bs => (a, b) :: Memory.ofBytesFrom (a + 1) bs

/-- The memory that holds a byte sequence at addresses 0, 1, ... -/
def Memory.ofBytes (bs : List Byte) : Memory := Memory.ofBytesFrom 0 bs

/-- The bytes in address order. -/
def Memory.bytes (m : Memory) : List Byte := m.map Prod.snd

/-- The byte at an address; an unlisted address has none (20 R52). -/
def Memory.read : Memory → Nat → Option Byte
  | [], _ => none
  | (a, b) :: m, x => if a = x then some b else Memory.read m x

/-- The canonical form: the addresses are 0, 1, ... in order (20 R50). -/
def Memory.wf (m : Memory) : Bool := m.map Prod.fst = List.range m.length

/-- Append received bytes at the end (42 R173). -/
def Memory.append (m : Memory) (bs : List Byte) : Memory := m ++ Memory.ofBytesFrom m.length bs

/-- Discard the first `n` bytes; offsets count from 0 again (42 R172, 20 R58). -/
def Memory.advance (m : Memory) (n : Nat) : Memory := Memory.ofBytes (m.bytes.drop n)

/-! Registers and outputs. -/

/-- The window of the operation in progress: the buffer (42 R171), under `PARSE` its first `n_in` bytes (41 R145). -/
def State.window (s : State) : List Byte :=
  match s.op with
  | .check => s.buffer.bytes
  | .parse => s.buffer.bytes.take s.nIn

/-- The registers after a frame was read (41 R140). -/
def State.takeFrame (s : State) (f : Frame) (p' : Nat) : State := { s with regs := s.regs.take s.op f p' }

/-- An operation returns to the host: its outputs are set, its registers discarded (10 R21, R29). -/
def State.returns (s : State) (ph : Phase) (o : Output) : State :=
  { s with out := o, regs := Walk.init, phase := ph }

/-- Keep which bytes a `CHECK` with these outputs confirmed (41 R145, 70 R241): the first `consumed` of its window, or
none where it was not complete (log 31). -/
def State.confirm (s : State) (o : Output) : State := { s with confirmed := o.consumed.map fun n => s.window.take n }

/-- No operation is defined under a configuration that breaks 70 R233 (R232). -/
def requireCfg (s : State) (k : Answer) : Answer := if s.cfg.WF then k else .refused .badConfiguration

/-- The outputs of a `CHECK` whose walk ended so (41 R144, 10 R29). -/
def checkOutput : WalkEnd → Output
  | .complete r => .complete r.p
  | .incomplete => .incomplete
  | .invalid e => .invalid e

/-- The end of the walk of the operation `s.op`: `CHECK` returns the status (41 R144); `PARSE` returns the frames, or
faults when its precondition is broken (41 R145, 60 R204, 70 R241): no complete `CHECK` before it, a different `n_in`,
or other bytes below `n_in`. -/
def endWalk (s : State) (e : WalkEnd) : Answer :=
  match s.op with
  | .check => .next ((s.confirm (checkOutput e)).returns .checked (checkOutput e))
  | .parse =>
    match e with
    | .complete r =>
      if r.p = s.nIn ∧ s.confirmed = some s.window then
        match r.mt with
        | some t => .next (s.returns .parsed (.parsed r.p r.acc t))
        | none => .fault .outputNotDefined
      else .fault .parsePrecondition
    | .incomplete | .invalid _ => .fault .parsePrecondition

/-- TAKING AN EXCEPTION (60 R200, R207): the walk ends at once with status `INVALID` and the error record; nothing else
is written, no state is saved and there is no handler: control returns to the host. There is no return from an
exception (60 R208). -/
def raiseInvalid (s : State) (e : ErrorRecord) : Answer := endWalk s (.invalid e)

/-- The effect of `STEP` for a primitive's result (41 R140). -/
def stepResult (s : State) (r : Res Frame) : Answer :=
  match r with
  | .ok f p' => .next (s.takeFrame f p')
  | .incomplete => endWalk s .incomplete
  | .invalid e => raiseInvalid s e

/-- A frame whose tag is `t` stands at the cursor: where the position accepts the tag, go on; where it accepts others,
`BAD_TAG` (30 R86, R87); where it reads no tag, refuse. -/
def onTag (s : State) (t : Tag) (k : Answer) : Answer :=
  requireCfg s
    (if s.regs.g.legal = [] then .refused .notATagPosition
     else if t ∈ s.regs.g.legal then k
     else raiseInvalid s (badTag s.regs.g.legal s.regs.g s.regs.p (s.cfg.tag t)))

/-- The result of a string or time frame's body with this payload at the cursor: the limit on the count (40 R102,
R109), then `content` at the payload's offset with the cursor after the delimiter (30 R71). -/
def bodyResult (s : State) (payload : List Byte) (content : Nat → Nat → Res Frame) : Res Frame :=
  cap s.cfg payload.length (s.regs.p + 1) s.regs.g
    (content (s.regs.p + 9) (s.regs.p + 9 + payload.length + s.cfg.delim.length))

end Sys2Proof.Machine
end

