-- ==== Sys2Proof/Machine/Connection.lean ====
section
/-! DEFINITION. The host's moves (spec 42_host_interface): the read loop of R171 and its bounded-time variant R177, one
move a step, with the transport's and the caller's choices taken from State or, when none is queued, as free draws. -/

namespace Sys2Proof.Machine

/-- The host issues an operation (10 R20): its inputs are set, its registers are those of 10 R38, and its outputs hold
no value until it ends (70 R231). FPA then performs it as one transaction, or one `STEP` a step (log 4). -/
def State.issue (s : State) (op : Command) (n : Nat) : State :=
  { s with
    op := op
    nIn := n
    out := .none
    regs := Walk.init
    phase := if s.stepwise then .walking else .command }

/-- A read call returns to the caller (42 R175); after a fatal result nothing more is issued (R176). -/
def State.finish (s : State) (r : ReadResult) : State :=
  { s with result := some r, phase := if r.fatal then .stopped else .idle }

/-- The caller's next call, queued or drawn. -/
def State.nextCall (s : State) : Call × State :=
  match s.calls with
  | k :: ks => (k, { s with calls := ks })
  | [] => (Config.callDraw s.draws, { s with draws := s.draws + 1 })

/-- The transport's next receive outcome, queued or drawn (42 R174). -/
def State.nextReceipt (s : State) : Receipt × State :=
  match s.incoming with
  | r :: rs => (r, { s with incoming := rs })
  | [] => (Config.transportDraw s.draws, { s with draws := s.draws + 1 })

/-- The caller calls `read_message` or its bounded-time variant (42 R171, R177); the loop's first move is `CHECK(B)`. -/
def callRead (s : State) : Answer :=
  let k := s.nextCall.1
  let s := s.nextCall.2
  .next ({ s with bounded := k == Call.readMessageWithTimeout, result := none }.issue .check 0)

/-- The host acts on `CHECK`'s status (42 R171): `COMPLETE(N)` issues `PARSE(B, N)`, `INVALID(e)` ends the call with
`B` unchanged, `INCOMPLETE` waits in a receive. -/
def actOnCheck (s : State) : Answer :=
  match s.out.status with
  | none => .fault .outputNotDefined
  | some .complete =>
    match s.out.consumed with
    | some n => .next (s.issue .parse n)
    | none => .fault .outputNotDefined
  | some .invalid =>
    match s.out.err with
    | some e => .next (s.finish (.malformed e))
    | none => .fault .outputNotDefined
  | some .incomplete => .next { s with phase := .receiving }

/-- After `PARSE` (42 R171 step 2, R172): discard exactly the consumed bytes and return the message. What a `CHECK`
confirmed of the discarded bytes is no longer at the front of the buffer (70 R241). -/
def deliver (s : State) : Answer :=
  match s.out.consumed, s.out.frames, s.out.msgType with
  | some n, some fs, some t => .next ({ s with buffer := s.buffer.advance n, confirmed := none }.finish (.message fs t))
  | _, _, _ => .fault .outputNotDefined

/-- End of stream (42 R171 step 4): a clean close on an empty buffer, a reset by peer otherwise. -/
def endOfStream (s : State) : State :=
  { s with eof := true }.finish (if s.buffer = [] then .endOfStream else .resetByPeer)

/-- A receive that obtained the bytes `bs` (42 R171 step 3, R173, R174): at most the receive capacity at once, the rest
staying with the transport; then `CHECK` again. -/
def obtained (s : State) (bs : List Byte) : State :=
  let got := bs.take s.recvCap
  let rest := bs.drop s.recvCap
  let s := { s with incoming := if rest = [] then s.incoming else .bytes rest :: s.incoming }
  if got = [] then endOfStream s else { s with buffer := s.buffer.append got }.issue .check 0

/-- The host waits in `transport.receive()` (42 R171 step 3, R174, R177): every receive is a draw. A deadline fires only
in the bounded-time call and leaves `B` as it is. After end of stream a receive may still fail or be abandoned, but it
obtains no byte (DEDUCED from R176, log 17). -/
def receive (s : State) : Answer :=
  let r := s.nextReceipt.1
  let s := s.nextReceipt.2
  match r with
  | .ioError => .next (s.finish .ioError)
  | .deadline => .next (if s.bounded then s.finish .timeout else s)
  | .bytes bs => .next (if s.eof then endOfStream s else obtained s bs)

end Sys2Proof.Machine
end

