-- ==== Sys2Proof/Machine/Commands.lean ====
section
/-! DEFINITION. The meanings of the two commands (spec 41 R144, R145): each is one whole transaction (10 R20), one walk
from the registers of 10 R38 to an outcome. -/

namespace Sys2Proof.Machine

/-- One walk of the operation `op` over its window (10 R20, 41 R140). -/
def transact (op : Command) (s : State) : Answer :=
  requireCfg s (endWalk { s with op := op } (walk s.cfg op { s with op := op }.window))

/-- `CHECK` (41 R144). -/
def execCheck (s : State) : Answer := transact .check s

/-- `PARSE` (41 R145). -/
def execParse (s : State) : Answer := transact .parse s

end Sys2Proof.Machine
end

