-- ==== Sys2Proof/Machine/Frames.lean ====
section
/-! DEFINITION. The meanings of the frames: the `STEP` of the walk (spec 41 R140) for a frame that stands at the
cursor. Each moves the cursor past the frame's encoding (30 R71, 40 R119) or raises the cause its rule names. -/

namespace Sys2Proof.Machine

/-- `START` (40 R104). -/
def execStart (s : State) : Answer := onTag s .messageStart (stepResult s (.ok .messageStart (s.regs.p + 1)))

/-- `FLEN v` (40 R105). -/
def execFlen (v : U64) (s : State) : Answer :=
  onTag s .frameLength (stepResult s (lengthFrame s.cfg v (s.regs.p + 1) (s.regs.p + 9)))

/-- A message-type frame of type `t` (40 R107) and the type dispatch after it (41 R142): a reserved type is
`NOT_IMPLEMENTED` at its code byte. -/
def execType (t : MessageType) (s : State) : Answer :=
  onTag s .messageType
    (if reservedType t then raiseInvalid s (notImplemented (s.regs.p + 1) (some (s.cfg.code t)))
     else stepResult s (.ok (.messageType t) (s.regs.p + 2)))

/-- `TYPE Ping` (40 R107, 41 R142). -/
def execTypePing (s : State) : Answer := execType .ping s

/-- `TYPE Authenticate` (40 R107, 41 R142). -/
def execTypeAuthenticate (s : State) : Answer := execType .authenticate s

/-- `TYPE Success` (41 R142). -/
def execTypeSuccess (s : State) : Answer := execType .success s

/-- `TYPE Fail` (41 R142). -/
def execTypeFail (s : State) : Answer := execType .fail s

/-- `TYPE Set` (41 R142). -/
def execTypeSet (s : State) : Answer := execType .set s

/-- `TYPE Get` (41 R142). -/
def execTypeGet (s : State) : Answer := execType .get s

/-- `TYPE Delete` (41 R142). -/
def execTypeDelete (s : State) : Answer := execType .delete s

/-- `TYPEB b` (30 R89, 40 R107): a code byte that is none of the seven raises `INVALID_MESSAGE_TYPE`; a byte that is
one of them is that type's frame. -/
def execTypeInvalid (b : Byte) (s : State) : Answer :=
  match decodeType s.cfg b with
  | some t => execType t s
  | none => onTag s .messageType (stepResult s (typeFrame s.cfg b (s.regs.p + 1)))

/-- `STR payload` (40 R111). -/
def execStr (payload : List Byte) (s : State) : Answer :=
  onTag s .string (stepResult s (bodyResult s payload (stringFrame s.regs.g payload)))

/-- A time frame with this payload (40 R112). -/
def timeStep (payload : List Byte) (s : State) : Answer :=
  onTag s .time (stepResult s (bodyResult s payload (timeFrame s.cfg s.regs.g payload)))

/-- `TIME payload` (40 R112). -/
def execTime (payload : List Byte) (s : State) : Answer := timeStep payload s

/-- A null marker (40 R113). -/
def nullStep (s : State) : Answer := onTag s .null (stepResult s (.ok .null (s.regs.p + 1)))

/-- `NULL` (40 R113). -/
def execNull (s : State) : Answer := nullStep s

/-- `OPT_TIME` (40 R114, 30 R90): the presence byte selects the time frame or the null marker. -/
def execOptTime (t : Option (List Byte)) (s : State) : Answer :=
  match t with
  | none => nullStep s
  | some payload => timeStep payload s

end Sys2Proof.Machine
end

