-- ==== Sys2Proof/Machine/Dispatch.lean ====
section
/-! DEFINITION. One arm per row of opcode_table.json. -/

namespace Sys2Proof.Machine

def exec (i : Instr) (s : State) : Host.Outcome State Fault Refusal :=
  match i with
  | .check => Sys2Proof.Machine.execCheck s
  | .parse => Sys2Proof.Machine.execParse s
  | .start => Sys2Proof.Machine.execStart s
  | .flen v => Sys2Proof.Machine.execFlen v s
  | .typePing => Sys2Proof.Machine.execTypePing s
  | .typeAuthenticate => Sys2Proof.Machine.execTypeAuthenticate s
  | .typeSuccess => Sys2Proof.Machine.execTypeSuccess s
  | .typeFail => Sys2Proof.Machine.execTypeFail s
  | .typeSet => Sys2Proof.Machine.execTypeSet s
  | .typeGet => Sys2Proof.Machine.execTypeGet s
  | .typeDelete => Sys2Proof.Machine.execTypeDelete s
  | .typeInvalid b => Sys2Proof.Machine.execTypeInvalid b s
  | .str payload => Sys2Proof.Machine.execStr payload s
  | .time payload => Sys2Proof.Machine.execTime payload s
  | .null => Sys2Proof.Machine.execNull s
  | .optTime t => Sys2Proof.Machine.execOptTime t s

end Sys2Proof.Machine
end

