-- ==== Sys2Proof/Machine/Fetch.lean ====
section
/-! DEFINITION. Fetching an instruction (spec 41 R140): the command the host issued, or the frame at the cursor for the
grammar position; and placing a table word where the next step fetches. -/

namespace Sys2Proof.Machine

/-- The instruction of a command input (41 R144, R145). -/
def commandInstr : Command → Instr
  | .check => .check
  | .parse => .parse

/-- What a fetch inside a walk comes to: an instruction to run, or the end of the walk. -/
inductive Fetched where
  | run (i : Instr)
  | ends (e : WalkEnd)
  deriving DecidableEq, Repr

/-- The frame at the cursor for the grammar position, or the end of the walk: complete at `G_DONE`, incomplete where a
byte is missing, invalid where a byte violates the grammar (41 R140). -/
def fetch (s : State) : Fetched :=
  if s.regs.g = .done then .ends (.complete s.regs)
  else
    match decodeAt s.cfg s.window s.regs.g s.regs.p with
    | .ok i _ => .run i
    | .incomplete => .ends .incomplete
    | .invalid e => .ends (.invalid e)

/-- The end of a walk found by the fetch. A position that reads no tag has no frame to end at (30 R86). -/
def endFetched (s : State) (e : WalkEnd) : Answer :=
  requireCfg s
    (if s.regs.g.legal = [] ∧ s.regs.g ≠ .done then .refused .notATagPosition else endWalk s e)

/-- Place a table word where the next step fetches: a command word as the operation issued, a frame's bytes as the
window of a walk whose cursor stands at it, at a position that accepts its tag. -/
def placeWord (s : State) (nbits w : Nat) : State :=
  match tableCommand s.cfg nbits w with
  | some .parse => { s with op := .parse, phase := .command }
  | some _ => { s with op := .check, phase := .command }
  | none =>
    let bs := tableBytes s.cfg nbits w
    { s with
      op := .check
      buffer := Memory.ofBytes bs
      regs := { Walk.init with g := entryPosOf s.cfg bs }
      phase := .walking }

end Sys2Proof.Machine
end

