-- ==== Sys2Proof/Machine/Step.lean ====
section
/-! DEFINITION. One step: the move of whoever `phase` says moves next. -/

namespace Sys2Proof.Machine

/-- One step of the machine. In the phases `command` and `walking` FPA runs an instruction; in the others the host
makes one move of its read loop (42 R171). -/
def step (s : State) : Host.Outcome State Fault Refusal :=
  match s.phase with
  | .command => exec (commandInstr s.op) s
  | .walking =>
    match fetch s with
    | .run i => exec i s
    | .ends e => endFetched s e
  | .idle => callRead s
  | .checked => actOnCheck s
  | .parsed => deliver s
  | .receiving => receive s
  | .stopped => .fault .connectionStopped

/-- The state with a table word placed where `step` fetches its next instruction (log 20). -/
def State.withFetchWord (s : State) (nbits w : Nat) : State := placeWord s nbits w

end Sys2Proof.Machine
end

