-- ==== Sys2Proof/Safety.lean ====
section
/-! DEFINITION. The terms in which claims speak: the primitives as one family, the rest of a walk from its registers,
the invariants of the registers and of the read loop, and the grammar of RFC 3339 texts (spec 40 R116 to R119, 41 R140,
70 R231, R241). -/

namespace Sys2Proof.Machine

/-- The Frame Parser primitives that return a frame (40 R104 to R114). -/
inductive Prim where
  | messageStart | frameLength | messageType
  | string (g : Pos) | time (g : Pos) | null (g : Pos) | optTime (g : Pos)
  deriving DecidableEq, Repr

/-- A primitive on a window at a cursor. -/
def Prim.run (c : Cfg) (w : List Byte) (p : Nat) : Prim → Res Frame
  | .messageStart => pMessageStart c w p
  | .frameLength => pFrameLength c w p
  | .messageType => pMessageType c w p
  | .string g => pString c w g p
  | .time g => pTime c w g p
  | .null g => pNull c w g p
  | .optTime g => pOptTime c w g p

/-- Appending bytes to the window changes no `Ok` and no `Invalid` (40 R117). -/
def StableUnderAppend {α : Type} (prim : List Byte → Nat → Res α) : Prop :=
  ∀ w x p,
    (∀ v p', prim w p = .ok v p' → prim (w ++ x) p = .ok v p') ∧
    (∀ e, prim w p = .invalid e → prim (w ++ x) p = .invalid e)

/-- The primitive the walk evaluates at a tag position (41 R140). -/
def primAt : Pos → Option Prim
  | .start => some .messageStart
  | .flenTag => some .frameLength
  | .typeTag => some .messageType
  | .pingClient => some (.optTime .pingClient)
  | .pingServer => some (.optTime .pingServer)
  | .authUser => some (.string .authUser)
  | .authPass => some (.string .authPass)
  | .flenValue | .typeCode | .done => none

/-- The consumed length of a complete walk. -/
def WalkEnd.consumed : WalkEnd → Option Nat
  | .complete r => some r.p
  | .incomplete | .invalid _ => none

/-- The same end of a walk with nothing materialised (10 R24). -/
def WalkEnd.withoutFrames : WalkEnd → WalkEnd
  | .complete r => .complete { r with acc := [] }
  | .incomplete => .incomplete
  | .invalid e => .invalid e

/-- What the host gets of an operation: its outputs, or how it stopped (10 R29, R37). -/
def outputsOf : Answer → Host.Outcome Output Fault Refusal
  | .next s => .next s.out
  | .fault f => .fault f
  | .refused r => .refused r

/-- How a check of the whole buffer ends. -/
def State.checkOf (s : State) : WalkEnd := walk s.cfg .check s.buffer.bytes

/-- The frames still to be read from the registers `r` on (41 R140, R141). -/
def Walk.resumeFrames (c : Cfg) (op : Command) (w : List Byte) (r : Walk) : Except WalkEnd Walk :=
  match r.g with
  | .start => do
    let r ← stepAt op .start (pMessageStart c w) r
    let r ← stepAt op .flenTag (pFrameLength c w) r
    let r ← stepAt op .typeTag (pMessageType c w) r
    walkPayload c op w r
  | .flenTag => do
    let r ← stepAt op .flenTag (pFrameLength c w) r
    let r ← stepAt op .typeTag (pMessageType c w) r
    walkPayload c op w r
  | .typeTag => do
    let r ← stepAt op .typeTag (pMessageType c w) r
    walkPayload c op w r
  | .pingClient => do
    let r ← stepAt op .pingClient (pOptTime c w .pingClient) r
    stepAt op .pingServer (pOptTime c w .pingServer) r
  | .pingServer => stepAt op .pingServer (pOptTime c w .pingServer) r
  | .authUser => do
    let r ← stepAt op .authUser (pString c w .authUser) r
    stepAt op .authPass (pString c w .authPass) r
  | .authPass => stepAt op .authPass (pString c w .authPass) r
  | .flenValue | .typeCode | .done => .ok r

/-- How the walk ends from the registers `r` on. -/
def Walk.resume (c : Cfg) (op : Command) (w : List Byte) (r : Walk) : WalkEnd :=
  match r.resumeFrames c op w with
  | .ok r => .complete { r with g := .done }
  | .error e => e

/-- The operation-local registers hold the values of 10 R38 whenever no walk is in progress (10 R21, 70 R231). -/
def State.RegistersDiscarded (s : State) : Prop := s.phase ≠ .walking → s.regs = Walk.init

/-- `PARSE` with this `n_in` meets its precondition (41 R145, 70 R241): the check of the buffer is complete at `n`, and
the `CHECK` that preceded confirmed exactly its first `n` bytes. -/
def State.Confirmed (s : State) (n : Nat) : Prop :=
  s.checkOf.consumed = some n ∧ s.confirmed = some (s.buffer.bytes.take n)

/-- The read loop's invariant (42 R171, 70 R240, R241): a `PARSE` is in progress only for the consumed length of a
complete check that the host issued on the same buffer; the outputs the host is about to act on are those of the buffer it holds; a walk in
progress is on its way to the operation's outcome; and the connection is stopped only after a fatal result. -/
def State.LoopInv (s : State) : Prop :=
  s.cfg.WF ∧
  match s.phase with
  | .idle => True
  | .command => s.op = .parse → s.Confirmed s.nIn
  | .walking =>
    (s.op = .parse → s.Confirmed s.nIn) ∧
    s.regs.g ≠ .flenValue ∧ s.regs.g ≠ .typeCode ∧
    s.regs.resume s.cfg s.op s.window = walk s.cfg s.op s.window
  | .checked => s.out = checkOutput s.checkOf ∧ ∀ n, s.out.consumed = some n → s.Confirmed n
  | .parsed =>
    match s.out with
    | .parsed n _ _ => s.Confirmed n
    | .none | .complete _ | .incomplete | .invalid _ => False
  | .receiving => s.checkOf = .incomplete
  | .stopped =>
    match s.result with
    | some r => r.fatal = true
    | none => False

/-- The frame an optional timestamp is materialised as (41 R152), none if its text is not accepted. -/
def optTimeFrame (c : Cfg) : Option (List Byte) → Option Frame
  | none => some .null
  | some s => (parseRfc3339 c s).map (.time s)

/-- The byte count of an optional timestamp can be declared (00 R12, R13). -/
def optCountOk (c : Cfg) : Option (List Byte) → Bool
  | none => true
  | some s => c.countOk s.length

/-! RFC 3339 texts (40 R116). -/

/-- `n` as exactly `w` ASCII digits. -/
def decimal : Nat → Nat → List Byte
  | 0, _ => []
  | w + 1, n => decimal w (n / 10) ++ [BitVec.ofNat 8 (0x30 + n % 10)]

/-- `time-offset`: `Z` or `z`, or a sign, hours and minutes. -/
inductive Zone where
  | utc (lower : Bool)
  | numeric (neg : Bool) (h m : Nat)
  deriving DecidableEq, Repr

/-- The parts of a `date-time`: the fraction's digits, none of them meaning no fraction. -/
structure DateTime where
  year : Nat
  month : Nat
  day : Nat
  lowerT : Bool
  hour : Nat
  minute : Nat
  second : Nat
  fraction : List (Fin 10)
  zone : Zone
  deriving DecidableEq, Repr

/-- The spelling of a zone. -/
def Zone.bytes : Zone → List Byte
  | .utc lower => [if lower then 0x7A#8 else 0x5A#8]
  | .numeric neg h m => [if neg then 0x2D#8 else 0x2B#8] ++ decimal 2 h ++ [0x3A#8] ++ decimal 2 m

/-- The ranges of a zone's parts. -/
def Zone.ok : Zone → Bool
  | .utc _ => true
  | .numeric _ h m => h ≤ 23 && m ≤ 59

/-- The offset of a zone in seconds. -/
def Zone.seconds : Zone → Int
  | .utc _ => 0
  | .numeric neg h m => (if neg then -1 else 1) * ((h : Int) * 3600 + (m : Int) * 60)

/-- The spelling of a date-time. -/
def DateTime.bytes (d : DateTime) : List Byte :=
  decimal 4 d.year ++ [0x2D#8] ++ decimal 2 d.month ++ [0x2D#8] ++ decimal 2 d.day ++
  [if d.lowerT then 0x74#8 else 0x54#8] ++
  decimal 2 d.hour ++ [0x3A#8] ++ decimal 2 d.minute ++ [0x3A#8] ++ decimal 2 d.second ++
  (if d.fraction = [] then [] else 0x2E#8 :: d.fraction.map fun k => BitVec.ofNat 8 (0x30 + k.val)) ++
  d.zone.bytes

/-- The ranges of a date-time's parts. -/
def DateTime.ok (d : DateTime) : Bool :=
  d.year ≤ 9999 && 1 ≤ d.month && d.month ≤ 12 && 1 ≤ d.day && d.day ≤ daysInMonth d.year d.month &&
  d.hour ≤ 23 && d.minute ≤ 59 && d.second ≤ 60 && d.zone.ok

/-- The fraction in nanoseconds: its first nine digits, missing ones read as zero. -/
def DateTime.fractionNanos (d : DateTime) : Nat :=
  ((d.fraction.map Fin.val ++ List.replicate 9 0).take 9).foldl (fun a k => a * 10 + k) 0

/-- The instant of a date-time. -/
def DateTime.instant (d : DateTime) : Instant where
  secs := daysFromCivil d.year d.month d.day * 86400 + d.hour * 3600 + d.minute * 60 +
    (if d.second = 60 then 59 else d.second : Nat) - d.zone.seconds
  nanos := Fin.ofNat 2000000000 (d.fractionNanos + if d.second = 60 then 1000000000 else 0)
  offset := d.zone.seconds

end Sys2Proof.Machine
end

