-- ==== Sys2Proof/Certificates/Slice0/Obligations.lean ====
section
/-! DEFINITION. The statements for the provers, in the order of OBLIGATIONS.json. -/

open Sys2Proof Sys2Proof.Machine

/-! Reset. -/

/-- R38, R231: what reset leaves in FPA's registers and outputs and in the host's buffer and sink; and an operation,
when the host issues it, starts from the same register values. -/
def Obligations.ResetAndStartValues : Prop :=
  State.reset.regs = { p := 0, g := .start, acc := [], mt := none, flen := none } ∧
  State.reset.out = .none ∧ State.reset.buffer = [] ∧ State.reset.sink = [] ∧ State.reset.sinkFlushed = false ∧
  ∀ (s : State) (op : Command) (n : Nat),
    (s.issue op n).regs = { p := 0, g := .start, acc := [], mt := none, flen := none } ∧
    (s.issue op n).out.status = none ∧ (s.issue op n).out.consumed = none ∧ (s.issue op n).out.err = none ∧
    (s.issue op n).out.frames = none ∧ (s.issue op n).out.msgType = none

/-- The model's choice of reset configuration (log 1) meets the constraints of R233, and the read loop's invariant,
the register invariant and the canonical memory hold at reset; no `CHECK` has confirmed a message (log 31). -/
def Obligations.ResetMeetsInvariants : Prop :=
  State.reset.LoopInv ∧ State.reset.RegistersDiscarded ∧ State.reset.buffer.wf = true ∧
  State.reset.confirmed = none

/-! Frame Parser primitives. -/

/-- R100: `P_TAG`. -/
def Obligations.TagMatchOutcomes : Prop :=
  ∀ (c : Cfg) (w : List Byte) (t : Tag) (g : Pos) (p : Nat),
    (pTag c w t g p = .incomplete ↔ w.length ≤ p) ∧
    (w[p]? = some (c.tag t) → pTag c w t g p = .ok () (p + 1)) ∧
    (∀ b, w[p]? = some b → b ≠ c.tag t →
      pTag c w t g p = .invalid { cause := .badTag, offset := p, expected := .tags [t] g, got := some b }) ∧
    (c.WF → pTag c [c.tagNull] .messageStart g 0 =
      .invalid { cause := .badTag, offset := 0, expected := .tags [.messageStart] g, got := some c.tagNull })

/-- R101, R103, R78: `P_U64` reads 8 bytes as an unsigned big-endian value, is `Incomplete` when fewer remain, and is
never `Invalid`; the 8-byte spelling of a value reads back as the value, and every 8 bytes are the spelling of what
they read as. -/
def Obligations.LengthFieldIsBigEndian : Prop :=
  ∀ (w : List Byte) (p : Nat),
    (w.length < p + 8 → pU64 w p = .incomplete) ∧
    (∀ b0 b1 b2 b3 b4 b5 b6 b7 : Byte, slice w p (p + 8) = [b0, b1, b2, b3, b4, b5, b6, b7] →
      ∃ v : U64, pU64 w p = .ok v (p + 8) ∧
        v.toNat = b0.toNat * 2 ^ 56 + b1.toNat * 2 ^ 48 + b2.toNat * 2 ^ 40 + b3.toNat * 2 ^ 32 +
          b4.toNat * 2 ^ 24 + b5.toNat * 2 ^ 16 + b6.toNat * 2 ^ 8 + b7.toNat) ∧
    (p + 8 ≤ w.length → ∃ v, pU64 w p = .ok v (p + 8)) ∧
    (∀ e, pU64 w p ≠ .invalid e) ∧
    (∀ v : U64, be64 (bytes64 v) = v) ∧ (∀ s : List Byte, s.length = 8 → bytes64 (be64 s) = s)

/-- R106, R31: the byte-to-type conversion is the partial inverse of the code parameters. -/
def Obligations.TypeCodeConversion : Prop :=
  ∀ (c : Cfg), c.WF → ∀ b : Byte,
    (∀ t, decodeType c b = some t ↔ c.code t = b) ∧ (decodeType c b = none ↔ ∀ t, c.code t ≠ b)

/-- R108 (the spec's own reading, D10): the delimiter is compared byte by byte as the bytes are present. -/
def Obligations.DelimiterOutcomes : Prop :=
  ∀ (c : Cfg) (w : List Byte) (g : Pos) (q : Nat),
    (pDelim c w g q = .ok () (q + c.delim.length) ↔ ∀ i < c.delim.length, w[q + i]? = c.delim[i]?) ∧
    (∀ i d b, c.delim[i]? = some d → w[q + i]? = some b → b ≠ d →
      (∀ j < i, w[q + j]? = c.delim[j]?) →
      pDelim c w g q =
        .invalid { cause := .delimMismatch, offset := q + i, expected := .delimByte d g, got := some b }) ∧
    (∀ i < c.delim.length, w.length ≤ q + i → (∀ j < i, w[q + j]? = c.delim[j]?) →
      pDelim c w g q = .incomplete)

/-- R109, R79: the body of a string or time frame ends where its count says, whatever bytes the payload holds. -/
def Obligations.BodyEndsByCount : Prop :=
  ∀ (c : Cfg) (pre payload tail : List Byte) (g : Pos), c.countOk payload.length = true →
    pBody c (pre ++ encodeBody c payload ++ tail) g pre.length =
      .ok (payload, pre.length + 8) (pre.length + 8 + payload.length + c.delim.length)

/-- R110 (the table is the spec's from general knowledge, log 28): `UTF8_OK` holds exactly of the concatenations of
sequences that match a row of the table; hence `C0`, `C1` and `F5..FF` never occur. -/
def Obligations.Utf8IsConcatenationOfRows : Prop :=
  ∀ s : List Byte,
    (utf8Ok s = true ↔
      ∃ parts : List (List Byte), parts.flatten = s ∧
        ∀ x ∈ parts, ∃ row ∈ utf8Rows, x.length = row.2.length + 1 ∧
          ∀ (k : Nat) (r : Nat × Nat), (row.1 :: row.2)[k]? = some r → ∃ b, x[k]? = some b ∧ r.1 ≤ b.toNat ∧ b.toNat ≤ r.2) ∧
    (utf8Ok s = true → ∀ b ∈ s, b ≠ 0xC0#8 ∧ b ≠ 0xC1#8 ∧ b.toNat < 0xF5)

/-- R116 (the spec's default, from general knowledge, log 28): the reference parser accepts exactly the spellings of
the grammar and gives each its instant. -/
def Obligations.ReferenceTimesExact : Prop :=
  ∀ (s : List Byte) (i : Instant),
    referenceRfc3339 s = some i ↔ ∃ d : DateTime, d.ok = true ∧ d.bytes = s ∧ d.instant = i

/-- R116 (log 28): `days_from_civil` is 0 on 1970-01-01 and grows by one from each valid date to the next, over the
ends of months and years; February has 29 days exactly in the years the rule names. -/
def Obligations.CivilDaysCountDays : Prop :=
  daysFromCivil 1970 1 1 = 0 ∧
  (∀ y, daysInMonth y 2 = if (4 ∣ y ∧ ¬ 100 ∣ y) ∨ 400 ∣ y then 29 else 28) ∧
  (∀ y m d, 1 ≤ d → daysFromCivil y m (d + 1) = daysFromCivil y m d + 1) ∧
  (∀ y m, 1 ≤ m → m < 12 → daysFromCivil y (m + 1) 1 = daysFromCivil y m (daysInMonth y m) + 1) ∧
  (∀ y, daysFromCivil (y + 1) 1 1 = daysFromCivil y 12 31 + 1)

/-- Appending bytes changes only `Incomplete`, for every primitive (the spec's own derivation R117). -/
def Obligations.PrimitivesStableUnderAppend : Prop :=
  ∀ c : Cfg,
    (∀ t g, StableUnderAppend fun w p => pTag c w t g p) ∧
    (StableUnderAppend fun w p => pU64 w p) ∧
    (∀ g, StableUnderAppend fun w p => pDelim c w g p) ∧
    (∀ g, StableUnderAppend fun w p => pBody c w g p) ∧
    (∀ k : Prim, StableUnderAppend fun w p => k.run c w p)

/-- `Incomplete` means missing bytes (the spec's own derivation R118): with enough bytes present no primitive is
incomplete, so every incomplete window has an extension that decides. -/
def Obligations.IncompleteMeansMissingBytes : Prop :=
  ∀ (c : Cfg) (k : Prim) (p : Nat),
    (∀ w : List Byte, p + 9 + 2 ^ 64 + c.delim.length ≤ w.length → k.run c w p ≠ .incomplete) ∧
    (∀ w : List Byte, k.run c w p = .incomplete → ∃ x, k.run c (w ++ x) p ≠ .incomplete)

/-- An `Ok` consumed exactly the encoding of the frame it returns (the spec's own derivation R119). -/
def Obligations.OkConsumesExactEncoding : Prop :=
  ∀ (c : Cfg) (k : Prim) (w : List Byte) (p p' : Nat) (f : Frame), k.run c w p = .ok f p' →
    p < p' ∧ p' ≤ w.length ∧ slice w p p' = encodeFrame c f ∧ p' = p + (encodeFrame c f).length

/-- R205, D9: the order of checks within a string or time frame: a tag byte that differs is `BAD_TAG` whatever follows; an
oversized count is reported before any payload byte is needed; a missing payload byte makes the frame incomplete; then
the delimiter is judged before the content: whatever the payload, the first delimiter byte that is present and differs
is `DELIM_MISMATCH`, and a delimiter that matches but is unfinished makes the frame incomplete; and only then is
ill-formed content reported. -/
def Obligations.ChecksWithinFrameInOrder : Prop :=
  ∀ (c : Cfg) (pre rest : List Byte) (n : U64) (g : Pos),
    (∀ m, c.maxDeclaredLen = some m → m < n.toNat →
      pBody c (pre ++ bytes64 n ++ rest) g pre.length =
        .invalid { cause := .oversize, offset := pre.length, expected := .position g, got := none }) ∧
    ((∀ m, c.maxDeclaredLen = some m → n.toNat ≤ m) → rest.length < n.toNat →
      pBody c (pre ++ bytes64 n ++ rest) g pre.length = .incomplete) ∧
    ∀ (k : Prim) (t : Tag) (bad : Cause) (wellFormed : List Byte → Bool),
      (k, t, bad, wellFormed) ∈ [(Prim.string g, Tag.string, Cause.invalidUtf8, utf8Ok),
        (.time g, .time, .invalidTimestamp, fun x => (parseRfc3339 c x).isSome)] →
      (∀ b, b ≠ c.tag t → k.run c (pre ++ b :: rest) pre.length =
        .invalid { cause := .badTag, offset := pre.length, expected := .tags [t] g, got := some b }) ∧
      (∀ m, c.maxDeclaredLen = some m → m < n.toNat →
        k.run c (pre ++ c.tag t :: bytes64 n ++ rest) pre.length =
          .invalid { cause := .oversize, offset := pre.length + 1, expected := .position g, got := none }) ∧
      ((∀ m, c.maxDeclaredLen = some m → n.toNat ≤ m) →
        (rest.length < n.toNat → k.run c (pre ++ c.tag t :: bytes64 n ++ rest) pre.length = .incomplete) ∧
        ∀ payload : List Byte, payload.length = n.toNat →
          (∀ i d b, c.delim[i]? = some d → b ≠ d →
            k.run c (pre ++ c.tag t :: bytes64 n ++ payload ++ c.delim.take i ++ b :: rest) pre.length =
              .invalid { cause := .delimMismatch, offset := pre.length + 9 + payload.length + i,
                         expected := .delimByte d g, got := some b }) ∧
          (∀ i < c.delim.length,
            k.run c (pre ++ c.tag t :: bytes64 n ++ payload ++ c.delim.take i) pre.length = .incomplete) ∧
          (wellFormed payload = false →
            k.run c (pre ++ c.tag t :: bytes64 n ++ payload ++ c.delim ++ rest) pre.length =
              .invalid { cause := bad, offset := pre.length + 9, expected := .position g, got := none }))

/-! Encoding. -/

/-- R71, R81, R86, R89, R90, R103: every well-formed frame's encoding decodes to it (the pseudo-frame to what it
expands to), at every position that accepts its tag, at every cursor and whatever follows. -/
def Obligations.DecodeEncodeRoundTrip : Prop :=
  ∀ (c : Cfg) (i : Instr) (t : Tag) (g : Pos) (pre tail : List Byte), c.WF → i.wf c = true →
    i.tag? = some t → t ∈ g.legal →
    decodeAt c (pre ++ encode c i ++ tail) g pre.length = .ok i.expand (pre.length + i.size c)

/-- The other direction: what the decoder accepts is the encoding of the well-formed instruction it gives. -/
def Obligations.DecodedBytesAreItsEncoding : Prop :=
  ∀ (c : Cfg) (w : List Byte) (g : Pos) (p p' : Nat) (i : Instr), decodeAt c w g p = .ok i p' →
    slice w p p' = encode c i ∧ p' = p + i.size c ∧ i.wf c = true ∧ ∃ t ∈ g.legal, i.tag? = some t

/-- R71, R81, R89: words written out from the encoding table under the test configuration of D23, and the two command
codes of D1. -/
def Obligations.SampleWordsDecode : Prop :=
  decodeTableWord 8 0x00 = some .check ∧ decodeTableWord 8 0x01 = some .parse ∧
  decodeTableWord 8 0x2A = some .start ∧ decodeTableWord 72 0x27000000000000003A = some (.flen 39#64) ∧
  decodeTableWord 16 0x0123 = some .typePing ∧ decodeTableWord 16 0x0823 = some (.typeInvalid 0x08#8) ∧
  decodeTableWord 96 0x0A0D6101000000000000002B = some (.str [0x61#8]) ∧
  decodeTableWord 88 0x0A0D000000000000000054 = some (.time []) ∧ decodeTableWord 8 0x7C = some .null

/-! Steps. -/

/-- A step in the phases in which FPA runs is `exec` of the fetched instruction: the issued command, or the frame that
the bytes at the cursor decode to (nothing is added around it). -/
def Obligations.StepRunsDecodedInstruction : Prop :=
  (∀ s : State, s.phase = .command → s.op = .check → step s = exec .check s) ∧
  (∀ s : State, s.phase = .command → s.op = .parse → step s = exec .parse s) ∧
  (∀ (s : State) (i : Instr) (p' : Nat), s.phase = .walking →
    decodeAt s.cfg s.window s.regs.g s.regs.p = .ok i p' → step s = exec i s)

/-- R140: inside a walk, fetching a frame and executing it is the `STEP` of the walk: the primitive of the position
evaluated at the cursor, and for a reserved type the type dispatch after it. -/
def Obligations.FrameStepIsPrimitiveStep : Prop :=
  ∀ (s : State) (k : Prim), s.phase = .walking → s.cfg.WF → primAt s.regs.g = some k →
    step s =
      match k.run s.cfg s.window s.regs.p with
      | .ok (.messageType t) p' =>
        if reservedType t then raiseInvalid s (notImplemented (p' - 1) (s.window[p' - 1]?))
        else .next (s.takeFrame (.messageType t) p')
      | .ok f p' => .next (s.takeFrame f p')
      | .incomplete => endWalk s .incomplete
      | .invalid e => endWalk s (.invalid e)

/-- R20, R140, R150: running an operation one `STEP` a step, from the registers of R38, takes at most five frames and
the end of the walk, and comes to exactly what the operation as one transaction comes to (the two granularities are
the model's, log 4). -/
def Obligations.StepwiseEqualsTransaction : Prop :=
  ∀ s : State, s.phase = .walking → s.regs = Walk.init → s.cfg.WF →
    (s.op = .check → ∃ n ≤ 6, Sys2Proof.core.run n s = exec .check s) ∧
    (s.op = .parse → ∃ n ≤ 6, Sys2Proof.core.run n s = exec .parse s)

/-! The frames' effects. -/

/-- R104, R105, R107, R142: `START`, `FLEN v`, `TYPE Ping` and `TYPE Authenticate` where they stand: the cursor passes
the frame, the next position follows, the frame is appended under `PARSE` only, the latches are set; nothing else
changes. -/
def Obligations.HeaderFramesComplete : Prop :=
  ∀ s : State, s.cfg.WF →
    (s.regs.g = .start →
      exec .start s = .next { s with
        regs := { p := s.regs.p + 1, g := .flenTag,
                  acc := if s.op = .parse then s.regs.acc ++ [.messageStart] else s.regs.acc,
                  mt := s.regs.mt, flen := s.regs.flen } }) ∧
    (∀ v : U64, s.regs.g = .flenTag → (∀ m, s.cfg.maxDeclaredLen = some m → v.toNat ≤ m) →
      exec (.flen v) s = .next { s with
        regs := { p := s.regs.p + 9, g := .typeTag,
                  acc := if s.op = .parse then s.regs.acc ++ [.length v] else s.regs.acc,
                  mt := s.regs.mt, flen := some v } }) ∧
    (s.regs.g = .typeTag →
      exec .typePing s = .next { s with
        regs := { p := s.regs.p + 2, g := .pingClient,
                  acc := if s.op = .parse then s.regs.acc ++ [.messageType .ping] else s.regs.acc,
                  mt := some .ping, flen := s.regs.flen } } ∧
      exec .typeAuthenticate s = .next { s with
        regs := { p := s.regs.p + 2, g := .authUser,
                  acc := if s.op = .parse then s.regs.acc ++ [.messageType .authenticate] else s.regs.acc,
                  mt := some .authenticate, flen := s.regs.flen } })

/-- R142, R84, R203: each reserved type, under `CHECK`, ends the walk `INVALID(NOT_IMPLEMENTED)` at the code byte,
which is reported; nothing else is written, but that the check has confirmed nothing (the model's record, log 31). Under
`PARSE` the same walk end is the model fault of R145. -/
def Obligations.ReservedTypesNotImplemented : Prop :=
  ∀ (s : State) (i : Instr) (t : MessageType), s.cfg.WF → s.regs.g = .typeTag →
    (i, t) ∈ [(Instr.typeSuccess, MessageType.success), (.typeFail, .fail), (.typeSet, .set), (.typeGet, .get),
      (.typeDelete, .delete)] →
    (s.op = .check →
      exec i s = .next { s with
        out := .invalid { cause := .notImplemented, offset := s.regs.p + 1, expected := .position .typeCode,
                          got := some (s.cfg.code t) }
        confirmed := none
        regs := Walk.init
        phase := .checked }) ∧
    (s.op = .parse → exec i s = .fault .parsePrecondition)

/-- R107, R87: a code byte that is none of the seven codes, under `CHECK`, ends the walk
`INVALID(INVALID_MESSAGE_TYPE)` at the code byte and has confirmed nothing (log 31). Under `PARSE` the same walk end is
the model fault of R145. -/
def Obligations.UnknownCodeInvalid : Prop :=
  ∀ (s : State) (b : Byte), s.cfg.WF → s.regs.g = .typeTag → (∀ t, s.cfg.code t ≠ b) →
    (s.op = .check →
      exec (.typeInvalid b) s = .next { s with
        out := .invalid { cause := .invalidMessageType, offset := s.regs.p + 1, expected := .position .typeCode,
                          got := some b }
        confirmed := none
        regs := Walk.init
        phase := .checked }) ∧
    (s.op = .parse → exec (.typeInvalid b) s = .fault .parsePrecondition)

/-- R111, R119: a string frame with well-formed content, at either position of the Authenticate grammar. -/
def Obligations.StringFrameCompletes : Prop :=
  ∀ (s : State) (x : List Byte), s.cfg.WF → utf8Ok x = true →
    (∀ m, s.cfg.maxDeclaredLen = some m → x.length ≤ m) →
    (s.regs.g = .authUser →
      exec (.str x) s = .next { s with
        regs := { p := s.regs.p + (9 + x.length + s.cfg.delim.length), g := .authPass,
                  acc := if s.op = .parse then s.regs.acc ++ [.string x] else s.regs.acc,
                  mt := s.regs.mt, flen := s.regs.flen } }) ∧
    (s.regs.g = .authPass →
      exec (.str x) s = .next { s with
        regs := { p := s.regs.p + (9 + x.length + s.cfg.delim.length), g := .done,
                  acc := if s.op = .parse then s.regs.acc ++ [.string x] else s.regs.acc,
                  mt := s.regs.mt, flen := s.regs.flen } })

/-- R112, R114, R119: a time frame whose text the configured parser accepts, and the optional timestamp that it is, at
either position of the Ping grammar. -/
def Obligations.TimeFrameCompletes : Prop :=
  ∀ (s : State) (x : List Byte) (i : Instant) (g' : Pos), s.cfg.WF → parseRfc3339 s.cfg x = some i →
    (∀ m, s.cfg.maxDeclaredLen = some m → x.length ≤ m) →
    (s.regs.g, g') ∈ [(Pos.pingClient, Pos.pingServer), (.pingServer, .done)] →
    exec (.time x) s = .next { s with
      regs := { p := s.regs.p + (9 + x.length + s.cfg.delim.length), g := g',
                acc := if s.op = .parse then s.regs.acc ++ [.time x i] else s.regs.acc,
                mt := s.regs.mt, flen := s.regs.flen } } ∧
    exec (.optTime (some x)) s = .next { s with
      regs := { p := s.regs.p + (9 + x.length + s.cfg.delim.length), g := g',
                acc := if s.op = .parse then s.regs.acc ++ [.time x i] else s.regs.acc,
                mt := s.regs.mt, flen := s.regs.flen } }

/-- R113, R114: the null marker, and the absent optional timestamp that it is. -/
def Obligations.NullMarkerCompletes : Prop :=
  ∀ (s : State) (g' : Pos), s.cfg.WF →
    (s.regs.g, g') ∈ [(Pos.pingClient, Pos.pingServer), (.pingServer, .done)] →
    exec .null s = .next { s with
      regs := { p := s.regs.p + 1, g := g',
                acc := if s.op = .parse then s.regs.acc ++ [.null] else s.regs.acc,
                mt := s.regs.mt, flen := s.regs.flen } } ∧
    exec (.optTime none) s = .next { s with
      regs := { p := s.regs.p + 1, g := g',
                acc := if s.op = .parse then s.regs.acc ++ [.null] else s.regs.acc,
                mt := s.regs.mt, flen := s.regs.flen } }

/-- R111, R112, D25: ill-formed content of a complete frame, under `CHECK`: `INVALID_UTF8` for a string and
`INVALID_TIMESTAMP` for a time, at the first payload byte; the check has confirmed nothing (log 31). -/
def Obligations.ContentErrorsRaised : Prop :=
  ∀ (s : State) (x : List Byte), s.cfg.WF → s.op = .check →
    (∀ m, s.cfg.maxDeclaredLen = some m → x.length ≤ m) →
    (s.regs.g = .authUser ∨ s.regs.g = .authPass → utf8Ok x = false →
      exec (.str x) s = .next { s with
        out := .invalid { cause := .invalidUtf8, offset := s.regs.p + 9, expected := .position s.regs.g, got := none }
        confirmed := none
        regs := Walk.init
        phase := .checked }) ∧
    (s.regs.g = .pingClient ∨ s.regs.g = .pingServer → parseRfc3339 s.cfg x = none →
      exec (.time x) s = .next { s with
        out := .invalid { cause := .invalidTimestamp, offset := s.regs.p + 9, expected := .position s.regs.g,
                          got := none }
        confirmed := none
        regs := Walk.init
        phase := .checked } ∧
      exec (.optTime (some x)) s = exec (.time x) s)

/-- R102, R202: with a limit set, a greater declared length is `OVERSIZE` at the first byte of its length field, for
the frame-length value and for the counts of string and time frames, under `CHECK`, which has confirmed nothing
(log 31). -/
def Obligations.OversizeRaised : Prop :=
  ∀ (s : State) (m : Nat), s.cfg.WF → s.op = .check → s.cfg.maxDeclaredLen = some m →
    (∀ v : U64, s.regs.g = .flenTag → m < v.toNat →
      exec (.flen v) s = .next { s with
        out := .invalid { cause := .oversize, offset := s.regs.p + 1, expected := .position .flenValue, got := none }
        confirmed := none
        regs := Walk.init
        phase := .checked }) ∧
    (∀ (i : Instr) (x : List Byte), m < x.length →
      (i = .str x ∧ (s.regs.g = .authUser ∨ s.regs.g = .authPass)) ∨
        ((i = .time x ∨ i = .optTime (some x)) ∧ (s.regs.g = .pingClient ∨ s.regs.g = .pingServer)) →
      exec i s = .next { s with
        out := .invalid { cause := .oversize, offset := s.regs.p + 1, expected := .position s.regs.g, got := none }
        confirmed := none
        regs := Walk.init
        phase := .checked })

/-- R86, R87: a frame whose tag is outside the position's legal set is `BAD_TAG` at its tag byte, whatever else the
frame holds, and a check has confirmed nothing (log 31); under `PARSE` the same walk end is the model fault of R145. -/
def Obligations.WrongTagRaisesBadTag : Prop :=
  ∀ (s : State) (i : Instr) (t : Tag), s.cfg.WF → i.tag? = some t → s.regs.g.legal ≠ [] → t ∉ s.regs.g.legal →
    (s.op = .check →
      exec i s = .next { s with
        out := .invalid { cause := .badTag, offset := s.regs.p, expected := .tags s.regs.g.legal s.regs.g,
                          got := some (s.cfg.tag t) }
        confirmed := none
        regs := Walk.init
        phase := .checked }) ∧
    (s.op = .parse → exec i s = .fault .parsePrecondition)

/-- R87: at a tag position every byte outside the position's legal set makes the step of a check return
`INVALID(BAD_TAG)`; at `G_TYPE_CODE` every byte that is none of the seven codes makes it return
`INVALID(INVALID_MESSAGE_TYPE)`. -/
def Obligations.IllegalEncodingsInvalid : Prop :=
  ∀ (s : State) (b : Byte), s.phase = .walking → s.op = .check → s.cfg.WF →
    (s.window[s.regs.p]? = some b → s.regs.g.legal ≠ [] → (∀ t ∈ s.regs.g.legal, s.cfg.tag t ≠ b) →
      ∃ t, step s = .next t ∧ t.out = .invalid
        { cause := .badTag, offset := s.regs.p, expected := .tags s.regs.g.legal s.regs.g, got := some b }) ∧
    (s.regs.g = .typeTag → s.window[s.regs.p]? = some s.cfg.tagMessageType →
      s.window[s.regs.p + 1]? = some b → (∀ t, s.cfg.code t ≠ b) →
      ∃ t, step s = .next t ∧ t.out = .invalid
        { cause := .invalidMessageType, offset := s.regs.p + 1, expected := .position .typeCode, got := some b })

/-- The model's refusals: no instruction runs under a configuration that breaks R233 (R232, log 2), and no frame runs
at a position that reads no tag (R86, log 19). -/
def Obligations.RefusalsByName : Prop :=
  ∀ (i : Instr) (s : State),
    (¬ s.cfg.WF → exec i s = .refused .badConfiguration) ∧
    (s.cfg.WF → s.regs.g.legal = [] → i.tag? ≠ none → exec i s = .refused .notATagPosition)

/-! The commands. -/

/-- R144, R20, R29: `CHECK` answers a next state in every state with a well-formed configuration: the outputs of one
walk of the window from the registers of R38 (`COMPLETE` with the consumed length, `INCOMPLETE`, or `INVALID` with the
error record), no frames, registers discarded, control at the host; the bytes it confirmed, if complete, are kept for
`PARSE`'s precondition (R241; the model's own record, log 31); nothing else changes. -/
def Obligations.CheckReturnsOutcome : Prop :=
  ∀ s : State, s.cfg.WF →
    ∃ t, exec .check s = .next t ∧
      t = { s with op := .check, out := t.out, confirmed := t.out.consumed.map fun n => s.buffer.bytes.take n,
                   regs := Walk.init, phase := .checked } ∧
      t.out.frames = none ∧ t.out.msgType = none ∧
      (∀ r, walk s.cfg .check s.buffer.bytes = .complete r → t.out = .complete r.p) ∧
      (walk s.cfg .check s.buffer.bytes = .incomplete → t.out = .incomplete) ∧
      (∀ e, walk s.cfg .check s.buffer.bytes = .invalid e → t.out = .invalid e)

/-- R145, R146, R241: `PARSE` with the consumed length of a complete check of the same buffer, whose first `n_in` bytes
are those that a `CHECK` issued before confirmed, answers a next state: the frames of the walk of the first `n_in` bytes
and the message type; nothing else changes. -/
def Obligations.ParseReturnsFrames : Prop :=
  ∀ (s : State) (r : Walk), s.cfg.WF → walk s.cfg .check s.buffer.bytes = .complete r → r.p = s.nIn →
    s.confirmed = some (s.buffer.bytes.take s.nIn) →
    ∃ fs t, r.mt = some t ∧
      walk s.cfg .parse (s.buffer.bytes.take s.nIn) = .complete { r with acc := fs } ∧
      exec .parse s = .next { s with
        op := .parse, out := .parsed s.nIn fs t, regs := Walk.init, phase := .parsed }

/-- R145, R204, R241 (the spec's own decision D18): `PARSE` faults with `PARSE_PRECONDITION` exactly when the `CHECK`
before it did not confirm the first `n_in` bytes as they now stand (no complete `CHECK`, another `n_in`, changed bytes),
or the walk of these bytes is not complete at `n_in`. How the model keeps what a `CHECK` confirmed is log 31. -/
def Obligations.ParsePreconditionFault : Prop :=
  ∀ s : State, s.cfg.WF →
    (exec .parse s = .fault .parsePrecondition ↔
      s.confirmed ≠ some (s.buffer.bytes.take s.nIn) ∨
        (walk s.cfg .parse (s.buffer.bytes.take s.nIn)).consumed ≠ some s.nIn)

/-- R53, R30, R207: no instruction changes the configuration, the receive buffer (every address reads as before), the
inputs of the operation but its command, or anything of the host but that control is back at it; only a `CHECK` that
ends changes which bytes are confirmed (log 31), to those its outputs say. -/
def Obligations.InstructionFrame : Prop :=
  ∀ (i : Instr) (s t : State), exec i s = .next t →
    t.cfg = s.cfg ∧ (∀ a, t.buffer.read a = s.buffer.read a) ∧ t.buffer = s.buffer ∧ t.nIn = s.nIn ∧
    (t.op = s.op ∨ i = .check ∨ i = .parse) ∧ t.stepwise = s.stepwise ∧ t.sink = s.sink ∧
    t.sinkFlushed = s.sinkFlushed ∧ t.recvCap = s.recvCap ∧ t.bounded = s.bounded ∧ t.calls = s.calls ∧
    t.incoming = s.incoming ∧ t.draws = s.draws ∧ t.eof = s.eof ∧ t.result = s.result ∧
    (t.confirmed = s.confirmed ∨
      t.op = .check ∧ t.phase = .checked ∧ t.confirmed = t.out.consumed.map fun n => s.buffer.bytes.take n) ∧
    (t.phase = s.phase ∧ t.out = s.out ∨
      (t.phase = .checked ∨ t.phase = .parsed) ∧ t.regs = Walk.init ∧ t.out.status ≠ none)

/-- What an operation returns (the spec's own derivation R37) is a function of the configuration, the window and, for
`PARSE`, `n_in`: whatever else two states differ in (registers, outputs, phase, everything of the host), the same
inputs give the same outputs. Whether `PARSE` returns or is the model fault of a broken precondition, which is no outcome
(R204), depends beside them on what the `CHECK` before it confirmed, and on nothing more. -/
def Obligations.NothingPersists : Prop :=
  ∀ s s' : State, s'.cfg = s.cfg →
    (s'.buffer.bytes = s.buffer.bytes → outputsOf (exec .check s') = outputsOf (exec .check s)) ∧
    (s'.nIn = s.nIn → s'.buffer.bytes.take s.nIn = s.buffer.bytes.take s.nIn →
      (s'.confirmed = s.confirmed → outputsOf (exec .parse s') = outputsOf (exec .parse s)) ∧
      (exec .parse s ≠ .fault .parsePrecondition → exec .parse s' ≠ .fault .parsePrecondition →
        outputsOf (exec .parse s') = outputsOf (exec .parse s)))

/-! The walk. -/

/-- R143, R24: under `CHECK` and under `PARSE` a walk of the same window ends the same way, but that `CHECK`
materialises no frame. -/
def Obligations.CheckIsParseWithoutFrames : Prop :=
  ∀ (c : Cfg) (w : List Byte), walk c .check w = (walk c .parse w).withoutFrames

/-- R146: if a check is complete at `N`, the parse walk of the first `N` bytes is complete at `N`, with the same
latches. -/
def Obligations.PhasesAgree : Prop :=
  ∀ (c : Cfg) (w : List Byte) (r : Walk), walk c .check w = .complete r →
    ∃ fs, walk c .parse (w.take r.p) = .complete { r with acc := fs } ∧ r.p ≤ w.length ∧ r.mt ≠ none ∧
      r.flen ≠ none ∧ r.g = .done ∧ r.acc = []

/-- R82, R85, R90, R144, R145, R152: every Ping message walks to `COMPLETE` at its length, whatever frame-length value it
declares and whatever follows, with the frame list of R152; and it is `MSG_PING` exactly when the value is the message
length minus 10 (the spec's own encoder convention D24). -/
def Obligations.PingMessagesComplete : Prop :=
  ∀ (c : Cfg) (op : Command) (v : U64) (client server : Option (List Byte)) (cf sf : Frame) (tail : List Byte),
    c.WF → (∀ m, c.maxDeclaredLen = some m → v.toNat ≤ m) → optCountOk c client = true →
    optCountOk c server = true → optTimeFrame c client = some cf → optTimeFrame c server = some sf →
    walk c op (pingMessage c v client server ++ tail) = .complete
      { p := 12 + (Instr.optTime client).size c + (Instr.optTime server).size c
        g := .done
        acc := if op = .parse then [.messageStart, .length v, .messageType .ping, cf, sf] else []
        mt := some .ping
        flen := some v } ∧
    (pingMessage c v client server).length = 12 + (Instr.optTime client).size c + (Instr.optTime server).size c ∧
    (msgPing c client server = some (pingMessage c v client server) ↔
      v.toNat + 10 = (pingMessage c v client server).length)

/-- R83, R85, R79, R90, R144, R145, R152: every Authenticate message walks to `COMPLETE` at its length, whatever
frame-length value it declares, whatever bytes its well-formed strings hold and whatever follows; and it is `MSG_AUTH`
exactly when the value is the message length minus 10 (the spec's own encoder convention D24). -/
def Obligations.AuthMessagesComplete : Prop :=
  ∀ (c : Cfg) (op : Command) (v : U64) (user pass tail : List Byte),
    c.WF → (∀ m, c.maxDeclaredLen = some m → v.toNat ≤ m) → c.countOk user.length = true →
    c.countOk pass.length = true → utf8Ok user = true → utf8Ok pass = true →
    walk c op (authMessage c v user pass ++ tail) = .complete
      { p := 12 + (9 + user.length + c.delim.length) + (9 + pass.length + c.delim.length)
        g := .done
        acc := if op = .parse then
            [.messageStart, .length v, .messageType .authenticate, .string user, .string pass] else []
        mt := some .authenticate
        flen := some v } ∧
    (authMessage c v user pass).length =
      12 + (9 + user.length + c.delim.length) + (9 + pass.length + c.delim.length) ∧
    (msgAuth c user pass = some (authMessage c v user pass) ↔ v.toNat + 10 = (authMessage c v user pass).length)

/-- R147, R80, R82, R83: a complete walk consumed exactly the bytes of one Ping or Authenticate message with
acceptable content. -/
def Obligations.CompleteMeansOneMessage : Prop :=
  ∀ (c : Cfg) (w : List Byte) (r : Walk), walk c .parse w = .complete r →
    ∃ v : U64, r.flen = some v ∧ r.p ≤ w.length ∧
      ((∃ client server cf sf, r.mt = some .ping ∧ w.take r.p = pingMessage c v client server ∧
          optTimeFrame c client = some cf ∧ optTimeFrame c server = some sf ∧
          r.acc = [.messageStart, .length v, .messageType .ping, cf, sf]) ∨
       (∃ user pass, r.mt = some .authenticate ∧ w.take r.p = authMessage c v user pass ∧
          utf8Ok user = true ∧ utf8Ok pass = true ∧
          r.acc = [.messageStart, .length v, .messageType .authenticate, .string user, .string pass]))

/-- Appending bytes to a window changes only an incomplete outcome (the spec's own derivation R148). -/
def Obligations.WalkStableUnderAppend : Prop :=
  ∀ (c : Cfg) (op : Command) (w x : List Byte),
    (∀ r, walk c op w = .complete r → walk c op (w ++ x) = .complete r) ∧
    (∀ e, walk c op w = .invalid e → walk c op (w ++ x) = .invalid e)

/-- A complete walk (the spec's own derivations R147, R59) does not depend on the bytes at or after its consumed
length. -/
def Obligations.BytesPastMessageNotRead : Prop :=
  ∀ (c : Cfg) (op : Command) (w w' : List Byte) (r : Walk), walk c op w = .complete r →
    w'.take r.p = w.take r.p → walk c op w' = .complete r

/-- Every strict front part of a valid message is incomplete, and every extension of it is complete at its length (the
spec's own derivation R149). -/
def Obligations.FrontPartsIncomplete : Prop :=
  ∀ (c : Cfg) (m : List Byte) (r : Walk), walk c .check m = .complete r → r.p = m.length →
    (∀ k < m.length, walk c .check (m.take k) = .incomplete) ∧
    (∀ x, walk c .check (m ++ x) = .complete r)

/-- R105, R144, D5: with no limit set, the frame-length value does not affect the outcome of a check. -/
def Obligations.FrameLengthNotChecked : Prop :=
  ∀ (c : Cfg) (a x x' z : List Byte), c.maxDeclaredLen = none → a.length = 2 → x.length = 8 → x'.length = 8 →
    checkOutput (walk c .check (a ++ x ++ z)) = checkOutput (walk c .check (a ++ x' ++ z))

/-- R142, R84: a message of a reserved type is `INVALID(NOT_IMPLEMENTED)` at offset 11 as soon as its code byte is
there, whatever follows. -/
def Obligations.ReservedMessageInvalid : Prop :=
  ∀ (c : Cfg) (op : Command) (v : U64) (t : MessageType) (tail : List Byte), c.WF →
    (∀ m, c.maxDeclaredLen = some m → v.toNat ≤ m) →
    t ∈ [MessageType.success, .fail, .set, .get, .delete] →
    walk c op (encode c .start ++ encode c (.flen v) ++ encodeType c t ++ tail) =
      .invalid { cause := .notImplemented, offset := 11, expected := .position .typeCode, got := some (c.code t) }

/-! The host. -/

/-- R171 steps 1, 2, 3 and 5, R175, R177, R206: what the host does when the caller calls and with each status of a check.
A call issues `CHECK` on the unchanged buffer, clears the result, and is bounded exactly when the call taken is the
bounded-time one; the call taken is the first queued one or, when none is queued, a free draw (the model's way to hold
the caller's choices, log 16). -/
def Obligations.HostActsOnCheck : Prop :=
  ∀ s : State,
    (s.phase = .idle → ∃ t, step s = .next t ∧
      t = ({ s with calls := s.nextCall.2.calls, draws := s.nextCall.2.draws, bounded := t.bounded,
                    result := none }.issue .check 0) ∧
      t.op = .check ∧ t.buffer = s.buffer ∧ t.result = none ∧
      (t.bounded = true ↔ s.nextCall.1 = .readMessageWithTimeout)) ∧
    (∀ k ks, s.calls = k :: ks → s.nextCall = (k, { s with calls := ks })) ∧
    (s.calls = [] → s.nextCall = (Config.callDraw s.draws, { s with draws := s.draws + 1 })) ∧
    (s.phase = .checked →
      (∀ n, s.out = .complete n → step s = .next (s.issue .parse n)) ∧
      (s.out = .incomplete → step s = .next { s with phase := .receiving }) ∧
      (∀ e, s.out = .invalid e →
        step s = .next { s with result := some (.malformed e), phase := .stopped }))

/-- R171 step 2, R172, R242: after a parse the host returns the message and discards exactly the consumed bytes: the
byte at each address is the one that stood `n` addresses further on. What a `CHECK` confirmed of the discarded bytes is
cleared (log 31). -/
def Obligations.DeliveryAdvancesExactly : Prop :=
  ∀ (s : State) (n : Nat) (fs : List Frame) (ty : MessageType), s.phase = .parsed → s.out = .parsed n fs ty →
    s.buffer.wf = true →
    ∃ t, step s = .next t ∧ t.result = some (.message fs ty) ∧
      t = { s with buffer := t.buffer, confirmed := none, result := t.result, phase := .idle } ∧
      (∀ a, t.buffer.read a = s.buffer.read (a + n)) ∧ t.buffer.bytes = s.buffer.bytes.drop n

/-- R171 step 3, R173, R174: before end of stream, a completed receive, queued or drawn, appends its bytes (at most the
receive capacity of them, the rest staying with the transport: the model's choice, log 14) after the buffered ones, which
read as before, and a new check is issued. -/
def Obligations.ReceiveAppends : Prop :=
  ∀ (s : State) (bs : List Byte), s.phase = .receiving → s.eof = false → s.nextReceipt.1 = .bytes bs →
    bs.take s.recvCap ≠ [] → s.buffer.wf = true →
    ∃ t, step s = .next t ∧
      t = ({ s.nextReceipt.2 with
              buffer := t.buffer
              incoming := if bs.length ≤ s.recvCap then s.nextReceipt.2.incoming
                else .bytes (bs.drop s.recvCap) :: s.nextReceipt.2.incoming }.issue .check 0) ∧
      t.buffer.bytes = s.buffer.bytes ++ bs.take s.recvCap ∧
      (∀ a < s.buffer.length, t.buffer.read a = s.buffer.read a) ∧
      (∀ i, t.buffer.read (s.buffer.length + i) = (bs.take s.recvCap)[i]?)

/-- R171 step 4, R174, R175, R177: how a receive that obtains nothing ends the call, whether its outcome was queued or
drawn, before and after end of stream. A receive of no byte is a clean close on an empty buffer and a reset by peer
otherwise; an I/O error is fatal; a deadline fires in the bounded-time call only (in the unbounded one it has no effect,
log 15). The buffer is kept in every case. That a receive after end of stream obtains no byte is the model's reading of
R176 (log 17), and that a capacity of 0 obtains none its choice (log 14). The outcome taken is the first queued one or,
when none is queued, a free draw (log 13). -/
def Obligations.ReceiveEndings : Prop :=
  ∀ s : State,
    (∀ r rs, s.incoming = r :: rs → s.nextReceipt = (r, { s with incoming := rs })) ∧
    (s.incoming = [] → s.nextReceipt = (Config.transportDraw s.draws, { s with draws := s.draws + 1 })) ∧
    (s.phase = .receiving →
      (∀ bs inc, s.nextReceipt.1 = .bytes bs →
        ((s.eof = true ∨ bs = []) ∧ inc = s.nextReceipt.2.incoming) ∨
          (s.eof = false ∧ bs ≠ [] ∧ s.recvCap = 0 ∧ inc = .bytes bs :: s.nextReceipt.2.incoming) →
        (s.buffer = [] →
          step s = .next { s.nextReceipt.2 with
            incoming := inc, eof := true, result := some .endOfStream, phase := .idle }) ∧
        (s.buffer ≠ [] →
          step s = .next { s.nextReceipt.2 with
            incoming := inc, eof := true, result := some .resetByPeer, phase := .stopped })) ∧
      (s.nextReceipt.1 = .ioError →
        step s = .next { s.nextReceipt.2 with result := some .ioError, phase := .stopped }) ∧
      (s.nextReceipt.1 = .deadline → s.bounded = true →
        step s = .next { s.nextReceipt.2 with result := some .timeout, phase := .idle }) ∧
      (s.nextReceipt.1 = .deadline → s.bounded = false → step s = .next s.nextReceipt.2))

/-- R176, R243: on a stopped connection nothing more is issued, and every fatal result stops it. That a step of a
stopped connection is a fault is the model's choice (log 18). -/
def Obligations.StoppedAfterFatalResult : Prop :=
  ∀ s t : State, (s.phase = .stopped → step s = .fault .connectionStopped) ∧
    (step s = .next t → s.phase ≠ .stopped → ∀ r, t.result = some r → s.result ≠ some r → r.fatal = true →
      t.phase = .stopped)

/-- After end of stream no message can follow (the spec's own derivation in R176; that a later receive obtains no byte is
the model's reading, log 17): with an empty buffer, however the later receives come out, no run returns a message or
holds a byte; and a call comes, three steps on, to a receive in which zero bytes end it with `END_OF_STREAM`. -/
def Obligations.NoMessageAfterEndOfStream : Prop :=
  ∀ s : State, s.phase = .idle → s.eof = true → s.buffer = [] →
    (∀ (n : Nat) (t : State), 0 < n → Sys2Proof.core.run n s = .next t →
      t.eof = true ∧ t.buffer = [] ∧ ∀ fs ty, t.result ≠ some (.message fs ty)) ∧
    (s.cfg.WF → s.stepwise = false →
      ∃ u : State, Sys2Proof.core.run 3 s = .next u ∧ u.phase = .receiving ∧ u.incoming = s.incoming ∧
        ∀ bs, u.nextReceipt.1 = .bytes bs →
          ∃ t, Sys2Proof.core.run 4 s = .next t ∧ t.result = some .endOfStream ∧ t.phase = .idle ∧ t.eof = true ∧
            t.buffer = [])

/-- R53, R172, R173, R174: a step changes the buffer only by appending, in a receive that has completed, the bytes
obtained, or by discarding exactly the consumed bytes after a parse. Two clauses of the append are the model's own: that
at most the receive capacity of a receive's bytes is appended at once, the rest staying with the transport, is its choice
(log 14); that none is appended after end of stream is its reading of R176 (log 17). -/
def Obligations.BufferChangesOnlyByHost : Prop :=
  ∀ s t : State, step s = .next t →
    t.buffer = s.buffer ∨
    (s.phase = .receiving ∧ s.eof = false ∧ ∃ bs, s.nextReceipt.1 = .bytes bs ∧
      t.buffer = s.buffer.append (bs.take s.recvCap)) ∨
    (s.phase = .parsed ∧ ∃ n, s.out.consumed = some n ∧ t.buffer = s.buffer.advance n ∧
      t.buffer.bytes = s.buffer.bytes.drop n)

/-! Invariants every step keeps. -/

/-- R30: no step writes the configuration. That no step writes the receive capacity (D38; log 14), the write sink with
its flushed mark (log 27: the write path is out of scope) or the granularity (log 4) are the model's choices, not rules
of the spec. -/
def Obligations.ConfigurationNeverWritten : Prop :=
  ∀ s t : State, step s = .next t →
    t.cfg = s.cfg ∧ t.recvCap = s.recvCap ∧ t.sink = s.sink ∧ t.sinkFlushed = s.sinkFlushed ∧
    t.stepwise = s.stepwise

/-- The memory keeps its canonical form (the model's choice of form, log 6). -/
def Obligations.CanonicalMemoryKept : Prop :=
  ∀ s t : State, s.buffer.wf = true → step s = .next t → t.buffer.wf = true

/-- R21, R38, R231: outside a walk the operation-local registers hold the start values; every step keeps this. -/
def Obligations.RegistersDiscardedKept : Prop :=
  ∀ s t : State, s.RegistersDiscarded → step s = .next t → t.RegistersDiscarded

/-- R171, R240, R241: every step keeps the read loop's invariant. -/
def Obligations.LoopInvariantKept : Prop :=
  ∀ s t : State, s.LoopInv → step s = .next t → t.LoopInv

/-- R241, R176, R178: from every state that meets the read loop's invariant a step answers a next state, but on a
stopped connection: the host never breaks `PARSE`'s precondition, reads no output without a value, and FPA refuses
nothing. -/
def Obligations.LoopNeverStuck : Prop :=
  ∀ s : State, s.LoopInv →
    (s.phase ≠ .stopped → ∃ t, step s = .next t) ∧ (s.phase = .stopped → step s = .fault .connectionStopped)

/-- R148, R171, R177, V2 (incremental delivery and timeout resumption): the bytes of one valid message, some of them
perhaps buffered by an earlier call and the others received in any non-empty chunks, the last of which may go on into
what follows, yield exactly that one message and leave exactly the bytes after it buffered, whatever the chunk boundaries
and whether or not operations are shown stepwise (log 4). -/
def Obligations.IncrementalDelivery : Prop :=
  ∀ (s : State) (m tail : List Byte) (chunks : List (List Byte)) (later : List Receipt) (r : Walk) (ty : MessageType),
    s.cfg.WF → s.phase = .idle → s.eof = false → s.buffer.wf = true →
    s.incoming = chunks.map Receipt.bytes ++ later → s.buffer.bytes ++ chunks.flatten = m ++ tail →
    (∀ x ∈ chunks, x ≠ [] ∧ x.length ≤ s.recvCap) → (∀ x, chunks.getLast? = some x → tail.length < x.length) →
    walk s.cfg .parse m = .complete r → r.p = m.length → r.mt = some ty →
    ∃ n t, Sys2Proof.core.run n s = .next t ∧ t.result = some (.message r.acc ty) ∧ t.phase = .idle ∧
      t.buffer.bytes = tail ∧ t.buffer.wf = true ∧ t.incoming = later ∧
      ∀ k, 0 < k → k < n → ∃ t', Sys2Proof.core.run k s = .next t' ∧ t'.result = none

/-- R149, R171 step 4, V2 (truncation): a non-empty strict front part of a valid message, some of it perhaps buffered by
an earlier call and the rest received in any chunks, followed by end of stream, yields a reset by peer and keeps the
bytes, never a message. -/
def Obligations.TruncationResetsByPeer : Prop :=
  ∀ (s : State) (m : List Byte) (k : Nat) (chunks : List (List Byte)) (later : List Receipt) (r : Walk),
    s.cfg.WF → s.phase = .idle → s.eof = false →
    s.incoming = chunks.map Receipt.bytes ++ .bytes [] :: later → s.buffer.bytes ++ chunks.flatten = m.take k →
    0 < k → k < m.length → (∀ x ∈ chunks, x ≠ [] ∧ x.length ≤ s.recvCap) →
    walk s.cfg .check m = .complete r → r.p = m.length →
    ∃ n t, Sys2Proof.core.run n s = .next t ∧ t.result = some .resetByPeer ∧ t.phase = .stopped ∧
      t.buffer.bytes = m.take k ∧
      ∀ j, 0 < j → j < n → ∃ t', Sys2Proof.core.run j s = .next t' ∧ t'.result = none
end

