-- ==== Sys2Proof/Laws/Operands.lean ====
section
/-! SUPPORT. Laws of the operand forms: tags and codes under a well-formed configuration, the byte read and the tag
match. -/

namespace Sys2Proof.Machine

/-- Under a well-formed configuration a byte spells at most one tag (00 R9). -/
theorem Cfg.tag_injective {c : Cfg} (h : c.WF) {t u : Tag} (e : c.tag t = c.tag u) : t = u := by
  have h1 := h.1
  simp only [Tag.all, List.map, List.nodup_cons, List.mem_cons, List.not_mem_nil, not_or, or_false] at h1
  cases t <;> cases u <;> first | rfl | (exfalso; simp_all)

/-- Under a well-formed configuration a byte is the code of at most one type (00 R10). -/
theorem Cfg.code_injective {c : Cfg} (h : c.WF) {t u : MessageType} (e : c.code t = c.code u) : t = u := by
  have h1 := h.2.1
  simp only [MessageType.all, List.map, List.nodup_cons, List.mem_cons, List.not_mem_nil, not_or, or_false] at h1
  cases t <;> cases u <;> first | rfl | (exfalso; simp_all)

/-- A decoded tag is spelled by the byte. -/
theorem decodeTag_sound {c : Cfg} {b : Byte} {t : Tag} (e : decodeTag c b = some t) : c.tag t = b := by
  simpa using List.find?_some e

/-- A decoded type has the byte as its code. -/
theorem decodeType_sound {c : Cfg} {b : Byte} {t : MessageType} (e : decodeType c b = some t) : c.code t = b := by
  simpa using List.find?_some e

/-- A byte decodes to no tag exactly when it spells none. -/
theorem decodeTag_eq_none {c : Cfg} (b : Byte) : decodeTag c b = none ↔ ∀ t, c.tag t ≠ b := by
  unfold decodeTag
  rw [List.find?_eq_none]
  constructor
  · intro h t
    simpa using h t (by cases t <;> simp [Tag.all])
  · intro h t _
    simpa using h t

/-- Under a well-formed configuration the byte of a tag decodes to it. -/
theorem decodeTag_tag {c : Cfg} (h : c.WF) (t : Tag) : decodeTag c (c.tag t) = some t := by
  cases hd : decodeTag c (c.tag t) with
  | none => exact absurd rfl ((decodeTag_eq_none _).mp hd t)
  | some u => rw [Cfg.tag_injective h (decodeTag_sound hd)]

/-- The byte that stands after a front part. -/
theorem byteRead_append (a z : List Byte) (b : Byte) : byteRead (a ++ b :: z) a.length = some b := by
  simp [byteRead]

/-- Appending bytes changes no byte that is present. -/
theorem byteRead_append_of_some {w : List Byte} {p : Nat} {b : Byte} (x : List Byte) (h : byteRead w p = some b) :
    byteRead (w ++ x) p = some b := by
  unfold byteRead at h ⊢
  obtain ⟨hl, -⟩ := List.getElem?_eq_some_iff.mp h
  rw [List.getElem?_append_left hl, h]

/-- What a tag match can answer (40 R100). -/
theorem pTag_cases (c : Cfg) (w : List Byte) (t : Tag) (g : Pos) (p : Nat) :
    (byteRead w p = none ∧ pTag c w t g p = .incomplete) ∨
    (byteRead w p = some (c.tag t) ∧ pTag c w t g p = .ok () (p + 1)) ∨
    (∃ b, byteRead w p = some b ∧ b ≠ c.tag t ∧ pTag c w t g p = .invalid (badTag [t] g p b)) := by
  unfold pTag
  cases h : byteRead w p with
  | none => simp
  | some b =>
    by_cases e : b = c.tag t
    · subst e; simp
    · exact .inr (.inr ⟨b, rfl, e, by simp [e]⟩)

/-- The value an encoder declares is the number of bytes after it, if that fits the field (30 R90, D24). -/
theorem declaredLength_eq_some {rest : List Byte} {v : U64} :
    declaredLength rest = some v ↔ v.toNat = rest.length := by
  unfold declaredLength
  split
  · rename_i h
    rw [Option.some.injEq, ← BitVec.toNat_inj, BitVec.toNat_ofNat, Nat.mod_eq_of_lt h]
    exact eq_comm
  · have := v.isLt
    simp only [reduceCtorEq, false_iff]; omega

/-- The length of a part of the window. -/
theorem length_slice (w : List Byte) (i j : Nat) : (slice w i j).length = min (j - i) (w.length - i) := by
  simp [slice]

/-- Where the bytes are present, appending more changes no part of the window. -/
theorem slice_append {w : List Byte} {i j : Nat} (x : List Byte) (h : j ≤ w.length) :
    slice (w ++ x) i j = slice w i j := by
  unfold slice
  rcases Nat.lt_or_ge i j with hij | hij
  · rw [List.drop_append_of_le_length (by omega), List.take_append_of_le_length (by rw [List.length_drop]; omega)]
  · simp [Nat.sub_eq_zero_of_le hij]

end Sys2Proof.Machine
end

