-- ==== Sys2Proof/Laws/State.lean ====
section
/-! SUPPORT. One lemma per field per update of the state, all by unfolding, so that no proof unfolds a record update. -/

namespace Sys2Proof.Machine

@[simp] theorem State.takeFrame_cfg (s : State) (f : Frame) (p' : Nat) : (s.takeFrame f p').cfg = s.cfg := rfl
@[simp] theorem State.takeFrame_op (s : State) (f : Frame) (p' : Nat) : (s.takeFrame f p').op = s.op := rfl
@[simp] theorem State.takeFrame_nIn (s : State) (f : Frame) (p' : Nat) : (s.takeFrame f p').nIn = s.nIn := rfl
@[simp] theorem State.takeFrame_regs (s : State) (f : Frame) (p' : Nat) : (s.takeFrame f p').regs = s.regs.take s.op f p' := rfl
@[simp] theorem State.takeFrame_out (s : State) (f : Frame) (p' : Nat) : (s.takeFrame f p').out = s.out := rfl
@[simp] theorem State.takeFrame_confirmed (s : State) (f : Frame) (p' : Nat) : (s.takeFrame f p').confirmed = s.confirmed := rfl
@[simp] theorem State.takeFrame_phase (s : State) (f : Frame) (p' : Nat) : (s.takeFrame f p').phase = s.phase := rfl
@[simp] theorem State.takeFrame_stepwise (s : State) (f : Frame) (p' : Nat) : (s.takeFrame f p').stepwise = s.stepwise := rfl
@[simp] theorem State.takeFrame_buffer (s : State) (f : Frame) (p' : Nat) : (s.takeFrame f p').buffer = s.buffer := rfl
@[simp] theorem State.takeFrame_sink (s : State) (f : Frame) (p' : Nat) : (s.takeFrame f p').sink = s.sink := rfl
@[simp] theorem State.takeFrame_sinkFlushed (s : State) (f : Frame) (p' : Nat) : (s.takeFrame f p').sinkFlushed = s.sinkFlushed := rfl
@[simp] theorem State.takeFrame_recvCap (s : State) (f : Frame) (p' : Nat) : (s.takeFrame f p').recvCap = s.recvCap := rfl
@[simp] theorem State.takeFrame_bounded (s : State) (f : Frame) (p' : Nat) : (s.takeFrame f p').bounded = s.bounded := rfl
@[simp] theorem State.takeFrame_calls (s : State) (f : Frame) (p' : Nat) : (s.takeFrame f p').calls = s.calls := rfl
@[simp] theorem State.takeFrame_incoming (s : State) (f : Frame) (p' : Nat) : (s.takeFrame f p').incoming = s.incoming := rfl
@[simp] theorem State.takeFrame_draws (s : State) (f : Frame) (p' : Nat) : (s.takeFrame f p').draws = s.draws := rfl
@[simp] theorem State.takeFrame_eof (s : State) (f : Frame) (p' : Nat) : (s.takeFrame f p').eof = s.eof := rfl
@[simp] theorem State.takeFrame_result (s : State) (f : Frame) (p' : Nat) : (s.takeFrame f p').result = s.result := rfl

@[simp] theorem State.returns_cfg (s : State) (ph : Phase) (o : Output) : (s.returns ph o).cfg = s.cfg := rfl
@[simp] theorem State.returns_op (s : State) (ph : Phase) (o : Output) : (s.returns ph o).op = s.op := rfl
@[simp] theorem State.returns_nIn (s : State) (ph : Phase) (o : Output) : (s.returns ph o).nIn = s.nIn := rfl
@[simp] theorem State.returns_regs (s : State) (ph : Phase) (o : Output) : (s.returns ph o).regs = Walk.init := rfl
@[simp] theorem State.returns_out (s : State) (ph : Phase) (o : Output) : (s.returns ph o).out = o := rfl
@[simp] theorem State.returns_confirmed (s : State) (ph : Phase) (o : Output) : (s.returns ph o).confirmed = s.confirmed := rfl
@[simp] theorem State.returns_phase (s : State) (ph : Phase) (o : Output) : (s.returns ph o).phase = ph := rfl
@[simp] theorem State.returns_stepwise (s : State) (ph : Phase) (o : Output) : (s.returns ph o).stepwise = s.stepwise := rfl
@[simp] theorem State.returns_buffer (s : State) (ph : Phase) (o : Output) : (s.returns ph o).buffer = s.buffer := rfl
@[simp] theorem State.returns_sink (s : State) (ph : Phase) (o : Output) : (s.returns ph o).sink = s.sink := rfl
@[simp] theorem State.returns_sinkFlushed (s : State) (ph : Phase) (o : Output) : (s.returns ph o).sinkFlushed = s.sinkFlushed := rfl
@[simp] theorem State.returns_recvCap (s : State) (ph : Phase) (o : Output) : (s.returns ph o).recvCap = s.recvCap := rfl
@[simp] theorem State.returns_bounded (s : State) (ph : Phase) (o : Output) : (s.returns ph o).bounded = s.bounded := rfl
@[simp] theorem State.returns_calls (s : State) (ph : Phase) (o : Output) : (s.returns ph o).calls = s.calls := rfl
@[simp] theorem State.returns_incoming (s : State) (ph : Phase) (o : Output) : (s.returns ph o).incoming = s.incoming := rfl
@[simp] theorem State.returns_draws (s : State) (ph : Phase) (o : Output) : (s.returns ph o).draws = s.draws := rfl
@[simp] theorem State.returns_eof (s : State) (ph : Phase) (o : Output) : (s.returns ph o).eof = s.eof := rfl
@[simp] theorem State.returns_result (s : State) (ph : Phase) (o : Output) : (s.returns ph o).result = s.result := rfl

@[simp] theorem State.confirm_confirmed (s : State) (o : Output) :
    (s.confirm o).confirmed = o.consumed.map fun n => s.window.take n := rfl
@[simp] theorem State.confirm_cfg (s : State) (o : Output) : (s.confirm o).cfg = s.cfg := rfl
@[simp] theorem State.confirm_op (s : State) (o : Output) : (s.confirm o).op = s.op := rfl
@[simp] theorem State.confirm_nIn (s : State) (o : Output) : (s.confirm o).nIn = s.nIn := rfl
@[simp] theorem State.confirm_regs (s : State) (o : Output) : (s.confirm o).regs = s.regs := rfl
@[simp] theorem State.confirm_out (s : State) (o : Output) : (s.confirm o).out = s.out := rfl
@[simp] theorem State.confirm_phase (s : State) (o : Output) : (s.confirm o).phase = s.phase := rfl
@[simp] theorem State.confirm_stepwise (s : State) (o : Output) : (s.confirm o).stepwise = s.stepwise := rfl
@[simp] theorem State.confirm_buffer (s : State) (o : Output) : (s.confirm o).buffer = s.buffer := rfl
@[simp] theorem State.confirm_sink (s : State) (o : Output) : (s.confirm o).sink = s.sink := rfl
@[simp] theorem State.confirm_sinkFlushed (s : State) (o : Output) : (s.confirm o).sinkFlushed = s.sinkFlushed := rfl
@[simp] theorem State.confirm_recvCap (s : State) (o : Output) : (s.confirm o).recvCap = s.recvCap := rfl
@[simp] theorem State.confirm_bounded (s : State) (o : Output) : (s.confirm o).bounded = s.bounded := rfl
@[simp] theorem State.confirm_calls (s : State) (o : Output) : (s.confirm o).calls = s.calls := rfl
@[simp] theorem State.confirm_incoming (s : State) (o : Output) : (s.confirm o).incoming = s.incoming := rfl
@[simp] theorem State.confirm_draws (s : State) (o : Output) : (s.confirm o).draws = s.draws := rfl
@[simp] theorem State.confirm_eof (s : State) (o : Output) : (s.confirm o).eof = s.eof := rfl
@[simp] theorem State.confirm_result (s : State) (o : Output) : (s.confirm o).result = s.result := rfl

@[simp] theorem State.issue_cfg (s : State) (op : Command) (n : Nat) : (s.issue op n).cfg = s.cfg := rfl
@[simp] theorem State.issue_op (s : State) (op : Command) (n : Nat) : (s.issue op n).op = op := rfl
@[simp] theorem State.issue_nIn (s : State) (op : Command) (n : Nat) : (s.issue op n).nIn = n := rfl
@[simp] theorem State.issue_regs (s : State) (op : Command) (n : Nat) : (s.issue op n).regs = Walk.init := rfl
@[simp] theorem State.issue_out (s : State) (op : Command) (n : Nat) : (s.issue op n).out = .none := rfl
@[simp] theorem State.issue_confirmed (s : State) (op : Command) (n : Nat) : (s.issue op n).confirmed = s.confirmed := rfl
@[simp] theorem State.issue_phase (s : State) (op : Command) (n : Nat) : (s.issue op n).phase = if s.stepwise then .walking else .command := rfl
@[simp] theorem State.issue_stepwise (s : State) (op : Command) (n : Nat) : (s.issue op n).stepwise = s.stepwise := rfl
@[simp] theorem State.issue_buffer (s : State) (op : Command) (n : Nat) : (s.issue op n).buffer = s.buffer := rfl
@[simp] theorem State.issue_sink (s : State) (op : Command) (n : Nat) : (s.issue op n).sink = s.sink := rfl
@[simp] theorem State.issue_sinkFlushed (s : State) (op : Command) (n : Nat) : (s.issue op n).sinkFlushed = s.sinkFlushed := rfl
@[simp] theorem State.issue_recvCap (s : State) (op : Command) (n : Nat) : (s.issue op n).recvCap = s.recvCap := rfl
@[simp] theorem State.issue_bounded (s : State) (op : Command) (n : Nat) : (s.issue op n).bounded = s.bounded := rfl
@[simp] theorem State.issue_calls (s : State) (op : Command) (n : Nat) : (s.issue op n).calls = s.calls := rfl
@[simp] theorem State.issue_incoming (s : State) (op : Command) (n : Nat) : (s.issue op n).incoming = s.incoming := rfl
@[simp] theorem State.issue_draws (s : State) (op : Command) (n : Nat) : (s.issue op n).draws = s.draws := rfl
@[simp] theorem State.issue_eof (s : State) (op : Command) (n : Nat) : (s.issue op n).eof = s.eof := rfl
@[simp] theorem State.issue_result (s : State) (op : Command) (n : Nat) : (s.issue op n).result = s.result := rfl

@[simp] theorem State.finish_cfg (s : State) (r : ReadResult) : (s.finish r).cfg = s.cfg := rfl
@[simp] theorem State.finish_op (s : State) (r : ReadResult) : (s.finish r).op = s.op := rfl
@[simp] theorem State.finish_nIn (s : State) (r : ReadResult) : (s.finish r).nIn = s.nIn := rfl
@[simp] theorem State.finish_regs (s : State) (r : ReadResult) : (s.finish r).regs = s.regs := rfl
@[simp] theorem State.finish_out (s : State) (r : ReadResult) : (s.finish r).out = s.out := rfl
@[simp] theorem State.finish_confirmed (s : State) (r : ReadResult) : (s.finish r).confirmed = s.confirmed := rfl
@[simp] theorem State.finish_phase (s : State) (r : ReadResult) : (s.finish r).phase = if r.fatal then .stopped else .idle := rfl
@[simp] theorem State.finish_stepwise (s : State) (r : ReadResult) : (s.finish r).stepwise = s.stepwise := rfl
@[simp] theorem State.finish_buffer (s : State) (r : ReadResult) : (s.finish r).buffer = s.buffer := rfl
@[simp] theorem State.finish_sink (s : State) (r : ReadResult) : (s.finish r).sink = s.sink := rfl
@[simp] theorem State.finish_sinkFlushed (s : State) (r : ReadResult) : (s.finish r).sinkFlushed = s.sinkFlushed := rfl
@[simp] theorem State.finish_recvCap (s : State) (r : ReadResult) : (s.finish r).recvCap = s.recvCap := rfl
@[simp] theorem State.finish_bounded (s : State) (r : ReadResult) : (s.finish r).bounded = s.bounded := rfl
@[simp] theorem State.finish_calls (s : State) (r : ReadResult) : (s.finish r).calls = s.calls := rfl
@[simp] theorem State.finish_incoming (s : State) (r : ReadResult) : (s.finish r).incoming = s.incoming := rfl
@[simp] theorem State.finish_draws (s : State) (r : ReadResult) : (s.finish r).draws = s.draws := rfl
@[simp] theorem State.finish_eof (s : State) (r : ReadResult) : (s.finish r).eof = s.eof := rfl
@[simp] theorem State.finish_result (s : State) (r : ReadResult) : (s.finish r).result = some r := rfl

@[simp] theorem Walk.take_p (op : Command) (r : Walk) (f : Frame) (p' : Nat) : (r.take op f p').p = p' := rfl
@[simp] theorem Walk.take_g (op : Command) (r : Walk) (f : Frame) (p' : Nat) :
    (r.take op f p').g = nextPos r.g f := rfl
@[simp] theorem Walk.take_acc_check (r : Walk) (f : Frame) (p' : Nat) : (r.take .check f p').acc = r.acc := rfl
@[simp] theorem Walk.take_acc_parse (r : Walk) (f : Frame) (p' : Nat) :
    (r.take .parse f p').acc = r.acc ++ [f] := rfl

@[simp] theorem State.window_confirm (s : State) (o : Output) : (s.confirm o).window = s.window := rfl
@[simp] theorem State.window_takeFrame (s : State) (f : Frame) (p' : Nat) : (s.takeFrame f p').window = s.window := rfl

end Sys2Proof.Machine
end

