-- ==== Sys2Proof/Laws/Ops.lean ====
section
/-! SUPPORT. What each shared operation over memory and registers can do, said once: the memory operations keep the
canonical form, and inversion lemmas for the operations every meaning is made of. -/

namespace Sys2Proof.Machine

/-! Memory. -/

theorem Memory.bytes_ofBytesFrom (bs : List Byte) (a : Nat) : (Memory.ofBytesFrom a bs).bytes = bs := by
  induction bs generalizing a with
  | nil => rfl
  | cons b bs ih => simp only [Memory.ofBytesFrom, Memory.bytes, List.map_cons] at ih ⊢; rw [ih]

@[simp] theorem Memory.bytes_ofBytes (bs : List Byte) : (Memory.ofBytes bs).bytes = bs :=
  Memory.bytes_ofBytesFrom bs 0

theorem Memory.addresses_ofBytesFrom (bs : List Byte) (a : Nat) :
    (Memory.ofBytesFrom a bs).map Prod.fst = List.range' a bs.length := by
  induction bs generalizing a with
  | nil => rfl
  | cons b bs ih =>
    simp only [Memory.ofBytesFrom, List.map_cons, List.length_cons, List.range'_succ] at ih ⊢
    rw [ih]

theorem Memory.length_ofBytesFrom (bs : List Byte) (a : Nat) : (Memory.ofBytesFrom a bs).length = bs.length := by
  simpa [Memory.bytes] using congrArg List.length (Memory.bytes_ofBytesFrom bs a)

/-- The canonical form, as an equation on the addresses. -/
theorem Memory.wf_iff (m : Memory) : m.wf = true ↔ m.map Prod.fst = List.range m.length := by
  simp [Memory.wf]

@[simp] theorem Memory.wf_nil : Memory.wf [] = true := rfl

@[simp] theorem Memory.wf_ofBytes (bs : List Byte) : (Memory.ofBytes bs).wf = true := by
  rw [Memory.wf_iff, Memory.ofBytes, Memory.addresses_ofBytesFrom, Memory.length_ofBytesFrom, List.range_eq_range']

/-- A canonical memory is the one its bytes give: equal bytes are equal memories. -/
theorem Memory.eq_ofBytes {m : Memory} (h : m.wf = true) : m = Memory.ofBytes m.bytes := by
  have key : ∀ (m : Memory) (a : Nat), m.map Prod.fst = List.range' a m.length → m = Memory.ofBytesFrom a m.bytes := by
    intro m
    induction m with
    | nil => intro a _; rfl
    | cons x m ih =>
      intro a hm
      simp only [List.map_cons, List.length_cons, List.range'_succ, List.cons.injEq] at hm
      simp only [Memory.bytes, List.map_cons, Memory.ofBytesFrom]
      rw [← Memory.bytes, ← ih (a + 1) hm.2, ← hm.1]
  exact key m 0 (by rw [← List.range_eq_range']; exact (Memory.wf_iff m).mp h)

@[simp] theorem Memory.bytes_append (m : Memory) (bs : List Byte) : (m.append bs).bytes = m.bytes ++ bs := by
  have := Memory.bytes_ofBytesFrom bs m.length
  simp only [Memory.append, Memory.bytes, List.map_append] at this ⊢
  rw [this]

@[simp] theorem Memory.bytes_advance (m : Memory) (n : Nat) : (m.advance n).bytes = m.bytes.drop n :=
  Memory.bytes_ofBytes _

/-- Appending received bytes keeps the canonical form. -/
theorem Memory.wf_append {m : Memory} (h : m.wf = true) (bs : List Byte) : (m.append bs).wf = true := by
  rw [Memory.wf_iff] at h ⊢
  rw [Memory.append, List.map_append, h, Memory.addresses_ofBytesFrom, List.length_append, Memory.length_ofBytesFrom,
    List.range_eq_range', List.range_eq_range', ← List.range'_append_1]
  simp

/-- Discarding a consumed front part gives a canonical memory. -/
@[simp] theorem Memory.wf_advance (m : Memory) (n : Nat) : (m.advance n).wf = true := Memory.wf_ofBytes _

theorem Memory.read_ofBytesFrom (bs : List Byte) (a x : Nat) :
    (Memory.ofBytesFrom a bs).read x = if x < a then none else bs[x - a]? := by
  induction bs generalizing a with
  | nil => simp [Memory.ofBytesFrom, Memory.read]
  | cons b bs ih =>
    simp only [Memory.ofBytesFrom, Memory.read, ih]
    rcases Nat.lt_trichotomy x a with h | h | h
    · rw [if_neg (by omega), if_pos (by omega), if_pos h]
    · subst h; simp
    · rw [if_neg (by omega), if_neg (by omega), if_neg (by omega)]
      obtain ⟨k, rfl⟩ : ∃ k, x = a + 1 + k := ⟨x - (a + 1), by omega⟩
      rw [show a + 1 + k - a = k + 1 by omega, List.getElem?_cons_succ, show a + 1 + k - (a + 1) = k by omega]

@[simp] theorem Memory.read_ofBytes (bs : List Byte) (x : Nat) : (Memory.ofBytes bs).read x = bs[x]? := by
  simp [Memory.ofBytes, Memory.read_ofBytesFrom]

/-- In a canonical memory the byte at an address is the byte at that index of the window (20 R52). -/
theorem Memory.read_eq_bytes {m : Memory} (h : m.wf = true) (x : Nat) : m.read x = m.bytes[x]? := by
  conv_lhs => rw [Memory.eq_ofBytes h]
  exact Memory.read_ofBytes _ _

/-! Operations on the state. -/

/-- What `requireCfg` can answer. -/
theorem requireCfg_cases (s : State) (k : Answer) :
    (s.cfg.WF ∧ requireCfg s k = k) ∨ (¬ s.cfg.WF ∧ requireCfg s k = .refused .badConfiguration) := by
  unfold requireCfg; split
  · exact .inl ⟨‹_›, rfl⟩
  · exact .inr ⟨‹_›, rfl⟩

/-- If an operation's end answers a next state, it is the state returned to the host under one of the two commands:
`CHECK` also keeps what it confirmed, `PARSE` had its bytes confirmed. -/
theorem endWalk_next {s t : State} {e : WalkEnd} (h : endWalk s e = .next t) :
    (s.op = .check ∧ t = (s.confirm (checkOutput e)).returns .checked (checkOutput e)) ∨
    (s.op = .parse ∧ ∃ r ty, e = .complete r ∧ r.p = s.nIn ∧ s.confirmed = some s.window ∧ r.mt = some ty ∧
      t = s.returns .parsed (.parsed r.p r.acc ty)) := by
  unfold endWalk at h
  cases hop : s.op with
  | check =>
    simp only [hop] at h
    injection h with h
    exact .inl ⟨rfl, h.symm⟩
  | parse =>
    simp only [hop] at h
    cases e with
    | complete r =>
      simp only at h
      split at h
      · rename_i hp
        cases hm : r.mt with
        | none => simp [hm] at h
        | some ty =>
          simp only [hm] at h
          injection h with h
          exact .inr ⟨rfl, r, ty, rfl, hp.1, hp.2, hm, h.symm⟩
      · cases h
    | incomplete => simp at h
    | invalid e => simp at h

/-- The end of a `CHECK`. -/
theorem endWalk_check {s : State} (ho : s.op = .check) (e : WalkEnd) :
    endWalk s e = .next ((s.confirm (checkOutput e)).returns .checked (checkOutput e)) := by
  unfold endWalk; rw [ho]

/-- The end of a `PARSE` whose precondition holds (41 R145). -/
theorem endWalk_parse {s : State} {r : Walk} {ty : MessageType} (ho : s.op = .parse) (hp : r.p = s.nIn)
    (hm : r.mt = some ty) (hc : s.confirmed = some (s.buffer.bytes.take s.nIn)) :
    endWalk s (.complete r) = .next (s.returns .parsed (.parsed r.p r.acc ty)) := by
  unfold endWalk; simp [ho, hp, hm, hc, State.window]

/-- The end of a `PARSE` whose bytes no `CHECK` confirmed (41 R145, 70 R241). -/
theorem endWalk_unconfirmed {s : State} (ho : s.op = .parse) (hc : s.confirmed ≠ some (s.buffer.bytes.take s.nIn))
    (e : WalkEnd) : endWalk s e = .fault .parsePrecondition := by
  unfold endWalk; cases e <;> simp [ho, hc, State.window]

/-- If a `STEP` answers a next state, the primitive was `Ok` and the registers took its frame, or the walk ended. -/
theorem stepResult_next {s t : State} {r : Res Frame} (h : stepResult s r = .next t) :
    (∃ f p', r = .ok f p' ∧ t = s.takeFrame f p') ∨
    (r = .incomplete ∧ endWalk s .incomplete = .next t) ∨
    (∃ e, r = .invalid e ∧ endWalk s (.invalid e) = .next t) := by
  cases r with
  | ok f p' => simp only [stepResult] at h; injection h with h; exact .inl ⟨f, p', rfl, h.symm⟩
  | incomplete => exact .inr (.inl ⟨rfl, h⟩)
  | invalid e => exact .inr (.inr ⟨e, rfl, h⟩)

/-- If a frame with tag `t` answers a next state, the configuration is well formed and either the position accepts the
tag and the frame's own effect answered, or `BAD_TAG` was raised. -/
theorem onTag_next {s s' : State} {t : Tag} {k : Answer} (h : onTag s t k = .next s') :
    s.cfg.WF ∧ s.regs.g.legal ≠ [] ∧
      ((t ∈ s.regs.g.legal ∧ k = .next s') ∨
       (t ∉ s.regs.g.legal ∧
         raiseInvalid s (badTag s.regs.g.legal s.regs.g s.regs.p (s.cfg.tag t)) = .next s')) := by
  unfold onTag at h
  rcases requireCfg_cases s (if s.regs.g.legal = [] then .refused .notATagPosition
     else if t ∈ s.regs.g.legal then k
     else raiseInvalid s (badTag s.regs.g.legal s.regs.g s.regs.p (s.cfg.tag t))) with ⟨hw, hr⟩ | ⟨_, hr⟩
  · rw [hr] at h
    split at h
    · cases h
    · rename_i hl
      split at h
      · exact ⟨hw, hl, .inl ⟨‹_›, h⟩⟩
      · exact ⟨hw, hl, .inr ⟨‹_›, h⟩⟩
  · rw [hr] at h; cases h

/-- Where the configuration is well formed and the position accepts the tag, a frame is its own effect. -/
theorem onTag_legal {s : State} {t : Tag} {k : Answer} (hw : s.cfg.WF) (ht : t ∈ s.regs.g.legal) :
    onTag s t k = k := by
  have hl : s.regs.g.legal ≠ [] := List.ne_nil_of_mem ht
  unfold onTag requireCfg
  rw [if_pos hw, if_neg hl, if_pos ht]

/-! Results of primitives. -/

@[simp] theorem Res.andThen_ok {α β : Type} (v : α) (p : Nat) (k : α → Nat → Res β) :
    (Res.ok v p).andThen k = k v p := rfl
@[simp] theorem Res.andThen_incomplete {α β : Type} (k : α → Nat → Res β) :
    (Res.incomplete : Res α).andThen k = .incomplete := rfl
@[simp] theorem Res.andThen_invalid {α β : Type} (e : ErrorRecord) (k : α → Nat → Res β) :
    (Res.invalid e : Res α).andThen k = .invalid e := rfl

/-- A sequence of two primitives is `Ok` exactly when both are. -/
theorem Res.andThen_eq_ok {α β : Type} {r : Res α} {k : α → Nat → Res β} {v : β} {p : Nat} :
    r.andThen k = .ok v p ↔ ∃ a q, r = .ok a q ∧ k a q = .ok v p := by
  cases r <;> simp [Res.andThen]

/-- The limit passes or is `OVERSIZE` (40 R102). -/
theorem cap_cases {α : Type} (c : Cfg) (v q : Nat) (g : Pos) (k : Res α) :
    ((∀ m, c.maxDeclaredLen = some m → v ≤ m) ∧ cap c v q g k = k) ∨
    (∃ m, c.maxDeclaredLen = some m ∧ m < v ∧
      cap c v q g k = .invalid { cause := .oversize, offset := q, expected := .position g, got := none }) := by
  unfold cap
  cases hm : c.maxDeclaredLen with
  | none => exact .inl ⟨by simp, rfl⟩
  | some m =>
    by_cases h : v > m
    · exact .inr ⟨m, rfl, h, by simp [h]⟩
    · exact .inl ⟨by intro m' hm'; injection hm' with hm'; omega, by simp [h]⟩

end Sys2Proof.Machine
end

