-- ==== Sys2Proof/Laws/PerInstr.lean ====
section
/-! SUPPORT. The per-instruction family EncodedLength: the total lengths of spec 30 R71 (and R88, R90), which the host
assembles over all constructors. -/

namespace Sys2Proof

namespace Laws

/-- The encoding of every instruction has the length 30 R71 gives it. -/
def EncodedLength.Statement (i : Instr) : Prop := ∀ c : Cfg, (encode c i).length = i.size c

theorem length_bytes64 (v : U64) : (Machine.bytes64 v).length = 8 := by simp [Machine.bytes64]

theorem length_encodeBody (c : Cfg) (s : List Byte) : (encodeBody c s).length = 8 + s.length + c.delim.length := by
  simp [encodeBody, length_bytes64, Nat.add_assoc]

theorem EncodedLength.check : EncodedLength.Statement .check := fun _ => rfl
theorem EncodedLength.parse : EncodedLength.Statement .parse := fun _ => rfl
theorem EncodedLength.start : EncodedLength.Statement .start := fun _ => rfl
theorem EncodedLength.flen (v : U64) : EncodedLength.Statement (.flen v) := fun _ => rfl
theorem EncodedLength.typePing : EncodedLength.Statement .typePing := fun _ => rfl
theorem EncodedLength.typeAuthenticate : EncodedLength.Statement .typeAuthenticate := fun _ => rfl
theorem EncodedLength.typeSuccess : EncodedLength.Statement .typeSuccess := fun _ => rfl
theorem EncodedLength.typeFail : EncodedLength.Statement .typeFail := fun _ => rfl
theorem EncodedLength.typeSet : EncodedLength.Statement .typeSet := fun _ => rfl
theorem EncodedLength.typeGet : EncodedLength.Statement .typeGet := fun _ => rfl
theorem EncodedLength.typeDelete : EncodedLength.Statement .typeDelete := fun _ => rfl
theorem EncodedLength.typeInvalid (b : Byte) : EncodedLength.Statement (.typeInvalid b) := fun _ => rfl
theorem EncodedLength.str (payload : List Byte) : EncodedLength.Statement (.str payload) := fun c => by
  simp [encode, Instr.size, length_encodeBody]; omega
theorem EncodedLength.time (payload : List Byte) : EncodedLength.Statement (.time payload) := fun c => by
  simp [encode, Instr.size, length_encodeBody]; omega
theorem EncodedLength.null : EncodedLength.Statement .null := fun _ => rfl
theorem EncodedLength.optTime (t : Option (List Byte)) : EncodedLength.Statement (.optTime t) := fun c => by
  cases t with
  | none => rfl
  | some s => simp [encode, Instr.size, length_encodeBody]; omega

end Laws

end Sys2Proof
end

