-- ==== Sys2Proof/Laws/Step.lean ====
section
/-! SUPPORT. What the host's moves and a step can do, said once. -/

namespace Sys2Proof.Machine

/-- Taking the next call changes only the queue of calls and the draw counter. -/
theorem State.nextCall_eq (s : State) :
    s.nextCall.2 = { s with calls := s.nextCall.2.calls, draws := s.nextCall.2.draws } := by
  unfold State.nextCall; split <;> rfl

/-- Taking the next receive outcome changes only the queue of outcomes and the draw counter. -/
theorem State.nextReceipt_eq (s : State) :
    s.nextReceipt.2 = { s with incoming := s.nextReceipt.2.incoming, draws := s.nextReceipt.2.draws } := by
  unfold State.nextReceipt; split <;> rfl

/-- A call of the caller always issues a check. -/
theorem callRead_eq (s : State) :
    ∃ b cs d, callRead s =
      .next ({ s with calls := cs, draws := d, bounded := b, result := none }.issue .check 0) := by
  refine ⟨s.nextCall.1 == Call.readMessageWithTimeout, s.nextCall.2.calls, s.nextCall.2.draws, ?_⟩
  simp only [callRead]
  conv_lhs => rw [State.nextCall_eq s]

/-- What the host does after a check, if it goes on. -/
theorem actOnCheck_next {s t : State} (h : actOnCheck s = .next t) :
    (∃ n, s.out.status = some .complete ∧ s.out.consumed = some n ∧ t = s.issue .parse n) ∨
    (∃ e, s.out.status = some .invalid ∧ s.out.err = some e ∧ t = s.finish (.malformed e)) ∨
    (s.out.status = some .incomplete ∧ t = { s with phase := .receiving }) := by
  unfold actOnCheck at h
  split at h
  · cases h
  · split at h
    · injection h with h; exact .inl ⟨_, ‹_›, ‹_›, h.symm⟩
    · cases h
  · split at h
    · injection h with h; exact .inr (.inl ⟨_, ‹_›, ‹_›, h.symm⟩)
    · cases h
  · injection h with h; exact .inr (.inr ⟨‹_›, h.symm⟩)

/-- What the host does after a parse, if it goes on. -/
theorem deliver_next {s t : State} (h : deliver s = .next t) :
    ∃ n fs ty, s.out.consumed = some n ∧ s.out.frames = some fs ∧ s.out.msgType = some ty ∧
      t = { s with buffer := s.buffer.advance n, confirmed := none }.finish (.message fs ty) := by
  unfold deliver at h
  split at h
  · injection h with h; exact ⟨_, _, _, ‹_›, ‹_›, ‹_›, h.symm⟩
  · cases h

/-- What obtained bytes lead to: end of stream when the receive takes none, a new check otherwise. -/
theorem obtained_cases (s : State) (bs : List Byte) :
    ∃ inc, (bs.take s.recvCap = [] ∧ obtained s bs = endOfStream { s with incoming := inc }) ∨
      (bs.take s.recvCap ≠ [] ∧ obtained s bs =
        ({ s with incoming := inc, buffer := s.buffer.append (bs.take s.recvCap) }.issue .check 0)) := by
  refine ⟨if bs.drop s.recvCap = [] then s.incoming else .bytes (bs.drop s.recvCap) :: s.incoming, ?_⟩
  by_cases h : bs.take s.recvCap = []
  · exact .inl ⟨h, by simp only [obtained, h, if_true]⟩
  · exact .inr ⟨h, by simp only [obtained, h, if_false]⟩

/-- A receive always goes on, in one of these ways. -/
theorem receive_cases (s : State) :
    (s.nextReceipt.1 = .ioError ∧ receive s = .next (s.nextReceipt.2.finish .ioError)) ∨
    (s.nextReceipt.1 = .deadline ∧ s.bounded = true ∧ receive s = .next (s.nextReceipt.2.finish .timeout)) ∨
    (s.nextReceipt.1 = .deadline ∧ s.bounded = false ∧ receive s = .next s.nextReceipt.2) ∨
    (∃ bs, s.nextReceipt.1 = .bytes bs ∧
      ((s.eof = true ∧ receive s = .next (endOfStream s.nextReceipt.2)) ∨
       (s.eof = false ∧ receive s = .next (obtained s.nextReceipt.2 bs)))) := by
  have hb : s.nextReceipt.2.bounded = s.bounded := by rw [State.nextReceipt_eq s]
  have he : s.nextReceipt.2.eof = s.eof := by rw [State.nextReceipt_eq s]
  cases hr : s.nextReceipt.1 with
  | ioError => exact .inl ⟨rfl, by simp [receive, hr]⟩
  | deadline =>
    cases hbd : s.bounded with
    | true => exact .inr (.inl ⟨rfl, rfl, by simp [receive, hr, hb, hbd]⟩)
    | false => exact .inr (.inr (.inl ⟨rfl, rfl, by simp [receive, hr, hb, hbd]⟩))
  | bytes bs =>
    refine .inr (.inr (.inr ⟨bs, rfl, ?_⟩))
    cases hed : s.eof with
    | true => exact .inl ⟨rfl, by simp [receive, hr, he, hed]⟩
    | false => exact .inr ⟨rfl, by simp [receive, hr, he, hed]⟩

/-- If a step answers a next state, whose move it was and what it answered. -/
theorem step_next {s t : State} (h : step s = .next t) :
    (s.phase = .idle ∧ callRead s = .next t) ∨
    (s.phase = .command ∧ exec (commandInstr s.op) s = .next t) ∨
    (s.phase = .walking ∧ ∃ i, fetch s = .run i ∧ exec i s = .next t) ∨
    (s.phase = .walking ∧ ∃ e, fetch s = .ends e ∧ endFetched s e = .next t) ∨
    (s.phase = .checked ∧ actOnCheck s = .next t) ∨
    (s.phase = .parsed ∧ deliver s = .next t) ∨
    (s.phase = .receiving ∧ receive s = .next t) := by
  unfold step at h
  cases hp : s.phase <;> simp only [hp] at h
  case idle => exact .inl ⟨rfl, h⟩
  case command => exact .inr (.inl ⟨rfl, h⟩)
  case walking =>
    cases hf : fetch s with
    | run i => simp only [hf] at h; exact .inr (.inr (.inl ⟨rfl, i, rfl, h⟩))
    | ends e => simp only [hf] at h; exact .inr (.inr (.inr (.inl ⟨rfl, e, rfl, h⟩)))
  case checked => exact .inr (.inr (.inr (.inr (.inl ⟨rfl, h⟩))))
  case parsed => exact .inr (.inr (.inr (.inr (.inr (.inl ⟨rfl, h⟩)))))
  case receiving => exact .inr (.inr (.inr (.inr (.inr (.inr ⟨rfl, h⟩)))))
  case stopped => cases h

/-- A run of one step more. -/
theorem core_run_succ (n : Nat) {s t : State} (h : step s = .next t) :
    Sys2Proof.core.run (n + 1) s = Sys2Proof.core.run n t := by
  have h' : Sys2Proof.core.step s = .next t := h
  simp only [Host.Core.run, h']

/-- A run of one step is the step. -/
theorem core_run_one (s : State) : Sys2Proof.core.run 1 s = step s := by
  have h : Sys2Proof.core.step s = step s := rfl
  simp only [Host.Core.run, h]
  cases step s <;> rfl

/-- What an operation leaves in the outputs always has a status. -/
theorem checkOutput_status (e : WalkEnd) : (checkOutput e).status ≠ none := by
  cases e <;> simp [checkOutput, Output.status]

end Sys2Proof.Machine
end

