-- ==== Sys2Proof/Tests/Slice0.lean ====
section
/-! SUPPORT. The model's own tests. Expected values come from the spec: the encoding table of 30 R71 and R89 under the
test configuration of 92 D23, and the vectors of 95_test_vectors (their ids stand beside them). The witness theorems
meet the hypotheses of the statements of Obligations.lean. -/

namespace Sys2Proof.Tests

open Sys2Proof Machine

/-- The test configuration of 92 D23. -/
def d23 : Cfg := Cfg.reset

/-- D23 with a limit. -/
def d23Max (m : Nat) : Cfg := { d23 with maxDeclaredLen := some m }

/-- A configuration with two equal tags. -/
def badCfg : Cfg := { d23 with tagNull := 0x54#8 }

/-- Seven zero bytes and one byte: a small length field. -/
def len8 (b : Byte) : List Byte := [0, 0, 0, 0, 0, 0, 0, b]

/-- The 25 bytes of `1970-01-01T00:16:40+00:00` (text `t1`). -/
def t1 : List Byte :=
  [0x31, 0x39, 0x37, 0x30, 0x2D, 0x30, 0x31, 0x2D, 0x30, 0x31, 0x54, 0x30, 0x30, 0x3A, 0x31, 0x36, 0x3A, 0x34, 0x30,
   0x2B, 0x30, 0x30, 0x3A, 0x30, 0x30]

/-- `t1` with other bytes from index 10 on. -/
def day1970 (rest : List Byte) : List Byte := t1.take 10 ++ rest

/-- The 49 bytes of V1. -/
def v1 : List Byte :=
  [0x2A, 0x3A] ++ len8 0x27 ++ [0x23, 0x01, 0x54] ++ len8 0x19 ++ t1 ++ [0x0D, 0x0A, 0x7C]

/-- The 14 bytes of A4. -/
def a4 : List Byte := [0x2A, 0x3A] ++ len8 4 ++ [0x23, 0x01, 0x7C, 0x7C]

/-- The 38 bytes of A5. -/
def a5 : List Byte :=
  [0x2A, 0x3A] ++ len8 0x1C ++ [0x23, 0x02, 0x2B] ++ len8 4 ++ [0x75, 0x73, 0x65, 0x72, 0x0D, 0x0A, 0x2B] ++ len8 0 ++
  [0x0D, 0x0A]

/-- A message of a reserved type, B10. -/
def b10 : List Byte := [0x2A, 0x3A] ++ len8 4 ++ [0x23, 0x05]

/-- A connection whose buffer holds `bs`. -/
def holding (bs : List Byte) : State := { State.reset with buffer := Memory.ofBytes bs }

/-- The same after a complete `CHECK` of its first `n` bytes, with `n_in = n`. -/
def confirmedFor (n : Nat) (bs : List Byte) : State := { holding bs with nIn := n, confirmed := some (bs.take n) }

/-- Inside a walk of the operation `op` at position `g`, with the window `bs` and the cursor at 0. -/
def walking (op : Command) (g : Pos) (bs : List Byte) : State :=
  { holding bs with op := op, nIn := bs.length, phase := .walking, regs := { Walk.init with g := g } }

/-- The outputs a step leaves. -/
def outOf : Answer → Output
  | .next s => s.out
  | .fault _ | .refused _ => .none

/-- The registers a step leaves. -/
def regsOf : Answer → Option Walk
  | .next s => some s.regs
  | .fault _ | .refused _ => none

/-- A step answered a next state. -/
def answersNext : Answer → Bool
  | .next _ => true
  | .fault _ | .refused _ => false

/-- The result a step leaves. -/
def resultOf : Answer → Option ReadResult
  | .next s => s.result
  | .fault _ | .refused _ => none

/-- The buffer a step leaves. -/
def bufferOf : Answer → Memory
  | .next s => s.buffer
  | .fault _ | .refused _ => []

/-- The bytes a step leaves confirmed. -/
def confirmedOf : Answer → Option (List Byte)
  | .next s => s.confirmed
  | .fault _ | .refused _ => none

/-- The fault a step ends in. -/
def faultOf : Answer → Option Fault
  | .fault f => some f
  | .next _ | .refused _ => none

/-! Well-formedness smoke tests: an ill-formed term for each check. -/

theorem test_cfg_wf : d23.WF := by decide
theorem test_cfg_same_tags_refused : ¬ badCfg.WF := by decide
theorem test_cfg_same_codes_refused : ¬ { d23 with codeGet := 0x01#8 }.WF := by decide
theorem test_cfg_empty_delim_refused : ¬ { d23 with delim := [] }.WF := by decide
theorem test_wf_typeInvalid_defined_code : Instr.wf d23 (.typeInvalid 0x07#8) = false := by decide
theorem test_wf_str_over_limit : Instr.wf (d23Max 1) (.str [0x61#8, 0x62#8]) = false := by decide
theorem test_wf_time_over_limit : Instr.wf (d23Max 1) (.time [0x61#8, 0x62#8]) = false := by decide
theorem test_wf_optTime_over_limit : Instr.wf (d23Max 1) (.optTime (some [0x61#8, 0x62#8])) = false := by decide
theorem test_wf_str_count_too_wide (n : Nat) (h : n = 2 ^ 64) :
    Instr.wf d23 (.str (List.replicate n 0#8)) = false := by
  have h' : ¬ n < 2 ^ 64 := by omega
  simp only [Instr.wf, Cfg.countOk, List.length_replicate, h', decide_false, Bool.false_and]
theorem test_memory_gap_not_canonical : Memory.wf [(0, 1#8), (2, 1#8)] = false := by decide

/-! Decoding: a word of each row, written out from 30 R71 and R89 under D23. -/

theorem test_decode_check : decodeTableWord 8 0 = some .check := by decide
theorem test_decode_parse : decodeTableWord 8 1 = some .parse := by decide
theorem test_decode_start : decodeAt d23 [0x2A] .start 0 = .ok .start 1 := by decide
theorem test_decode_flen :
    decodeAt d23 [0x3A, 0x01, 0x02, 0x03, 0x04, 0x05, 0x06, 0x07, 0x08] .flenTag 0 =
      .ok (.flen 0x0102030405060708#64) 9 := by decide
theorem test_decode_typePing : decodeAt d23 [0x23, 0x01] .typeTag 0 = .ok .typePing 2 := by decide
theorem test_decode_typeAuthenticate : decodeAt d23 [0x23, 0x02] .typeTag 0 = .ok .typeAuthenticate 2 := by decide
theorem test_decode_typeSuccess : decodeAt d23 [0x23, 0x03] .typeTag 0 = .ok .typeSuccess 2 := by decide
theorem test_decode_typeFail : decodeAt d23 [0x23, 0x04] .typeTag 0 = .ok .typeFail 2 := by decide
theorem test_decode_typeSet : decodeAt d23 [0x23, 0x05] .typeTag 0 = .ok .typeSet 2 := by decide
theorem test_decode_typeGet : decodeAt d23 [0x23, 0x06] .typeTag 0 = .ok .typeGet 2 := by decide
theorem test_decode_typeDelete : decodeAt d23 [0x23, 0x07] .typeTag 0 = .ok .typeDelete 2 := by decide
theorem test_decode_typeInvalid : decodeAt d23 [0x23, 0x08] .typeTag 0 = .ok (.typeInvalid 0x08) 2 := by decide
theorem test_decode_str :
    decodeAt d23 ([0x2B] ++ len8 4 ++ [0x61, 0x0D, 0x0A, 0x62, 0x0D, 0x0A]) .authUser 0 =
      .ok (.str [0x61, 0x0D, 0x0A, 0x62]) 15 := by decide
theorem test_decode_time :
    decodeAt d23 ([0x54] ++ len8 2 ++ [0x31, 0x39, 0x0D, 0x0A]) .pingClient 0 = .ok (.time [0x31, 0x39]) 13 := by decide
theorem test_decode_null : decodeAt d23 [0x7C] .pingServer 0 = .ok .null 1 := by decide
/-- OPT_TIME has no word of its own (opcode_table.json's note): its encoding is that of the frame it expands to. -/
theorem test_decode_optTime : decodeAt d23 (encode d23 (.optTime none)) .pingClient 0 = .ok .null 1 := by decide
/-- F18. -/
theorem test_decode_wrong_tag :
    decodeAt d23 [0x00, 0x2A] .flenTag 1 = .invalid (badTag [.frameLength] .flenTag 1 0x2A) := by decide
/-- F30. -/
theorem test_decode_wrong_delim :
    decodeAt d23 ([0x2B] ++ len8 0 ++ [0x58]) .authUser 0 =
      .invalid ⟨.delimMismatch, 9, .delimByte 0x0D .authUser, some 0x58⟩ := by decide
/-- `MSG_PING(t1, none)` is V1, with frame-length value 39 (95 V1, D24). -/
theorem test_msgPing_v1 : msgPing d23 (some t1) none = some v1 := by decide
/-- A4 and A5: `MSG_PING(none, none)` and `MSG_AUTH("user", "")`. -/
theorem test_msgPing_a4 : msgPing d23 none none = some a4 := by decide
theorem test_msgAuth_a5 : msgAuth d23 [0x75, 0x73, 0x65, 0x72] [] = some a5 := by decide
theorem test_encode_flen : encode d23 (.flen 39#64) = 0x3A#8 :: len8 0x27 := by decide

/-! Steps on placed words, and the frames' meanings. -/

theorem test_step_start_after_reset :
    regsOf (step (State.reset.withFetchWord 8 0x2A)) = some { Walk.init with p := 1, g := .flenTag } := by decide
theorem test_step_flen_after_reset :
    (regsOf (step (State.reset.withFetchWord 72 0x27000000000000003A))).map (·.flen) = some (some 39#64) := by decide
theorem test_step_ping_after_reset :
    (regsOf (step (State.reset.withFetchWord 16 0x0123))).map (·.mt) = some (some .ping) := by decide
theorem test_step_null_after_reset :
    (regsOf (step (State.reset.withFetchWord 8 0x7C))).map (·.g) = some .pingServer := by decide
theorem test_step_check_after_reset : outOf (step (State.reset.withFetchWord 8 0)) = .incomplete := by decide
/-- R204: `PARSE` with no complete check before it. -/
theorem test_step_parse_after_reset :
    faultOf (step (State.reset.withFetchWord 8 1)) = some .parsePrecondition := by decide
/-- B10, at the code byte of a walk that stands at the type frame. -/
theorem test_typeSet_not_implemented :
    outOf (exec .typeSet { walking .check .typeTag b10 with regs := { Walk.init with p := 10, g := .typeTag } }) =
      .invalid ⟨.notImplemented, 11, .position .typeCode, some 0x05⟩ := by decide
/-- B7. -/
theorem test_typeInvalid_reported :
    outOf (exec (.typeInvalid 0x08) { State.reset with regs := { Walk.init with p := 10, g := .typeTag } }) =
      .invalid ⟨.invalidMessageType, 11, .position .typeCode, some 0x08⟩ := by decide
/-- F37. -/
theorem test_str_invalid_utf8 :
    outOf (exec (.str [0xFF]) (walking .check .authUser [])) =
      .invalid ⟨.invalidUtf8, 9, .position .authUser, none⟩ := by decide
/-- F33. -/
theorem test_str_empty :
    regsOf (exec (.str []) (walking .parse .authUser [])) =
      some { p := 11, g := .authPass, acc := [.string []], mt := none, flen := none } := by decide
/-- F54. -/
theorem test_time_frame :
    regsOf (exec (.time t1) (walking .parse .pingClient [])) =
      some { p := 36, g := .pingServer, acc := [.time t1 ⟨1000, 0, 0⟩], mt := none, flen := none } := by
  decide +kernel
/-- F60. -/
theorem test_time_empty :
    outOf (exec (.optTime (some [])) (walking .check .pingClient [])) =
      .invalid ⟨.invalidTimestamp, 9, .position .pingClient, none⟩ := by decide
/-- F17. -/
theorem test_flen_oversize :
    outOf (exec (.flen 28#64) { walking .check .flenTag [] with cfg := d23Max 3 }) =
      .invalid ⟨.oversize, 1, .position .flenValue, none⟩ := by decide
/-- F39. -/
theorem test_time_at_string_position :
    outOf (exec (.time []) (walking .check .authUser [])) =
      .invalid ⟨.badTag, 0, .tags [.string] .authUser, some 0x54⟩ := by decide

/-! CHECK and PARSE. -/

/-- A1. -/
theorem test_check_v1 : outOf (exec .check (holding v1)) = .complete 49 := by decide
/-- V1[0 .. 48). -/
theorem test_check_v1_cut : outOf (exec .check (holding (v1.take 48))) = .incomplete := by decide
/-- A10, B33. -/
theorem test_parse_two_messages :
    outOf (exec .parse (confirmedFor 49 (v1 ++ a4))) =
      .parsed 49 [.messageStart, .length 39#64, .messageType .ping, .time t1 ⟨1000, 0, 0⟩, .null] .ping := by
  decide +kernel
/-- B34. -/
theorem test_parse_wrong_length : faultOf (exec .parse (confirmedFor 48 v1)) = some .parsePrecondition := by
  decide
/-- R145, R241: a whole message, but no `CHECK` before, or another byte than the `CHECK` saw. -/
theorem test_parse_unconfirmed :
    faultOf (exec .parse { holding a4 with nIn := 14 }) = some .parsePrecondition ∧
    faultOf (exec .parse { confirmedFor 14 a4 with buffer := Memory.ofBytes (a4.set 9 5) }) = some .parsePrecondition ∧
    (walk d23 .parse (a4.set 9 5)).consumed = some 14 := by decide
/-- `CHECK` of A10's shape confirms the first message alone; an incomplete one confirms nothing. -/
theorem test_check_confirms :
    confirmedOf (exec .check (holding (a4 ++ v1))) = some a4 ∧
    confirmedOf (exec .check (confirmedFor 14 (a4.take 13))) = none := by decide
/-- A5. -/
theorem test_parse_a5 :
    outOf (exec .parse (confirmedFor 38 a5)) =
      .parsed 38 [.messageStart, .length 28#64, .messageType .authenticate, .string [0x75, 0x73, 0x65, 0x72],
        .string []] .authenticate := by decide
/-- B19. -/
theorem test_walk_b19 :
    walk d23 .check (v1.set 47 0x00) =
      .invalid ⟨.delimMismatch, 47, .delimByte 0x0A .pingClient, some 0x00⟩ := by decide
/-- B28: the count is over the limit before any payload byte is present. -/
theorem test_walk_b28 :
    walk (d23Max 1024) .check ([0x2A, 0x3A] ++ len8 0 ++ [0x23, 0x02, 0x2B] ++ List.replicate 8 0xFF) =
      .invalid ⟨.oversize, 13, .position .authUser, none⟩ := by decide
/-- B25: both strings are structurally sound, the second is ill-formed. -/
theorem test_walk_b25 :
    walk d23 .check ([0x2A, 0x3A] ++ len8 0x1A ++ [0x23, 0x02, 0x2B] ++ len8 0 ++ [0x0D, 0x0A, 0x2B] ++ len8 2 ++
      [0xC0, 0x80, 0x0D, 0x0A]) = .invalid ⟨.invalidUtf8, 32, .position .authPass, none⟩ := by decide

/-! UTF-8 and RFC 3339 (F40 to F53, F62 to F78). -/

theorem test_utf8_accepts :
    [[], [0x7F], [0xC3, 0xA9], [0xE2, 0x82, 0xAC], [0xEF, 0xBF, 0xBF], [0xF0, 0x9F, 0x98, 0x80],
      [0xF4, 0x8F, 0xBF, 0xBF]].all utf8Ok = true := by decide
theorem test_utf8_rejects :
    [[0x80], [0xC0, 0x80], [0xE0, 0x80, 0x80], [0xED, 0xA0, 0x80], [0xF4, 0x90, 0x80, 0x80], [0xE2, 0x82],
      [0xFF]].any utf8Ok = false := by decide
/-- F71, F72 spell `.5Z` and `.1234567891Z` after `00:00:00`. -/
theorem test_rfc3339_fraction :
    referenceRfc3339 (day1970 [0x54, 0x30, 0x30, 0x3A, 0x30, 0x30, 0x3A, 0x30, 0x30, 0x2E, 0x31, 0x32, 0x33, 0x34, 0x35,
      0x36, 0x37, 0x38, 0x39, 0x31, 0x5A]) = some ⟨0, 123456789, 0⟩ := by decide
/-- F67: `T00:00:00-01:30`. -/
theorem test_rfc3339_negative_offset :
    referenceRfc3339 (day1970 [0x54, 0x30, 0x30, 0x3A, 0x30, 0x30, 0x3A, 0x30, 0x30, 0x2D, 0x30, 0x31, 0x3A, 0x33,
      0x30]) = some ⟨5400, 0, -5400⟩ := by decide
/-- F73: a space for the `T`. -/
theorem test_rfc3339_space :
    referenceRfc3339 (day1970 [0x20, 0x30, 0x30, 0x3A, 0x30, 0x30, 0x3A, 0x30, 0x30, 0x5A]) = none := by decide
/-- F68, F70: days of 2000-02-29 and 2016-12-31. -/
theorem test_civil_days :
    daysFromCivil 2000 2 29 * 86400 = 951782400 ∧ daysFromCivil 2016 12 31 * 86400 + 86399 = 1483228799 := by decide
/-- F69: 1900 is no leap year. -/
theorem test_february_1900 : daysInMonth 1900 2 = 28 := by decide

/-! Witnesses: for each statement of Obligations.lean with hypotheses, values that meet them, clause by clause, at the
ends of their ranges where they have ends. -/

/-- A limit met exactly. -/
theorem limit_met (m : Nat) : ∀ k, (d23Max m).maxDeclaredLen = some k → m ≤ k := by
  intro k h; cases h; exact Nat.le_refl _

/-- No limit. -/
theorem limit_none (n : Nat) : ∀ k, d23.maxDeclaredLen = some k → n ≤ k := by intro k h; cases h

/-- A byte that is no type code under D23. -/
theorem code_undefined : ∀ t, d23.code t ≠ 0x08#8 := by intro t; cases t <;> decide

/-- A text of the test vectors and one that is none. -/
theorem time_texts : referenceRfc3339 t1 = some ⟨1000, 0, 0⟩ ∧ referenceRfc3339 [] = none := by decide +kernel

theorem wit_tagMatch :
    ([] : List Byte).length ≤ 0 ∧ [0x2A#8][0]? = some (d23.tag .messageStart) ∧
    [0x2B#8][0]? = some 0x2B#8 ∧ (0x2B#8 : Byte) ≠ d23.tag .messageStart ∧ d23.WF := by decide
theorem wit_lengthField :
    (List.replicate 7 0xFF#8).length < 0 + 8 ∧
    slice (List.replicate 8 0xFF#8) 0 (0 + 8) = [0xFF, 0xFF, 0xFF, 0xFF, 0xFF, 0xFF, 0xFF, 0xFF] ∧
    0 + 8 ≤ (List.replicate 8 0xFF#8).length ∧ (len8 0).length = 8 := by decide
theorem wit_typeCode : d23.WF ∧ decodeType d23 0x07 = some .delete ∧ decodeType d23 0x00 = none := by decide
theorem wit_delimiter :
    (∀ i < d23.delim.length, [0x0D#8, 0x0A#8][0 + i]? = d23.delim[i]?) ∧
    d23.delim[1]? = some 0x0A#8 ∧ [0x0D#8, 0x0D#8][0 + 1]? = some 0x0D#8 ∧ (0x0D#8 : Byte) ≠ 0x0A#8 ∧
    (∀ j < 1, [0x0D#8, 0x0D#8][0 + j]? = d23.delim[j]?) ∧
    1 < d23.delim.length ∧ [0x0D#8].length ≤ 0 + 1 ∧ (∀ j < 1, [0x0D#8][0 + j]? = d23.delim[j]?) := by decide
theorem wit_bodyEnds : d23.countOk 0 = true ∧ (d23Max 2).countOk [0x0D#8, 0x0A#8].length = true ∧
    d23.countOk (2 ^ 64 - 1) = true := by decide
theorem wit_utf8 : utf8Ok [0xF4, 0x8F, 0xBF, 0xBF] = true ∧ utf8Ok [] = true := by decide
theorem wit_referenceTimes :
    referenceRfc3339 t1 = some ⟨1000, 0, 0⟩ ∧
    (DateTime.mk 2016 12 31 false 23 59 60 [1, 2, 3, 4, 5, 6, 7, 8, 9, 9] (.numeric true 0 30)).ok = true := by
  decide +kernel
theorem wit_civilDays : 1 ≤ 31 ∧ 1 ≤ 11 ∧ 11 < 12 := by decide
theorem wit_stable :
    pTag d23 [0x2A] .messageStart .start 0 = .ok () 1 ∧ pU64 (len8 1) 0 = .ok 1#64 8 ∧
    pDelim d23 [0x0D, 0x0A] .authUser 0 = .ok () 2 ∧
    pDelim d23 [0x0A] .authUser 0 = .invalid ⟨.delimMismatch, 0, .delimByte 0x0D .authUser, some 0x0A⟩ ∧
    pBody d23 (len8 0 ++ [0x0D, 0x0A]) .authUser 0 = .ok ([], 8) 10 ∧
    (Prim.string .authUser).run d23 ([0x2B] ++ len8 0 ++ [0x0D, 0x0A]) 0 = .ok (.string []) 11 ∧
    (Prim.string .authUser).run d23 [0x2A] 0 = .invalid ⟨.badTag, 0, .tags [.string] .authUser, some 0x2A⟩ := by decide
theorem wit_incomplete :
    (∃ w : List Byte, 0 + 9 + 2 ^ 64 + d23.delim.length ≤ w.length) ∧
    (Prim.string .authUser).run d23 ([0x2B] ++ List.replicate 8 0xFF) 0 = .incomplete := by
  refine ⟨⟨List.replicate (0 + 9 + 2 ^ 64 + d23.delim.length) 0#8, ?_⟩, by decide⟩
  rw [List.length_replicate]
theorem wit_consumes :
    [Prim.run d23 [0x2A] 0 .messageStart, Prim.run d23 ([0x3A] ++ len8 0) 0 .frameLength,
      Prim.run d23 [0x23, 0x07] 0 .messageType, Prim.run d23 ([0x2B] ++ len8 0 ++ [0x0D, 0x0A]) 0 (.string .authPass),
      Prim.run d23 [0x7C] 0 (.null .pingClient), Prim.run d23 [0x7C] 0 (.optTime .pingServer)] =
    [.ok .messageStart 1, .ok (.length 0) 9, .ok (.messageType .delete) 2, .ok (.string []) 11, .ok .null 1,
      .ok .null 1] := by decide
theorem wit_checkOrder :
    (d23Max 3).maxDeclaredLen = some 3 ∧ 3 < (4#64 : U64).toNat ∧
    (∀ m, d23.maxDeclaredLen = some m → (1#64 : U64).toNat ≤ m) ∧ ([] : List Byte).length < (1#64 : U64).toNat ∧
    (∀ m, (d23Max 1).maxDeclaredLen = some m → (1#64 : U64).toNat ≤ m) ∧ [0xFF#8].length = (1#64 : U64).toNat ∧
    (∀ k ∈ [Tag.string, .time], (0x7C#8 : Byte) ≠ d23.tag k) ∧
    d23.delim[0]? = some 0x0D#8 ∧ (0x0A#8 : Byte) ≠ 0x0D#8 ∧ d23.delim[1]? = some 0x0A#8 ∧ 0 < d23.delim.length ∧
    1 < d23.delim.length ∧ utf8Ok [0xFF] = false ∧ (parseRfc3339 d23 []).isSome = false ∧
    ([] : List Byte).length = (0#64 : U64).toNat :=
  ⟨rfl, by decide, limit_none _, by decide, limit_met 1, by decide, by decide, rfl, by decide, rfl, by decide, by decide,
    by decide, by rw [show parseRfc3339 d23 [] = none from time_texts.2]; rfl, rfl⟩
theorem wit_roundTrip :
    d23.WF ∧ ([(Instr.start, Tag.messageStart, Pos.start), (.flen (-1), .frameLength, .flenTag),
      (.typePing, .messageType, .typeTag), (.typeAuthenticate, .messageType, .typeTag),
      (.typeSuccess, .messageType, .typeTag), (.typeFail, .messageType, .typeTag), (.typeSet, .messageType, .typeTag),
      (.typeGet, .messageType, .typeTag), (.typeDelete, .messageType, .typeTag),
      (.typeInvalid 0x08, .messageType, .typeTag), (.str [0x0D], .string, .authPass), (.time [], .time, .pingServer),
      (.null, .null, .pingClient), (.optTime none, .null, .pingServer), (.optTime (some []), .time, .pingClient)].all
        fun x => x.1.wf d23 && x.1.tag? == some x.2.1 && x.2.2.legal.contains x.2.1) = true := by decide
theorem wit_decodedBytes : decodeAt d23 ([0xFF, 0x2B] ++ len8 1 ++ [0x61, 0x0D, 0x0A]) .authPass 1 = .ok (.str [0x61]) 13 := by
  decide
theorem wit_stepRuns :
    (State.reset.withFetchWord 8 0).phase = .command ∧ (State.reset.withFetchWord 8 0).op = .check ∧
    (State.reset.withFetchWord 8 1).phase = .command ∧ (State.reset.withFetchWord 8 1).op = .parse ∧
    (walking .check .pingServer [0x7C]).phase = .walking ∧
    decodeAt (walking .check .pingServer [0x7C]).cfg (walking .check .pingServer [0x7C]).window .pingServer 0 =
      .ok .null 1 := by decide
theorem wit_frameStep :
    (∀ g ∈ [Pos.start, .flenTag, .typeTag, .pingClient, .pingServer, .authUser, .authPass],
      (walking .parse g b10).phase = .walking ∧ (walking .parse g b10).cfg.WF ∧ (primAt (walking .parse g b10).regs.g).isSome) := by
  decide
theorem wit_stepwise :
    (walking .check .start v1).phase = .walking ∧ (walking .check .start v1).regs = Walk.init ∧
    (walking .check .start v1).cfg.WF ∧ (walking .check .start v1).op = .check ∧
    (walking .parse .start v1).phase = .walking ∧ (walking .parse .start v1).regs = Walk.init ∧
    (walking .parse .start v1).op = .parse := by decide
theorem wit_header :
    d23.WF ∧ (walking .check .start []).regs.g = .start ∧ (walking .check .flenTag []).regs.g = .flenTag ∧
    (∀ m, (d23Max 39).maxDeclaredLen = some m → (39#64 : U64).toNat ≤ m) ∧
    (walking .parse .typeTag []).regs.g = .typeTag := ⟨by decide, rfl, rfl, limit_met 39, rfl⟩
theorem wit_reserved :
    d23.WF ∧ (walking .check .typeTag []).regs.g = .typeTag ∧ (walking .check .typeTag []).op = .check ∧
    (walking .parse .typeTag []).op = .parse ∧
    (Instr.typeDelete, MessageType.delete) ∈ [(Instr.typeSuccess, MessageType.success), (.typeFail, .fail),
      (.typeSet, .set), (.typeGet, .get), (.typeDelete, .delete)] := by decide
theorem wit_unknownCode :
    (walking .check .typeTag []).cfg.WF ∧ (walking .check .typeTag []).regs.g = .typeTag ∧
    (∀ t, (walking .check .typeTag []).cfg.code t ≠ 0x08#8) ∧ (walking .check .typeTag []).op = .check ∧
    (walking .parse .typeTag []).op = .parse := ⟨by decide, rfl, code_undefined, rfl, rfl⟩
theorem wit_string :
    (d23Max 1).WF ∧ utf8Ok [0x7F] = true ∧ (∀ m, (d23Max 1).maxDeclaredLen = some m → [0x7F#8].length ≤ m) ∧
    (walking .check .authUser []).regs.g = .authUser ∧ (walking .check .authPass []).regs.g = .authPass :=
  ⟨by decide, by decide, limit_met 1, rfl, rfl⟩
theorem wit_time :
    (d23Max 25).WF ∧ parseRfc3339 (d23Max 25) t1 = some ⟨1000, 0, 0⟩ ∧
    (∀ m, (d23Max 25).maxDeclaredLen = some m → t1.length ≤ m) ∧
    (∀ x ∈ [(Pos.pingClient, Pos.pingServer), (.pingServer, .done)], (walking .check x.1 []).regs.g = x.1) :=
  ⟨by decide, time_texts.1, limit_met 25, by decide⟩
theorem wit_null :
    d23.WF ∧ ∀ x ∈ [(Pos.pingClient, Pos.pingServer), (.pingServer, .done)], (walking .check x.1 []).regs.g = x.1 := by
  decide
theorem wit_content :
    d23.WF ∧ (walking .check .authPass []).op = .check ∧ (∀ m, d23.maxDeclaredLen = some m → [0xFF#8].length ≤ m) ∧
    (walking .check .authPass []).regs.g = .authPass ∧ utf8Ok [0xFF] = false ∧
    (walking .check .pingServer []).regs.g = .pingServer ∧ parseRfc3339 d23 [] = none :=
  ⟨by decide, rfl, limit_none _, rfl, by decide, rfl, time_texts.2⟩
theorem wit_oversize :
    (d23Max 3).WF ∧ (d23Max 3).maxDeclaredLen = some 3 ∧ (walking .check .flenTag []).op = .check ∧
    (walking .check .flenTag []).regs.g = .flenTag ∧ 3 < (4#64 : U64).toNat ∧ 3 < (List.replicate 4 0x61#8).length ∧
    (walking .check .authUser []).regs.g = .authUser ∧ (walking .check .pingServer []).regs.g = .pingServer := by decide
theorem wit_wrongTag :
    d23.WF ∧ (Instr.time []).tag? = some .time ∧ (walking .check .authUser []).regs.g.legal ≠ [] ∧
    Tag.time ∉ (walking .check .authUser []).regs.g.legal ∧ (walking .check .authUser []).op = .check ∧
    (walking .parse .authUser []).op = .parse := by decide
theorem wit_illegal :
    (walking .check .flenTag [0xFF]).phase = .walking ∧ (walking .check .flenTag [0xFF]).op = .check ∧ d23.WF ∧
    (walking .check .flenTag [0xFF]).window[0]? = some 0xFF#8 ∧ Pos.flenTag.legal ≠ [] ∧
    (∀ t ∈ Pos.flenTag.legal, d23.tag t ≠ 0xFF#8) ∧
    (walking .check .typeTag [0x23, 0x08]).window[0]? = some d23.tagMessageType ∧
    (walking .check .typeTag [0x23, 0x08]).window[0 + 1]? = some 0x08#8 ∧ (∀ t, d23.code t ≠ 0x08#8) :=
  ⟨rfl, rfl, by decide, by decide, by decide, by decide, by decide, by decide, code_undefined⟩
theorem wit_refusals :
    ¬ badCfg.WF ∧ d23.WF ∧ (∀ g ∈ [Pos.flenValue, .typeCode, .done], (walking .check g []).regs.g.legal = []) ∧
    Instr.null.tag? ≠ none := by decide
/-- A check of V1, a cut V1 and a broken V1: each outcome of `CheckReturnsOutcome`. -/
theorem wit_check :
    d23.WF ∧ walk d23 .check (holding v1).buffer.bytes = .complete ⟨49, .done, [], some .ping, some 39⟩ ∧
    walk d23 .check (holding (v1.take 48)).buffer.bytes = .incomplete ∧
    walk d23 .check (holding [0xFF]).buffer.bytes =
      .invalid ⟨.badTag, 0, .tags [.messageStart] .start, some 0xFF⟩ := by decide +kernel
/-- A complete check followed by a second message: the hypotheses of `ParseReturnsFrames`. -/
theorem wit_parse :
    d23.WF ∧ walk d23 .check (holding (a5 ++ a4)).buffer.bytes =
      .complete ⟨38, .done, [], some .authenticate, some 28⟩ ∧
    (confirmedFor 38 (a5 ++ a4)).nIn = 38 ∧
    (confirmedFor 38 (a5 ++ a4)).confirmed = some ((confirmedFor 38 (a5 ++ a4)).buffer.bytes.take 38) := by
  decide +kernel
/-- The sides of `ParsePreconditionFault`: no check, one byte short, and the confirmed consumed length. -/
theorem wit_parsePrecondition :
    (holding a4).confirmed ≠ some ((holding a4).buffer.bytes.take 14) ∧
    (walk d23 .parse ((holding a4).buffer.bytes.take 13)).consumed ≠ some 13 ∧
    (confirmedFor 14 a4).confirmed = some ((holding a4).buffer.bytes.take 14) ∧
    (walk d23 .parse ((holding a4).buffer.bytes.take 14)).consumed = some 14 := by decide
/-- An instruction that stays in the walk, and one that ends it: the two shapes of `InstructionFrame`. -/
theorem wit_instructionFrame :
    regsOf (exec .null (walking .check .pingServer [])) = some { Walk.init with p := 1, g := .done } ∧
    regsOf (exec .typeSet (walking .check .typeTag [])) = some Walk.init := by decide
/-- Two states that differ in registers, outputs and phase but hold the same inputs. -/
theorem wit_nothingPersists :
    (walking .parse .authUser a4).cfg = (holding a4).cfg ∧
    (walking .parse .authUser a4).buffer.bytes = (holding a4).buffer.bytes ∧
    (walking .parse .authUser a4).nIn = ({ holding (a4 ++ [0xFF]) with nIn := 14 } : State).nIn ∧
    (walking .parse .authUser a4).buffer.bytes.take 14 = (holding (a4 ++ [0xFF])).buffer.bytes.take 14 ∧
    walking .parse .authUser a4 ≠ holding a4 ∧
    (walking .parse .authUser a4).confirmed = (holding a4).confirmed ∧
    (∀ x ∈ [a4, a4 ++ [0xFF]], faultOf (exec .parse (confirmedFor 14 x)) = none) := by decide
theorem wit_complete : walk d23 .check a4 = .complete ⟨14, .done, [], some .ping, some 4⟩ ∧ a4.length = 14 := by decide
theorem wit_complete_parse :
    walk d23 .parse a4 = .complete ⟨14, .done, [.messageStart, .length 4, .messageType .ping, .null, .null], some .ping,
      some 4⟩ ∧
    walk d23 .parse a5 = .complete ⟨38, .done, [.messageStart, .length 28, .messageType .authenticate,
      .string [0x75, 0x73, 0x65, 0x72], .string []], some .authenticate, some 28⟩ := by decide
theorem wit_pingMessages :
    (d23Max 39).WF ∧ (∀ m, (d23Max 39).maxDeclaredLen = some m → (39#64 : U64).toNat ≤ m) ∧
    optCountOk (d23Max 39) (some t1) = true ∧ optCountOk (d23Max 39) none = true ∧
    optTimeFrame (d23Max 39) (some t1) = some (.time t1 ⟨1000, 0, 0⟩) ∧ optTimeFrame (d23Max 39) none = some .null ∧
    (39#64 : U64).toNat + 10 = (pingMessage (d23Max 39) 39 (some t1) none).length ∧
    msgPing (d23Max 39) (some t1) none ≠ some (pingMessage (d23Max 39) 38 (some t1) none) :=
  ⟨by decide, limit_met 39, by decide, rfl, by decide +kernel, rfl, by decide, by decide⟩
theorem wit_authMessages :
    d23.WF ∧ (∀ m, d23.maxDeclaredLen = some m → (28#64 : U64).toNat ≤ m) ∧ d23.countOk [0x0D#8, 0x0A#8].length = true ∧
    d23.countOk 0 = true ∧ utf8Ok [0x0D, 0x0A] = true ∧ utf8Ok [] = true ∧
    (26#64 : U64).toNat + 10 = (authMessage d23 26 [0x0D, 0x0A] []).length ∧
    msgAuth d23 [0x0D, 0x0A] [] ≠ some (authMessage d23 28 [0x0D, 0x0A] []) :=
  ⟨by decide, limit_none _, by decide, by decide, by decide, by decide, by decide, by decide⟩
/-- `WalkStableUnderAppend`'s invalid case, and `BytesPastMessageNotRead` on a longer window. -/
theorem wit_walkStable :
    walk d23 .check [0x2B] = .invalid ⟨.badTag, 0, .tags [.messageStart] .start, some 0x2B⟩ ∧
    (a4 ++ [0xFF]).take 14 = a4.take 14 := by decide
theorem wit_frontParts : walk d23 .check a4 = .complete ⟨14, .done, [], some .ping, some 4⟩ ∧ 14 = a4.length ∧ 13 < a4.length := by
  decide
theorem wit_lengthNotChecked :
    d23.maxDeclaredLen = none ∧ [0x2A#8, 0x3A#8].length = 2 ∧ (len8 0).length = 8 ∧ (List.replicate 8 0xFF#8).length = 8 := by
  decide
theorem wit_reservedMessage :
    d23.WF ∧ (∀ m, d23.maxDeclaredLen = some m → (-1 : U64).toNat ≤ m) ∧
    MessageType.delete ∈ [MessageType.success, .fail, .set, .get, .delete] := ⟨by decide, limit_none _, by decide⟩

/-- A host that has got this outcome of an operation. -/
def returned (ph : Phase) (o : Output) (bs : List Byte) : State := { holding bs with phase := ph, out := o }

/-- A host that waits for this receive outcome. -/
def waiting (r : Receipt) (bs : List Byte) : State := { holding bs with phase := .receiving, incoming := [r] }

theorem wit_actsOnCheck :
    State.reset.phase = .idle ∧ State.reset.calls = [] ∧
    ({ State.reset with calls := [.readMessageWithTimeout, .readMessage] } : State).nextCall.1 =
      .readMessageWithTimeout ∧
    ({ State.reset with calls := [.readMessage] } : State).nextCall.1 ≠ .readMessageWithTimeout ∧
    (returned .checked (.complete 14) a4).phase = .checked ∧ (returned .checked (.complete 14) a4).out = .complete 14 ∧
    (returned .checked .incomplete []).out = .incomplete ∧
    (returned .checked (.invalid (badTag [] .start 0 0)) []).out = .invalid (badTag [] .start 0 0) := by decide
theorem wit_delivery :
    (returned .parsed (.parsed 14 [] .ping) (a4 ++ a5)).phase = .parsed ∧
    (returned .parsed (.parsed 14 [] .ping) (a4 ++ a5)).out = .parsed 14 [] .ping ∧
    (returned .parsed (.parsed 14 [] .ping) (a4 ++ a5)).buffer.wf = true := by decide
/-- A receive of one byte, and one of two bytes with room for one. -/
theorem wit_receive :
    (waiting (.bytes [0x2A]) a4).phase = .receiving ∧ (waiting (.bytes [0x2A]) a4).eof = false ∧
    (waiting (.bytes [0x2A]) a4).nextReceipt.1 = .bytes [0x2A] ∧ (waiting (.bytes [0x2A]) a4).buffer.wf = true ∧
    (∀ bs ∈ [[0x2A#8], [0x2A, 0x3A]], bs.take ({ waiting (.bytes bs) a4 with recvCap := 1 } : State).recvCap ≠ []) := by
  decide
/-- Each ending: a queue with an outcome and one with none; no byte, a byte after end of stream, a byte without room for
it; an I/O error; a deadline in either call. -/
theorem wit_receiveEndings :
    (waiting (.bytes []) []).incoming = .bytes [] :: [] ∧ State.reset.incoming = [] ∧
    (waiting (.bytes []) []).phase = .receiving ∧ (waiting (.bytes []) []).nextReceipt.1 = .bytes [] ∧
    ({ waiting (.bytes [0x2A]) [] with eof := true } : State).nextReceipt.1 = .bytes [0x2A] ∧
    ({ waiting (.bytes [0x2A]) [] with recvCap := 0 } : State).nextReceipt.1 = .bytes [0x2A] ∧
    (waiting (.bytes [0x2A]) []).eof = false ∧ (waiting (.bytes []) []).buffer = [] ∧
    (waiting (.bytes []) [0x2A]).buffer ≠ [] ∧ (waiting .ioError []).nextReceipt.1 = .ioError ∧
    (waiting .deadline []).nextReceipt.1 = .deadline ∧ (waiting .deadline []).bounded = false ∧
    ({ waiting .deadline [] with bounded := true } : State).bounded = true := by decide
/-- A fatal result stops the connection: the second clause of `StoppedAfterFatalResult`. -/
theorem wit_stopped :
    ({ State.reset with phase := .stopped } : State).phase = .stopped ∧
    (waiting .ioError []).phase ≠ .stopped ∧ (waiting .ioError []).result ≠ some .ioError ∧
    ReadResult.ioError.fatal = true ∧
    answersNext (step (waiting .ioError [])) = true ∧
    resultOf (step (waiting .ioError [])) = some .ioError := by decide
/-- A call after end of stream, with a queued outcome that brings a byte. -/
theorem wit_afterEnd :
    ({ waiting (.bytes [0x2A]) [] with phase := .idle, eof := true } : State).phase = .idle ∧
    State.reset.buffer = [] ∧ State.reset.cfg.WF ∧ State.reset.stepwise = false ∧
    ({ waiting (.bytes [0x2A]) [] with phase := .receiving, eof := true } : State).nextReceipt.1 = .bytes [0x2A] ∧
    answersNext (Sys2Proof.core.run 4 { waiting (.bytes [0x2A]) [] with phase := .idle, eof := true }) = true := by decide
/-- A step that appends, and one that discards: the two changes of `BufferChangesOnlyByHost`. -/
theorem wit_bufferChanges :
    bufferOf (step (waiting (.bytes [0x2A]) [])) = [(0, 0x2A)] ∧
    bufferOf (step (returned .parsed (.parsed 14 [] .ping) (a4 ++ [0x2A]))) = [(0, 0x2A)] := by decide
/-- A step from a state that meets the three invariants. -/
theorem wit_invariants :
    (waiting (.bytes [0x2A]) []).buffer.wf = true ∧ (waiting (.bytes [0x2A]) []).RegistersDiscarded ∧
    (waiting (.bytes [0x2A]) []).LoopInv ∧ (waiting (.bytes [0x2A]) []).phase ≠ .stopped ∧
    answersNext (step (waiting (.bytes [0x2A]) [])) = true :=
  ⟨by decide, fun _ => rfl, ⟨by decide, rfl⟩, by decide, by decide⟩
/-- `LoopInv` inside a walk, on a stopped connection, and with a `PARSE` issued after a complete `CHECK`. -/
theorem wit_loopInv :
    (walking .check .start a4).LoopInv ∧
    ({ State.reset with phase := .stopped, result := some .resetByPeer } : State).LoopInv ∧
    ({ confirmedFor 14 (a4 ++ v1) with op := .parse, phase := .command } : State).LoopInv :=
  ⟨⟨by decide, (nomatch ·), by decide, by decide, rfl⟩, ⟨by decide, rfl⟩, ⟨by decide, fun _ => ⟨by decide, by decide⟩⟩⟩

/-- A connection that holds `bs` and will receive the chunks and then the further outcomes. -/
def feeding (bs : List Byte) (chunks : List (List Byte)) (later : List Receipt) : State :=
  { holding bs with recvCap := 14, incoming := chunks.map Receipt.bytes ++ later }

/-- One byte of `a4` buffered, the rest in two chunks, the last of which brings a byte of the next message. -/
theorem wit_incremental :
    (feeding (a4.take 1) [[0x3A], a4.drop 2 ++ [0x2A]] []).cfg.WF ∧
    (feeding (a4.take 1) [[0x3A], a4.drop 2 ++ [0x2A]] []).phase = .idle ∧
    (feeding (a4.take 1) [[0x3A], a4.drop 2 ++ [0x2A]] []).eof = false ∧
    (feeding (a4.take 1) [[0x3A], a4.drop 2 ++ [0x2A]] []).buffer.wf = true ∧
    (holding (a4.take 1)).buffer.bytes ++ [[0x3A], a4.drop 2 ++ [0x2A]].flatten = a4 ++ [0x2A] ∧
    (∀ x ∈ [[0x3A], a4.drop 2 ++ [0x2A]], x ≠ [] ∧ x.length ≤ 14) ∧
    (∀ x, [[0x3A], a4.drop 2 ++ [0x2A]].getLast? = some x → [0x2A#8].length < x.length) ∧
    walk d23 .parse a4 = .complete ⟨14, .done, [.messageStart, .length 4, .messageType .ping, .null, .null], some .ping,
      some 4⟩ ∧ 14 = a4.length :=
  ⟨by decide, rfl, rfl, by decide, by decide, by decide, by intro x h; cases h; decide, by decide, rfl⟩
/-- The whole message, and more, buffered by earlier calls: no chunk at all. -/
theorem wit_incremental_buffered :
    (feeding (a4 ++ [0x2A]) [] []).buffer.bytes ++ ([] : List (List Byte)).flatten = a4 ++ [0x2A] ∧
    (feeding (a4 ++ [0x2A]) [] []).buffer.wf = true ∧ (feeding (a4 ++ [0x2A]) [] []).incoming = [] ∧
    ([] : List (List Byte)).getLast? = none := by decide
theorem wit_truncation :
    (feeding (a4.take 1) [(a4.take 13).drop 1] [.bytes []]).incoming =
      [(a4.take 13).drop 1].map Receipt.bytes ++ .bytes [] :: [] ∧
    (feeding (a4.take 1) [(a4.take 13).drop 1] [.bytes []]).buffer.bytes ++ [(a4.take 13).drop 1].flatten =
      a4.take 13 ∧ 0 < 13 ∧ 13 < a4.length ∧
    (∀ x ∈ [(a4.take 13).drop 1], x ≠ [] ∧
      x.length ≤ (feeding (a4.take 1) [(a4.take 13).drop 1] [.bytes []]).recvCap) ∧
    walk d23 .check a4 = .complete ⟨14, .done, [], some .ping, some 4⟩ ∧ 14 = a4.length ∧
    (feeding (a4.take 1) [(a4.take 13).drop 1] [.bytes []]).cfg.WF ∧
    (feeding (a4.take 1) [(a4.take 13).drop 1] [.bytes []]).phase = .idle ∧
    (feeding (a4.take 1) [(a4.take 13).drop 1] [.bytes []]).eof = false := by decide

end Sys2Proof.Tests
end

section
/-! The reads of the wire format on a window that spells what they read (spec 30 R78, R79; 40 R101 to R103, R108,
R109): each takes exactly its own bytes, whatever stands before and after them. -/

namespace Sys2Proof.Machine

/-- The eight bytes of a value, most significant first, add up to it (40 R103). -/
theorem be64_bytes64 (v : U64) : be64 (bytes64 v) = v := by
  apply BitVec.eq_of_toNat_eq
  have hv := v.isLt
  simp only [be64, bytes64, List.map_cons, List.map_nil, List.foldl_cons, List.foldl_nil, BitVec.extractLsb'_toNat,
    BitVec.toNat_ofNat, Nat.shiftRight_eq_div_pow]
  omega

/-- A part that stands between two others is the slice from where the first ends. -/
theorem slice_append_middle (a s z : List Byte) : slice (a ++ s ++ z) a.length (a.length + s.length) = s := by
  rw [slice_append z (by simp)]
  simp [slice]

/-- A length field on the eight bytes of a value reads that value (40 R101). -/
theorem pU64_bytes64 (a z : List Byte) (v : U64) :
    pU64 (a ++ bytes64 v ++ z) a.length = .ok v (a.length + 8) := by
  have hs := slice_append_middle a (bytes64 v) z
  rw [Laws.length_bytes64] at hs
  have hl : ¬ a.length + 8 > (a ++ bytes64 v ++ z).length := by
    simp only [List.length_append, Laws.length_bytes64]; omega
  rw [pU64, if_neg hl, hs, be64_bytes64]

/-- The comparison passes over delimiter bytes that all stand in the window (40 R108). -/
theorem pDelimFrom_append (g : Pos) (ds a z : List Byte) :
    pDelimFrom (a ++ ds ++ z) g ds a.length = .ok () (a.length + ds.length) := by
  induction ds generalizing a with
  | nil => rfl
  | cons d ds ih =>
    have hd : byteRead (a ++ d :: ds ++ z) a.length = some d := by
      rw [List.append_assoc]; exact byteRead_append a (ds ++ z) d
    have hrest := ih (a ++ [d])
    simp only [List.length_append, List.length_singleton, List.append_assoc, List.singleton_append] at hrest
    simp only [pDelimFrom, hd, ne_eq, not_true_eq_false, if_false]
    simpa [Nat.add_assoc, Nat.add_comm 1] using hrest

/-- The delimiter matches its own bytes (40 R108). -/
theorem pDelim_delim (c : Cfg) (g : Pos) (a z : List Byte) :
    pDelim c (a ++ c.delim ++ z) g a.length = .ok () (a.length + c.delim.length) :=
  pDelimFrom_append g c.delim a z

/-- A count that can be declared fits the 8-byte field, and the limit if there is one (00 R12, R13). -/
theorem countOk_iff (c : Cfg) (n : Nat) :
    c.countOk n = true ↔ n < 2 ^ 64 ∧ ∀ m, c.maxDeclaredLen = some m → n ≤ m := by
  unfold Cfg.countOk
  cases c.maxDeclaredLen <;> simp

/-- Within the limit the limit check goes on (40 R102). -/
theorem cap_of_le {α : Type} {c : Cfg} {v : Nat} (h : ∀ m, c.maxDeclaredLen = some m → v ≤ m) (q : Nat) (g : Pos)
    (k : Res α) : cap c v q g k = k := by
  obtain ⟨-, e⟩ | ⟨m, hm, hlt, -⟩ := cap_cases c v q g k
  · exact e
  · exact absurd (h m hm) (Nat.not_le.mpr hlt)

/-- A count, as many bytes as it says, and the delimiter are a body: no step looks at the payload's bytes (30 R79,
40 R109). -/
theorem pBody_bytes64 {c : Cfg} {n : U64} {s : List Byte} (hn : n.toNat = s.length)
    (hlimit : ∀ m, c.maxDeclaredLen = some m → s.length ≤ m) (a z : List Byte) (g : Pos) :
    pBody c (a ++ bytes64 n ++ s ++ c.delim ++ z) g a.length =
      .ok (s, a.length + 8) (a.length + 8 + s.length + c.delim.length) := by
  have hcount : (a ++ bytes64 n).length = a.length + 8 := by rw [List.length_append, Laws.length_bytes64]
  have hpayload : (a ++ bytes64 n ++ s).length = a.length + 8 + s.length := by rw [List.length_append, hcount]
  have hread : pU64 (a ++ bytes64 n ++ s ++ c.delim ++ z) a.length = .ok n (a.length + 8) := by
    simpa only [List.append_assoc] using pU64_bytes64 a (s ++ c.delim ++ z) n
  have hslice : slice (a ++ bytes64 n ++ s ++ c.delim ++ z) (a.length + 8) (a.length + 8 + s.length) = s := by
    simpa only [hcount, List.append_assoc] using slice_append_middle (a ++ bytes64 n) s (c.delim ++ z)
  have hdelim := pDelim_delim c g (a ++ bytes64 n ++ s) z
  have hfull : ¬ a.length + 8 + s.length > (a ++ bytes64 n ++ s ++ c.delim ++ z).length := by
    rw [List.length_append, List.length_append, hpayload]; omega
  rw [hpayload] at hdelim
  rw [pBody, hread, Res.andThen_ok, hn, cap_of_le hlimit, if_neg hfull, hdelim, Res.andThen_ok, hslice]

/-- The body of a string or time frame reads back the payload it was written from. -/
theorem pBody_encodeBody {c : Cfg} {s : List Byte} (h : c.countOk s.length = true) (a z : List Byte) (g : Pos) :
    pBody c (a ++ encodeBody c s ++ z) g a.length =
      .ok (s, a.length + 8) (a.length + 8 + s.length + c.delim.length) := by
  obtain ⟨hfits, hlimit⟩ := (countOk_iff c _).mp h
  have hn : (BitVec.ofNat 64 s.length).toNat = s.length := by rw [BitVec.toNat_ofNat, Nat.mod_eq_of_lt hfits]
  simpa only [encodeBody, List.append_assoc] using pBody_bytes64 hn hlimit a z g

/-- Settles O7: the count is read first, so the payload and the delimiter are found by position alone. -/
theorem bodyEndsByCount : Obligations.BodyEndsByCount := by
  intro c pre payload tail g hcount
  exact pBody_encodeBody hcount pre tail g

end Sys2Proof.Machine
end

section
/-! The reads of single fields (spec 40 R100, R101, R103, R106): the tag match, the 8-byte length field and the
byte-to-type conversion, each by what stands in the window. -/

namespace Sys2Proof.Machine

/-! The length field. -/

/-- The value of eight bytes, written out: the first byte has the highest weight (40 R103). -/
theorem toNat_be64 (b0 b1 b2 b3 b4 b5 b6 b7 : Byte) :
    (be64 [b0, b1, b2, b3, b4, b5, b6, b7]).toNat =
      b0.toNat * 2 ^ 56 + b1.toNat * 2 ^ 48 + b2.toNat * 2 ^ 40 + b3.toNat * 2 ^ 32 +
        b4.toNat * 2 ^ 24 + b5.toNat * 2 ^ 16 + b6.toNat * 2 ^ 8 + b7.toNat := by
  simp only [be64, List.foldl_cons, List.foldl_nil, BitVec.toNat_ofNat]
  omega

/-- Eight bytes are the spelling of what they read as: the place values of `toNat_be64` separate again under division
and remainder (30 R78, 40 R103). -/
theorem bytes64_be64 {s : List Byte} (h : s.length = 8) : bytes64 (be64 s) = s := by
  obtain ⟨b0, b1, b2, b3, b4, b5, b6, b7, rfl⟩ :
      ∃ b0 b1 b2 b3 b4 b5 b6 b7, s = [b0, b1, b2, b3, b4, b5, b6, b7] := by
    match s, h with
    | [b0, b1, b2, b3, b4, b5, b6, b7], _ => exact ⟨b0, b1, b2, b3, b4, b5, b6, b7, rfl⟩
  have hv := toNat_be64 b0 b1 b2 b3 b4 b5 b6 b7
  simp only [bytes64, List.map_cons, List.map_nil, List.cons.injEq, and_true, ← BitVec.toNat_inj,
    BitVec.extractLsb'_toNat, Nat.shiftRight_eq_div_pow, hv]
  omega

/-- A length field whose bytes are not all present is incomplete (40 R101). -/
theorem pU64_of_short {w : List Byte} {p : Nat} (h : w.length < p + 8) : pU64 w p = .incomplete :=
  if_pos h

/-- A length field whose bytes are all present is read, whatever they are (40 R101). -/
theorem pU64_of_present {w : List Byte} {p : Nat} (h : p + 8 ≤ w.length) :
    pU64 w p = .ok (be64 (slice w p (p + 8))) (p + 8) :=
  if_neg (Nat.not_lt.mpr h)

/-- No length field is invalid (40 R101). -/
theorem pU64_ne_invalid (w : List Byte) (p : Nat) (e : ErrorRecord) : pU64 w p ≠ .invalid e := by
  rcases Nat.lt_or_ge w.length (p + 8) with h | h
  · simp [pU64_of_short h]
  · simp [pU64_of_present h]

/-- Only a window that reaches past the field has eight bytes there. -/
theorem le_length_of_length_slice {w : List Byte} {p : Nat} (h : (slice w p (p + 8)).length = 8) :
    p + 8 ≤ w.length := by
  rw [length_slice] at h
  omega

/-- Settles O4: the two outcomes of the read are those of its length check, and place values carry the bytes to the
number and back. -/
theorem lengthFieldIsBigEndian : Obligations.LengthFieldIsBigEndian := by
  intro w p
  refine ⟨pU64_of_short, ?_, fun h => ⟨_, pU64_of_present h⟩, pU64_ne_invalid w p, be64_bytes64,
    fun _ => bytes64_be64⟩
  intro b0 b1 b2 b3 b4 b5 b6 b7 hs
  have hp : p + 8 ≤ w.length := le_length_of_length_slice (by rw [hs]; rfl)
  exact ⟨_, by rw [pU64_of_present hp, hs], toNat_be64 b0 b1 b2 b3 b4 b5 b6 b7⟩

/-! The tag match. -/

/-- A tag match is incomplete exactly at or beyond the window's end (40 R100). -/
theorem pTag_eq_incomplete_iff (c : Cfg) (w : List Byte) (t : Tag) (g : Pos) (p : Nat) :
    pTag c w t g p = .incomplete ↔ w.length ≤ p := by
  rw [← List.getElem?_eq_none_iff, ← byteRead]
  obtain ⟨hb, hr⟩ | ⟨hb, hr⟩ | ⟨b, hb, -, hr⟩ := pTag_cases c w t g p <;> simp [hb, hr]

/-- A tag match on the tag's own byte takes it (40 R100). -/
theorem pTag_of_tag {c : Cfg} {w : List Byte} {t : Tag} {p : Nat} (h : byteRead w p = some (c.tag t)) (g : Pos) :
    pTag c w t g p = .ok () (p + 1) := by
  simp [pTag, h]

/-- A tag match on another byte is `BAD_TAG` at that byte (40 R100). -/
theorem pTag_of_ne {c : Cfg} {w : List Byte} {t : Tag} {p : Nat} {b : Byte} (h : byteRead w p = some b)
    (hb : b ≠ c.tag t) (g : Pos) : pTag c w t g p = .invalid (badTag [t] g p b) := by
  simp [pTag, h, hb]

/-- Settles O3: the outcome is that of the byte at the cursor; the rule's example rests on the tags being distinct. -/
theorem tagMatchOutcomes : Obligations.TagMatchOutcomes := by
  intro c w t g p
  refine ⟨pTag_eq_incomplete_iff c w t g p, fun h => pTag_of_tag h g, fun b h hb => pTag_of_ne h hb g, fun hc => ?_⟩
  have hne : c.tag .null ≠ c.tag .messageStart := fun e => nomatch Cfg.tag_injective hc e
  exact pTag_of_ne rfl hne g

/-! The byte-to-type conversion. -/

/-- A byte decodes to no type exactly when it is the code of none (40 R106). -/
theorem decodeType_eq_none {c : Cfg} {b : Byte} : decodeType c b = none ↔ ∀ t, c.code t ≠ b := by
  have hall : ∀ t, t ∈ MessageType.all := fun t => by cases t <;> decide
  simp [decodeType, hall]

/-- Under a well-formed configuration the code of a type decodes to it (40 R106). -/
theorem decodeType_code {c : Cfg} (h : c.WF) (t : MessageType) : decodeType c (c.code t) = some t := by
  cases hd : decodeType c (c.code t) with
  | none => exact absurd rfl (decodeType_eq_none.mp hd t)
  | some u => rw [Cfg.code_injective h (decodeType_sound hd)]

/-- Settles O5: a decoded type always has the byte as its code; the converse rests on the codes being distinct. -/
theorem typeCodeConversion : Obligations.TypeCodeConversion := by
  intro c hc b
  refine ⟨fun t => ⟨decodeType_sound, ?_⟩, decodeType_eq_none⟩
  rintro rfl
  exact decodeType_code hc t

end Sys2Proof.Machine
end

section
/-! What a step does to the receive buffer (spec 20 section 1; 42 R172, R173): FPA only reads it, so an instruction
leaves it as it is; of the host's moves only a delivery and a receive write it. -/

namespace Sys2Proof.Machine

/-! What an instruction can answer. -/

/-- A frame at the cursor was taken, or the walk of the operation in progress ended (41 R140). -/
def TakesFrameOrEnds (s t : State) : Prop :=
  (∃ f p', t = s.takeFrame f p') ∨ ∃ e, endWalk s e = .next t

/-- A primitive's result takes a frame or ends the walk. -/
theorem stepResult_takesFrameOrEnds {s t : State} {r : Res Frame} (h : stepResult s r = .next t) :
    TakesFrameOrEnds s t := by
  obtain ⟨f, p', -, ht⟩ | ⟨-, he⟩ | ⟨e, -, he⟩ := stepResult_next h
  · exact .inl ⟨f, p', ht⟩
  · exact .inr ⟨_, he⟩
  · exact .inr ⟨_, he⟩

/-- The tag check adds only one more way to end the walk: `BAD_TAG` (30 R87). -/
theorem onTag_takesFrameOrEnds {s t : State} {u : Tag} {k : Answer} (h : onTag s u k = .next t)
    (hk : k = .next t → TakesFrameOrEnds s t) : TakesFrameOrEnds s t := by
  obtain ⟨-, -, ⟨-, h⟩ | ⟨-, h⟩⟩ := onTag_next h
  · exact hk h
  · exact .inr ⟨_, h⟩

/-- A frame that is the result of a primitive behind a tag check. -/
theorem onTag_stepResult_takesFrameOrEnds {s t : State} {u : Tag} {r : Res Frame}
    (h : onTag s u (stepResult s r) = .next t) : TakesFrameOrEnds s t :=
  onTag_takesFrameOrEnds h stepResult_takesFrameOrEnds

/-- A message type is taken or ends the walk; a reserved one ends it (41 R142). -/
theorem execType_takesFrameOrEnds {s t : State} {ty : MessageType} (h : execType ty s = .next t) :
    TakesFrameOrEnds s t := by
  refine onTag_takesFrameOrEnds h fun hk => ?_
  split at hk
  · exact .inr ⟨_, hk⟩
  · exact stepResult_takesFrameOrEnds hk

/-- A code byte is the frame of its type, or the primitive's `INVALID_MESSAGE_TYPE` (30 R89). -/
theorem execTypeInvalid_takesFrameOrEnds {s t : State} {b : Byte} (h : execTypeInvalid b s = .next t) :
    TakesFrameOrEnds s t := by
  unfold execTypeInvalid at h
  split at h
  · exact execType_takesFrameOrEnds h
  · exact onTag_stepResult_takesFrameOrEnds h

/-- A command that answers a next state has ended its walk (41 R144, R145). -/
theorem transact_next {s t : State} {op : Command} (h : transact op s = .next t) :
    ∃ e, endWalk { s with op := op } e = .next t := by
  obtain ⟨-, hr⟩ | ⟨-, hr⟩ := requireCfg_cases s
    (endWalk { s with op := op } (walk s.cfg op ({ s with op := op } : State).window))
  · exact ⟨_, hr.symm.trans h⟩
  · exact nomatch hr.symm.trans h

/-- If an instruction answers a next state, it was a command whose walk ended, or it took a frame or ended the walk of
the operation in progress. -/
theorem exec_next {i : Instr} {s t : State} (h : exec i s = .next t) :
    (∃ op e, i = commandInstr op ∧ endWalk { s with op := op } e = .next t) ∨ TakesFrameOrEnds s t := by
  cases i with
  | check => exact .inl ⟨.check, (transact_next h).imp fun _ he => ⟨rfl, he⟩⟩
  | parse => exact .inl ⟨.parse, (transact_next h).imp fun _ he => ⟨rfl, he⟩⟩
  | start | flen | str | time | null => exact .inr (onTag_stepResult_takesFrameOrEnds h)
  | typePing | typeAuthenticate | typeSuccess | typeFail | typeSet | typeGet | typeDelete =>
    exact .inr (execType_takesFrameOrEnds h)
  | typeInvalid b => exact .inr (execTypeInvalid_takesFrameOrEnds h)
  | optTime x => cases x <;> exact .inr (onTag_stepResult_takesFrameOrEnds h)

/-! The buffer. -/

@[simp] theorem State.nextReceipt_buffer (s : State) : s.nextReceipt.2.buffer = s.buffer := by
  rw [State.nextReceipt_eq s]

@[simp] theorem State.nextReceipt_recvCap (s : State) : s.nextReceipt.2.recvCap = s.recvCap := by
  rw [State.nextReceipt_eq s]

@[simp] theorem endOfStream_buffer (s : State) : (endOfStream s).buffer = s.buffer := rfl

/-- The end of a walk leaves the buffer as it is. -/
theorem endWalk_buffer {s t : State} {e : WalkEnd} (h : endWalk s e = .next t) : t.buffer = s.buffer := by
  obtain ⟨-, rfl⟩ | ⟨-, r, ty, -, -, -, -, rfl⟩ := endWalk_next h <;> rfl

/-- An instruction leaves the buffer as it is (20 R53). -/
theorem exec_buffer {i : Instr} {s t : State} (h : exec i s = .next t) : t.buffer = s.buffer := by
  obtain ⟨op, e, -, he⟩ | ⟨f, p', rfl⟩ | ⟨e, he⟩ := exec_next h
  · exact (endWalk_buffer he :)
  · rfl
  · exact endWalk_buffer he

/-- The end of a walk found by the fetch leaves the buffer as it is. -/
theorem endFetched_buffer {s t : State} {e : WalkEnd} (h : endFetched s e = .next t) : t.buffer = s.buffer := by
  unfold endFetched requireCfg at h
  split at h
  · split at h
    · cases h
    · exact endWalk_buffer h
  · cases h

/-- A call of the caller leaves the buffer as it is (42 R171). -/
theorem callRead_buffer {s t : State} (h : callRead s = .next t) : t.buffer = s.buffer := by
  obtain ⟨b, cs, d, hr⟩ := callRead_eq s
  obtain rfl := Host.Outcome.next.inj (hr.symm.trans h)
  rfl

/-- Acting on a check leaves the buffer as it is (42 R171). -/
theorem actOnCheck_buffer {s t : State} (h : actOnCheck s = .next t) : t.buffer = s.buffer := by
  obtain ⟨n, -, -, rfl⟩ | ⟨e, -, -, rfl⟩ | ⟨-, rfl⟩ := actOnCheck_next h <;> rfl

/-- Obtained bytes are appended, as many as the receive takes; when it takes none, the buffer stays (42 R173). -/
theorem obtained_buffer (s : State) (bs : List Byte) :
    (obtained s bs).buffer = s.buffer ∨ (obtained s bs).buffer = s.buffer.append (bs.take s.recvCap) := by
  obtain ⟨inc, ⟨-, ho⟩ | ⟨-, ho⟩⟩ := obtained_cases s bs
  · exact .inl (by rw [ho, endOfStream_buffer])
  · exact .inr (by rw [ho, State.issue_buffer])

/-- A receive leaves the buffer as it is, or it completed before end of stream and its bytes are appended (42 R173,
R174). -/
theorem receive_buffer {s t : State} (h : receive s = .next t) :
    t.buffer = s.buffer ∨
    (s.eof = false ∧ ∃ bs, s.nextReceipt.1 = .bytes bs ∧ t.buffer = s.buffer.append (bs.take s.recvCap)) := by
  obtain ⟨-, hr⟩ | ⟨-, -, hr⟩ | ⟨-, -, hr⟩ | ⟨bs, hbs, ⟨-, hr⟩ | ⟨heof, hr⟩⟩ := receive_cases s <;>
    obtain rfl := Host.Outcome.next.inj (hr.symm.trans h)
  · exact .inl s.nextReceipt_buffer
  · exact .inl s.nextReceipt_buffer
  · exact .inl s.nextReceipt_buffer
  · exact .inl s.nextReceipt_buffer
  · have ho := obtained_buffer s.nextReceipt.2 bs
    rw [State.nextReceipt_buffer, State.nextReceipt_recvCap] at ho
    exact ho.imp_right fun ha => ⟨heof, bs, hbs, ha⟩

/-- Settles O53: by whose move the step was; the buffer changes in the two moves that write it. -/
theorem bufferChangesOnlyByHost : Obligations.BufferChangesOnlyByHost := by
  intro s t h
  obtain ⟨-, hm⟩ | ⟨-, hm⟩ | ⟨-, i, -, hm⟩ | ⟨-, e, -, hm⟩ | ⟨-, hm⟩ | ⟨hph, hm⟩ | ⟨hph, hm⟩ := step_next h
  · exact .inl (callRead_buffer hm)
  · exact .inl (exec_buffer hm)
  · exact .inl (exec_buffer hm)
  · exact .inl (endFetched_buffer hm)
  · exact .inl (actOnCheck_buffer hm)
  · obtain ⟨n, fs, ty, hn, -, -, rfl⟩ := deliver_next hm
    exact .inr (.inr ⟨hph, n, hn, rfl, Memory.bytes_advance s.buffer n⟩)
  · exact (receive_buffer hm).imp_right fun ⟨heof, hb⟩ => .inl ⟨hph, heof, hb⟩

end Sys2Proof.Machine
end

section
/-! What an `Ok` of a primitive says of the window (spec 40 R117 to R119): the bytes from the cursor to the new cursor
spell the value that was read, and they alone decide the answer. -/

namespace Sys2Proof.Machine

/-! Parts of a window. -/

/-- The bytes `bs` stand in the window from `p` up to `p'`. -/
def Spans (w : List Byte) (p : Nat) (bs : List Byte) (p' : Nat) : Prop := p' = p + bs.length ∧ bs <+: w.drop p

/-- A spanned part after a front part and before any bytes. -/
theorem spans_append_middle (a bs z : List Byte) : Spans (a ++ bs ++ z) a.length bs (a.length + bs.length) :=
  ⟨rfl, by simp⟩

/-- A spanned part that is two parts: one after the other. -/
theorem spans_append {w a b : List Byte} {p p' : Nat} :
    Spans w p (a ++ b) p' ↔ ∃ q, Spans w p a q ∧ Spans w q b p' := by
  constructor
  · rintro ⟨rfl, z, hz⟩
    refine ⟨p + a.length, ⟨rfl, b ++ z, by simpa using hz⟩, by simp [Nat.add_assoc], z, ?_⟩
    rw [← List.drop_drop, ← hz]; simp
  · rintro ⟨q, ⟨rfl, y, hy⟩, rfl, z, hz⟩
    refine ⟨by simp [Nat.add_assoc], z, ?_⟩
    rw [← List.drop_drop, ← hy, List.drop_left] at hz
    rw [← hy, ← hz, List.append_assoc]

/-- A spanned part that begins with a byte. -/
theorem spans_cons {w : List Byte} {b : Byte} {bs : List Byte} {p p' : Nat} :
    Spans w p (b :: bs) p' ↔ byteRead w p = some b ∧ Spans w (p + 1) bs p' := by
  unfold Spans byteRead
  rw [List.length_cons, ← List.drop_drop, ← List.head?_drop]
  cases w.drop p with
  | nil => simp
  | cons x l =>
    simp only [List.cons_prefix_cons, List.head?_cons, Option.some.injEq, List.drop_one, List.tail_cons,
      eq_comm (a := b)]
    constructor
    · rintro ⟨h, hx, hp⟩; exact ⟨hx, by omega, hp⟩
    · rintro ⟨hx, h, hp⟩; exact ⟨by omega, hx, hp⟩

/-- The empty part. -/
theorem spans_nil {w : List Byte} {p p' : Nat} : Spans w p [] p' ↔ p' = p := by simp [Spans]

/-- A spanned part is the slice between its two offsets. -/
theorem Spans.slice_eq {w bs : List Byte} {p p' : Nat} (h : Spans w p bs p') : slice w p p' = bs := by
  obtain ⟨rfl, z, hz⟩ := h
  simp [slice, ← hz]

/-- A slice is spanned when its bytes are all present. -/
theorem spans_slice {w : List Byte} {p p' : Nat} (hp : p ≤ p') (h : p' ≤ w.length) : Spans w p (slice w p p') p' :=
  ⟨by rw [length_slice]; omega, List.take_prefix _ _⟩

/-- A spanned part ends within the window. -/
theorem Spans.le_length {w bs : List Byte} {p p' : Nat} (h : Spans w p bs p') (hb : bs ≠ []) : p' ≤ w.length := by
  obtain ⟨rfl, hz⟩ := h
  have hl := hz.length_le
  have := List.length_pos_iff.mpr hb
  rw [List.length_drop] at hl
  omega

/-- A non-empty spanned part cuts the window in three. -/
theorem Spans.exists_append {w bs : List Byte} {p p' : Nat} (h : Spans w p bs p') (hb : bs ≠ []) :
    ∃ a z, w = a ++ bs ++ z ∧ p = a.length := by
  have hl := h.le_length hb
  obtain ⟨rfl, z, hz⟩ := h
  exact ⟨w.take p, z, by rw [List.append_assoc, hz, List.take_append_drop], by rw [List.length_take]; omega⟩

/-- A window cut at or after a spanned part still spans it. -/
theorem Spans.take {w bs : List Byte} {p p' n : Nat} (h : Spans w p bs p') (hn : p' ≤ n) :
    Spans (w.take n) p bs p' := by
  obtain ⟨rfl, hz⟩ := h
  refine ⟨rfl, ?_⟩
  rw [List.drop_take, List.prefix_take_iff]
  exact ⟨hz, by omega⟩

/-! The reads of single fields. -/

/-- A declared length that the limit, if there is one, lets through (00 R12). -/
abbrev Admits (c : Cfg) (n : Nat) : Prop := ∀ m, c.maxDeclaredLen = some m → n ≤ m

/-- A tag match is `Ok` exactly on the tag's byte (40 R100). -/
theorem pTag_eq_ok {c : Cfg} {w : List Byte} {t : Tag} {g : Pos} {p p' : Nat} {u : Unit} :
    pTag c w t g p = .ok u p' ↔ Spans w p [c.tag t] p' := by
  rw [spans_cons, spans_nil]
  obtain ⟨hb, hr⟩ | ⟨hb, hr⟩ | ⟨b, hb, hne, hr⟩ := pTag_cases c w t g p
  · simp [hb, hr]
  · simp [hb, hr, eq_comm]
  · simp [hb, hr, hne]

/-- A length field is `Ok` exactly on the spelling of its value (40 R101). -/
theorem pU64_eq_ok {w : List Byte} {p p' : Nat} {v : U64} : pU64 w p = .ok v p' ↔ Spans w p (bytes64 v) p' := by
  constructor
  · intro h
    rcases Nat.lt_or_ge w.length (p + 8) with hs | hs
    · simp [pU64_of_short hs] at h
    · rw [pU64_of_present hs] at h
      injection h with hv hp
      subst hv hp
      have hl : (slice w p (p + 8)).length = 8 := by rw [length_slice]; omega
      rw [bytes64_be64 hl]
      exact spans_slice (by omega) hs
  · intro h
    obtain ⟨a, z, rfl, rfl⟩ := h.exists_append (by simp [bytes64])
    rw [pU64_bytes64, h.1, Laws.length_bytes64]

/-- The comparison of the delimiter bytes is `Ok` exactly where they all stand (40 R108). -/
theorem pDelimFrom_eq_ok {w : List Byte} {g : Pos} {ds : List Byte} {q p' : Nat} {u : Unit} :
    pDelimFrom w g ds q = .ok u p' ↔ Spans w q ds p' := by
  induction ds generalizing q with
  | nil => simp [pDelimFrom, spans_nil, eq_comm]
  | cons d ds ih =>
    rw [spans_cons, ← ih, pDelimFrom]
    cases byteRead w q with
    | none => simp
    | some b => by_cases hb : b = d <;> simp [hb]

/-- The limit passes a result through exactly when it admits the count (40 R102). -/
theorem cap_eq_ok {α : Type} {c : Cfg} {v q p' : Nat} {g : Pos} {k : Res α} {x : α} :
    cap c v q g k = .ok x p' ↔ Admits c v ∧ k = .ok x p' := by
  obtain ⟨hv, h⟩ | ⟨m, hm, hlt, h⟩ := cap_cases c v q g k
  · rw [h, iff_and_self]
    exact fun _ => hv
  · have : ¬ Admits c v := fun ha => Nat.not_le.mpr hlt (ha m hm)
    simp [h, this]

theorem encodeBody_ne_nil (c : Cfg) (s : List Byte) : encodeBody c s ≠ [] := by simp [encodeBody, bytes64]

/-- A body is `Ok` exactly on the encoding of a payload whose count can be declared (40 R109). -/
theorem pBody_eq_ok {c : Cfg} {w : List Byte} {g : Pos} {q p' : Nat} {b : List Byte × Nat} :
    pBody c w g q = .ok b p' ↔ c.countOk b.1.length = true ∧ b.2 = q + 8 ∧ Spans w q (encodeBody c b.1) p' := by
  obtain ⟨s, s0⟩ := b
  constructor
  · intro h
    obtain ⟨v, q1, hv, h⟩ := Res.andThen_eq_ok.mp h
    obtain ⟨hadm, h⟩ := cap_eq_ok.mp h
    split at h
    · cases h
    · rename_i hlen
      obtain ⟨u, q2, hd, h⟩ := Res.andThen_eq_ok.mp h
      injection h with hs hp
      obtain ⟨rfl, rfl⟩ := Prod.mk.inj hs
      subst hp
      have hv := pU64_eq_ok.mp hv
      have hq1 : q1 = q + 8 := by simpa [Laws.length_bytes64] using hv.1
      have hpay : Spans w q1 (slice w q1 (q1 + v.toNat)) (q1 + v.toNat) := spans_slice (by omega) (by omega)
      have hn : (slice w q1 (q1 + v.toNat)).length = v.toNat := by rw [length_slice]; omega
      simp only [hn, encodeBody, BitVec.ofNat_toNat, BitVec.setWidth_eq]
      refine ⟨(countOk_iff c _).mpr ⟨v.isLt, hadm⟩, hq1, ?_⟩
      exact spans_append.mpr ⟨_, spans_append.mpr ⟨_, hv, hpay⟩, pDelimFrom_eq_ok.mp hd⟩
  · rintro ⟨hcount, hs0, h⟩
    dsimp only at hcount hs0 h
    obtain ⟨a, z, rfl, rfl⟩ := h.exists_append (encodeBody_ne_nil c s)
    rw [pBody_encodeBody hcount, hs0, h.1, Laws.length_encodeBody]
    simp only [Nat.add_assoc]

/-! The frame primitives. -/

/-- The frames a primitive can return (40 R104 to R114): what its own checks let through, beside the bytes. -/
inductive Prim.Accepts (c : Cfg) : Prim → Frame → Prop
  | messageStart : Accepts c .messageStart .messageStart
  | length {v : U64} : Admits c v.toNat → Accepts c .frameLength (.length v)
  | messageType {t : MessageType} : decodeType c (c.code t) = some t → Accepts c .messageType (.messageType t)
  | string {g : Pos} {s : List Byte} : c.countOk s.length = true → utf8Ok s = true → Accepts c (.string g) (.string s)
  | time {g : Pos} {s : List Byte} {i : Instant} : c.countOk s.length = true → parseRfc3339 c s = some i →
      Accepts c (.time g) (.time s i)
  | null {g : Pos} : Accepts c (.null g) .null
  | optTime {g : Pos} {s : List Byte} {i : Instant} : c.countOk s.length = true → parseRfc3339 c s = some i →
      Accepts c (.optTime g) (.time s i)
  | optNull {g : Pos} : c.tagNull ≠ c.tagTime → Accepts c (.optTime g) .null

theorem pMessageStart_eq_ok {c : Cfg} {w : List Byte} {p p' : Nat} {f : Frame} :
    pMessageStart c w p = .ok f p' ↔ Prim.messageStart.Accepts c f ∧ Spans w p (encodeFrame c f) p' := by
  simp only [pMessageStart, Res.andThen_eq_ok, pTag_eq_ok]
  constructor
  · rintro ⟨u, q, htag, h⟩
    obtain ⟨rfl, rfl⟩ := Res.ok.inj h
    exact ⟨.messageStart, htag⟩
  · rintro ⟨⟨⟩, h⟩
    exact ⟨(), p', h, rfl⟩

theorem pFrameLength_eq_ok {c : Cfg} {w : List Byte} {p p' : Nat} {f : Frame} :
    pFrameLength c w p = .ok f p' ↔ Prim.frameLength.Accepts c f ∧ Spans w p (encodeFrame c f) p' := by
  simp only [pFrameLength, Res.andThen_eq_ok, pTag_eq_ok, pU64_eq_ok, lengthFrame, cap_eq_ok]
  constructor
  · rintro ⟨u, q, htag, v, q', hv, hadm, h⟩
    obtain ⟨rfl, rfl⟩ := Res.ok.inj h
    exact ⟨.length hadm, spans_append.mpr ⟨q, htag, hv⟩⟩
  · rintro ⟨hacc, h⟩
    cases hacc with | length hadm => ?_
    obtain ⟨q, htag, hv⟩ := spans_append (a := [c.tagFrameLength]).mp h
    exact ⟨(), q, htag, _, p', hv, hadm, rfl⟩

theorem typeFrame_eq_ok {c : Cfg} {b : Byte} {q p' : Nat} {f : Frame} :
    typeFrame c b q = .ok f p' ↔ ∃ t, decodeType c b = some t ∧ f = .messageType t ∧ p' = q + 1 := by
  unfold typeFrame
  cases decodeType c b <;> simp [eq_comm]

theorem pMessageType_eq_ok {c : Cfg} {w : List Byte} {p p' : Nat} {f : Frame} :
    pMessageType c w p = .ok f p' ↔ Prim.messageType.Accepts c f ∧ Spans w p (encodeFrame c f) p' := by
  simp only [pMessageType, Res.andThen_eq_ok, pTag_eq_ok]
  constructor
  · rintro ⟨u, q, htag, h⟩
    cases hb : byteRead w q with
    | none => simp [hb] at h
    | some b =>
      simp only [hb, typeFrame_eq_ok] at h
      obtain ⟨t, ht, rfl, rfl⟩ := h
      obtain rfl := decodeType_sound ht
      exact ⟨.messageType ht, spans_append.mpr ⟨q, htag, spans_cons.mpr ⟨hb, spans_nil.mpr rfl⟩⟩⟩
  · rintro ⟨hacc, h⟩
    cases hacc with | messageType ht => ?_
    obtain ⟨htag, h⟩ := spans_cons.mp h
    obtain ⟨hcode, h⟩ := spans_cons.mp h
    obtain rfl := spans_nil.mp h
    refine ⟨(), p + 1, spans_cons.mpr ⟨htag, spans_nil.mpr rfl⟩, ?_⟩
    simp only [hcode, typeFrame_eq_ok]
    exact ⟨_, ht, rfl, trivial⟩

theorem stringFrame_eq_ok {g : Pos} {s : List Byte} {s0 p p' : Nat} {f : Frame} :
    stringFrame g s s0 p = .ok f p' ↔ utf8Ok s = true ∧ f = .string s ∧ p' = p := by
  unfold stringFrame
  by_cases h : utf8Ok s <;> simp [h, eq_comm]

theorem timeFrame_eq_ok {c : Cfg} {g : Pos} {s : List Byte} {s0 p p' : Nat} {f : Frame} :
    timeFrame c g s s0 p = .ok f p' ↔ ∃ i, parseRfc3339 c s = some i ∧ f = .time s i ∧ p' = p := by
  unfold timeFrame
  cases parseRfc3339 c s <;> simp [eq_comm]

theorem pString_eq_ok {c : Cfg} {w : List Byte} {g : Pos} {p p' : Nat} {f : Frame} :
    pString c w g p = .ok f p' ↔ (Prim.string g).Accepts c f ∧ Spans w p (encodeFrame c f) p' := by
  simp only [pString, Res.andThen_eq_ok, pTag_eq_ok, pBody_eq_ok, stringFrame_eq_ok]
  constructor
  · rintro ⟨u, q, htag, b, p1, ⟨hcount, -, hbody⟩, hutf, rfl, rfl⟩
    exact ⟨.string hcount hutf, spans_append.mpr ⟨q, htag, hbody⟩⟩
  · rintro ⟨hacc, h⟩
    cases hacc with | string hcount hutf => ?_
    obtain ⟨q, htag, hbody⟩ := spans_append (a := [c.tagString]).mp h
    exact ⟨(), q, htag, (_, q + 8), p', ⟨hcount, rfl, hbody⟩, hutf, rfl, rfl⟩

theorem pTime_eq_ok {c : Cfg} {w : List Byte} {g : Pos} {p p' : Nat} {f : Frame} :
    pTime c w g p = .ok f p' ↔ (Prim.time g).Accepts c f ∧ Spans w p (encodeFrame c f) p' := by
  simp only [pTime, Res.andThen_eq_ok, pTag_eq_ok, pBody_eq_ok, timeFrame_eq_ok]
  constructor
  · rintro ⟨u, q, htag, b, p1, ⟨hcount, -, hbody⟩, i, hi, rfl, rfl⟩
    exact ⟨.time hcount hi, spans_append.mpr ⟨q, htag, hbody⟩⟩
  · rintro ⟨hacc, h⟩
    cases hacc with | time hcount hi => ?_
    obtain ⟨q, htag, hbody⟩ := spans_append (a := [c.tagTime]).mp h
    exact ⟨(), q, htag, (_, q + 8), p', ⟨hcount, rfl, hbody⟩, _, hi, rfl, rfl⟩

theorem pNull_eq_ok {c : Cfg} {w : List Byte} {g : Pos} {p p' : Nat} {f : Frame} :
    pNull c w g p = .ok f p' ↔ (Prim.null g).Accepts c f ∧ Spans w p (encodeFrame c f) p' := by
  simp only [pNull, Res.andThen_eq_ok, pTag_eq_ok]
  constructor
  · rintro ⟨u, q, htag, h⟩
    obtain ⟨rfl, rfl⟩ := Res.ok.inj h
    exact ⟨.null, htag⟩
  · rintro ⟨⟨⟩, h⟩
    exact ⟨(), p', h, rfl⟩

/-- The optional timestamp is the time frame on the tag of one and the null marker on its own tag, which counts only
where the two tags differ (40 R114). -/
theorem pOptTime_eq_ok {c : Cfg} {w : List Byte} {g : Pos} {p p' : Nat} {f : Frame} :
    pOptTime c w g p = .ok f p' ↔ (Prim.optTime g).Accepts c f ∧ Spans w p (encodeFrame c f) p' := by
  constructor
  · intro h
    cases hb : byteRead w p with
    | none => simp [pOptTime, hb] at h
    | some b =>
      simp only [pOptTime, hb] at h
      split at h
      · obtain ⟨hacc, hspan⟩ := pTime_eq_ok.mp h
        cases hacc with | time hcount hi => exact ⟨.optTime hcount hi, hspan⟩
      · split at h
        · rename_i ht hn
          obtain ⟨rfl, rfl⟩ := Res.ok.inj h
          subst hn
          exact ⟨.optNull ht, spans_cons.mpr ⟨hb, spans_nil.mpr rfl⟩⟩
        · cases h
  · rintro ⟨hacc, h⟩
    cases hacc with
    | optTime hcount hi =>
      obtain ⟨hb, -⟩ := spans_cons.mp h
      simp only [pOptTime, hb, if_true]
      exact pTime_eq_ok.mpr ⟨.time hcount hi, h⟩
    | optNull hne =>
      obtain ⟨hb, hp⟩ := spans_cons.mp h
      obtain rfl := spans_nil.mp hp
      simp [pOptTime, hb, hne]

/-- A primitive is `Ok` with a frame exactly where the frame's encoding stands and the primitive's own checks accept
the frame (40 R119). -/
theorem Prim.run_eq_ok {c : Cfg} {k : Prim} {w : List Byte} {p p' : Nat} {f : Frame} :
    k.run c w p = .ok f p' ↔ k.Accepts c f ∧ Spans w p (encodeFrame c f) p' := by
  cases k with
  | messageStart => exact pMessageStart_eq_ok
  | frameLength => exact pFrameLength_eq_ok
  | messageType => exact pMessageType_eq_ok
  | string g => exact pString_eq_ok
  | time g => exact pTime_eq_ok
  | null g => exact pNull_eq_ok
  | optTime g => exact pOptTime_eq_ok

theorem encodeFrame_ne_nil (c : Cfg) (f : Frame) : encodeFrame c f ≠ [] := by
  cases f <;> simp [encodeFrame, encodeType]

/-- A primitive that is `Ok` moves the cursor on. -/
theorem Prim.run_ok_lt {c : Cfg} {k : Prim} {w : List Byte} {p p' : Nat} {f : Frame} (h : k.run c w p = .ok f p') :
    p < p' := by
  obtain ⟨rfl, -⟩ := (Prim.run_eq_ok.mp h).2
  have := List.length_pos_iff.mpr (encodeFrame_ne_nil c f)
  omega

/-- Settles O13: an `Ok` spans the frame's encoding. -/
theorem okConsumesExactEncoding : Obligations.OkConsumesExactEncoding := by
  intro c k w p p' f h
  have hspan := (Prim.run_eq_ok.mp h).2
  exact ⟨Prim.run_ok_lt h, hspan.le_length (encodeFrame_ne_nil c f), hspan.slice_eq, hspan.1⟩

/-! The decoder. -/

/-- The message-type row of a code byte is well formed, begins with the message-type tag and is spelled by the byte. -/
theorem codeInstr_spec (c : Cfg) (b : Byte) :
    (codeInstr c b).wf c = true ∧ (codeInstr c b).tag? = some .messageType ∧
      encode c (codeInstr c b) = [c.tagMessageType, b] := by
  unfold codeInstr
  cases h : decodeType c b with
  | none => simpa [Instr.wf, Instr.tag?, encode] using fun t _ => decodeType_eq_none.mp h t
  | some t =>
    obtain rfl := decodeType_sound h
    cases t <;> exact ⟨rfl, rfl, rfl⟩

/-- Under a well-formed configuration the row of a type's code is the type's. -/
theorem codeInstr_code {c : Cfg} (h : c.WF) (t : MessageType) : codeInstr c (c.code t) = typeInstr t := by
  simp [codeInstr, decodeType_code h]

/-- Every well-formed message-type frame is the row of its own code byte. -/
theorem exists_codeInstr_eq {c : Cfg} {i : Instr} (hc : c.WF) (hw : i.wf c = true)
    (ht : i.tag? = some .messageType) : ∃ b, codeInstr c b = i.expand ∧ encode c i = [c.tagMessageType, b] := by
  cases i <;> simp only [Instr.tag?, reduceCtorEq, Option.some.injEq] at ht
  case typeInvalid b =>
    have hb : decodeType c b = none :=
      decodeType_eq_none.mpr fun t => by simpa using List.all_eq_true.mp hw t (by cases t <;> decide)
    exact ⟨b, by simp [codeInstr, hb, Instr.expand], rfl⟩
  case optTime x => cases x <;> simp at ht
  all_goals exact ⟨_, codeInstr_code hc _, rfl⟩

/-- After its tag byte, a decoded frame is the encoding of a well-formed instruction with that tag. -/
theorem decodeRest_sound {c : Cfg} {w : List Byte} {g : Pos} {p p' : Nat} {t : Tag} {i : Instr}
    (hb : byteRead w p = some (c.tag t)) (h : decodeRest c w g p t = .ok i p') :
    i.wf c = true ∧ i.tag? = some t ∧ Spans w p (encode c i) p' := by
  cases t with
  | messageStart | null =>
    simp only [decodeRest, Res.ok.injEq] at h
    obtain ⟨rfl, rfl⟩ := h
    exact ⟨rfl, rfl, spans_cons.mpr ⟨hb, spans_nil.mpr rfl⟩⟩
  | frameLength =>
    simp only [decodeRest, Res.andThen_eq_ok, pU64_eq_ok, Res.ok.injEq] at h
    obtain ⟨v, q, hv, rfl, rfl⟩ := h
    exact ⟨rfl, rfl, spans_cons.mpr ⟨hb, hv⟩⟩
  | messageType =>
    simp only [decodeRest] at h
    cases hcode : byteRead w (p + 1) with
    | none => simp [hcode] at h
    | some b =>
      simp only [hcode, Res.ok.injEq] at h
      obtain ⟨rfl, rfl⟩ := h
      obtain ⟨hw, ht, he⟩ := codeInstr_spec c b
      exact ⟨hw, ht, by rw [he]; exact spans_cons.mpr ⟨hb, spans_cons.mpr ⟨hcode, spans_nil.mpr rfl⟩⟩⟩
  | string | time =>
    simp only [decodeRest, Res.andThen_eq_ok, pBody_eq_ok, Res.ok.injEq] at h
    obtain ⟨b, q, ⟨hcount, -, hbody⟩, rfl, rfl⟩ := h
    exact ⟨hcount, rfl, spans_cons.mpr ⟨hb, hbody⟩⟩

/-- After its tag byte, the encoding of a well-formed frame decodes to the frame. -/
theorem decodeRest_complete {c : Cfg} {w : List Byte} {p p' : Nat} {t : Tag} {i : Instr} (g : Pos) (hc : c.WF)
    (hw : i.wf c = true) (ht : i.tag? = some t) (h : Spans w p (encode c i) p') :
    byteRead w p = some (c.tag t) ∧ decodeRest c w g p t = .ok i.expand p' := by
  by_cases hty : t = .messageType
  · subst hty
    obtain ⟨b, hi, he⟩ := exists_codeInstr_eq hc hw ht
    rw [he, spans_cons, spans_cons, spans_nil] at h
    obtain ⟨hb, hcode, rfl⟩ := h
    exact ⟨hb, by simp [decodeRest, hcode, hi]⟩
  · cases i with
    | check | parse => cases ht
    | typePing | typeAuthenticate | typeSuccess | typeFail | typeSet | typeGet | typeDelete | typeInvalid =>
      exact absurd (Option.some.inj ht).symm hty
    | start | null =>
      cases ht
      obtain ⟨hb, hp⟩ := spans_cons.mp h
      obtain rfl := spans_nil.mp hp
      exact ⟨hb, rfl⟩
    | flen v =>
      cases ht
      obtain ⟨hb, hv⟩ := spans_cons.mp h
      exact ⟨hb, by simp [decodeRest, pU64_eq_ok.mpr hv, Instr.expand]⟩
    | str s | time s =>
      cases ht
      obtain ⟨hb, hs⟩ := spans_cons.mp h
      exact ⟨hb, by simp [decodeRest, (pBody_eq_ok (g := g) (b := (s, p + 1 + 8))).mpr ⟨hw, rfl, hs⟩, Instr.expand]⟩
    | optTime x =>
      cases x with
      | none =>
        cases ht
        obtain ⟨hb, hp⟩ := spans_cons.mp h
        obtain rfl := spans_nil.mp hp
        exact ⟨hb, rfl⟩
      | some s =>
        cases ht
        obtain ⟨hb, hs⟩ := spans_cons.mp h
        exact ⟨hb, by simp [decodeRest, (pBody_eq_ok (g := g) (b := (s, p + 1 + 8))).mpr ⟨hw, rfl, hs⟩, Instr.expand]⟩

/-- The decoder reads the tag and, where the position accepts it, the rest of its frame (30 R86, R88). -/
theorem decodeAt_eq_ok {c : Cfg} {w : List Byte} {g : Pos} {p p' : Nat} {i : Instr} :
    decodeAt c w g p = .ok i p' ↔
      ∃ b t, byteRead w p = some b ∧ decodeTag c b = some t ∧ t ∈ g.legal ∧ decodeRest c w g p t = .ok i p' := by
  cases hb : byteRead w p with
  | none => simp [decodeAt, hb]
  | some b =>
    cases hd : decodeTag c b with
    | none => simp [decodeAt, hb, hd]
    | some t => by_cases hl : t ∈ g.legal <;> simp [decodeAt, hb, hd, hl]

/-- The length of an encoding is the frame's size (30 R71). -/
theorem length_encode (c : Cfg) (i : Instr) : (encode c i).length = i.size c := by
  cases i with
  | str s => exact Laws.EncodedLength.str s c
  | time s => exact Laws.EncodedLength.time s c
  | optTime t => exact Laws.EncodedLength.optTime t c
  | _ => rfl

/-- Settles O15: the encoding stands at the cursor, its first byte is the tag, and the tag's own read takes the rest. -/
theorem decodeEncodeRoundTrip : Obligations.DecodeEncodeRoundTrip := by
  intro c i t g pre tail hc hw ht hg
  have hspan := spans_append_middle pre (encode c i) tail
  rw [length_encode] at hspan
  obtain ⟨hb, hr⟩ := decodeRest_complete g hc hw ht hspan
  exact decodeAt_eq_ok.mpr ⟨_, t, hb, decodeTag_tag hc t, hg, hr⟩

/-- Settles O16: the tag read is legal, and after it the frame's own read spans its encoding. -/
theorem decodedBytesAreItsEncoding : Obligations.DecodedBytesAreItsEncoding := by
  intro c w g p p' i h
  obtain ⟨b, t, hb, hd, hg, hr⟩ := decodeAt_eq_ok.mp h
  rw [← decodeTag_sound hd] at hb
  obtain ⟨hw, ht, hspan⟩ := decodeRest_sound hb hr
  exact ⟨hspan.slice_eq, by rw [← length_encode]; exact hspan.1, hw, t, hg, ht⟩

end Sys2Proof.Machine
end

section
/-! The delimiter and the order of checks within a frame (spec 40 R108, R109; 60 R205; D9, D10): what each read answers
by the bytes that stand at its offset. -/

namespace Sys2Proof.Machine

/-! The delimiter. -/

/-- The comparison goes on after the delimiter bytes that stand (40 R108). -/
theorem pDelimFrom_skip {w : List Byte} {ds : List Byte} {q q' : Nat} (g : Pos) (rest : List Byte)
    (h : Spans w q ds q') : pDelimFrom w g (ds ++ rest) q = pDelimFrom w g rest q' := by
  induction ds generalizing q with
  | nil => rw [spans_nil.mp h]; rfl
  | cons d ds ih =>
    obtain ⟨hd, h⟩ := spans_cons.mp h
    simp only [List.cons_append, pDelimFrom, hd, ne_eq, not_true_eq_false, if_false, ih h]

/-- Where the first `i` delimiter bytes stand, the byte at `i` is compared next. -/
theorem pDelim_skip {c : Cfg} {w : List Byte} {g : Pos} {q q' i : Nat} {d : Byte} (hd : c.delim[i]? = some d)
    (h : Spans w q (c.delim.take i) q') :
    pDelim c w g q = pDelimFrom w g (d :: c.delim.drop (i + 1)) q' := by
  obtain ⟨hi, rfl⟩ := List.getElem?_eq_some_iff.mp hd
  rw [← pDelimFrom_skip g _ h, ← List.drop_eq_getElem_cons hi, List.take_append_drop, pDelim]

/-- A delimiter byte that is present and differs is reported at its place. -/
theorem pDelim_mismatch {c : Cfg} {w : List Byte} {g : Pos} {q q' i : Nat} {d b : Byte} (hd : c.delim[i]? = some d)
    (h : Spans w q (c.delim.take i) q') (hb : byteRead w q' = some b) (hne : b ≠ d) :
    pDelim c w g q =
      .invalid { cause := .delimMismatch, offset := q', expected := .delimByte d g, got := some b } := by
  simp [pDelim_skip hd h, pDelimFrom, hb, hne]

/-- A delimiter whose bytes match as far as they are present is incomplete. -/
theorem pDelim_unfinished {c : Cfg} {w : List Byte} {g : Pos} {q q' i : Nat} (hi : i < c.delim.length)
    (h : Spans w q (c.delim.take i) q') (hb : byteRead w q' = none) : pDelim c w g q = .incomplete := by
  simp [pDelim_skip (List.getElem?_eq_getElem hi) h, pDelimFrom, hb]

/-- The first `i` delimiter bytes stand exactly when each of them does. -/
theorem spans_delim_take {c : Cfg} {w : List Byte} {q i : Nat} (hi : i ≤ c.delim.length) :
    Spans w q (c.delim.take i) (q + i) ↔ ∀ j < i, w[q + j]? = c.delim[j]? := by
  have hl : (c.delim.take i).length = i := by rw [List.length_take]; omega
  rw [Spans, hl, List.prefix_iff_getElem?]
  simp only [hl, List.getElem_take, List.getElem?_drop, true_and]
  exact forall₂_congr fun j hj => by rw [List.getElem?_eq_getElem (by omega : j < c.delim.length)]

/-- Settles O6: the first index at which the window does not have the delimiter's byte decides. -/
theorem delimiterOutcomes : Obligations.DelimiterOutcomes := by
  intro c w g q
  refine ⟨?_, ?_, ?_⟩
  · rw [← spans_delim_take le_rfl, List.take_length]
    exact pDelimFrom_eq_ok
  · intro i d b hd hb hne hmatch
    obtain ⟨hi, -⟩ := List.getElem?_eq_some_iff.mp hd
    exact pDelim_mismatch hd ((spans_delim_take hi.le).mpr hmatch) hb hne
  · intro i hi hend hmatch
    exact pDelim_unfinished hi ((spans_delim_take hi.le).mpr hmatch) (List.getElem?_eq_none hend)

/-! The body. -/

section
variable {c : Cfg} {w : List Byte} {q q1 : Nat} {n : U64} (g : Pos) (hcount : Spans w q (bytes64 n) q1)
include hcount

/-- A count over the limit is reported at the count, whatever follows (40 R102, R109). -/
theorem pBody_oversize {m : Nat} (hm : c.maxDeclaredLen = some m) (hlt : m < n.toNat) :
    pBody c w g q = .invalid { cause := .oversize, offset := q, expected := .position g, got := none } := by
  simp [pBody, pU64_eq_ok.mpr hcount, cap, hm, hlt]

/-- Within the limit a missing payload byte makes the body incomplete (40 R109). -/
theorem pBody_short (hadm : Admits c n.toNat) (hs : w.length < q1 + n.toNat) : pBody c w g q = .incomplete := by
  simp [pBody, pU64_eq_ok.mpr hcount, cap_of_le hadm, hs]

/-- With the payload present, whatever it holds, the delimiter decides (40 R109). -/
theorem pBody_payload {s : List Byte} {q2 : Nat} (hadm : Admits c n.toNat) (hs : Spans w q1 s q2)
    (hn : s.length = n.toNat) (hl : q2 ≤ w.length) :
    pBody c w g q = (pDelim c w g q2).andThen fun _ p' => .ok (s, q1) p' := by
  have h2 : q1 + n.toNat = q2 := by rw [← hn]; exact hs.1.symm
  simp only [pBody, pU64_eq_ok.mpr hcount, Res.andThen_ok, cap_of_le hadm, h2, if_neg (Nat.not_lt.mpr hl),
    hs.slice_eq]

end

/-! Frames with a body. -/

/-- A frame of a tag, a body and a content check: the common form of the string and the time frame (40 R111, R112). -/
def bodyFrame (c : Cfg) (w : List Byte) (t : Tag) (g : Pos) (content : List Byte → Nat → Nat → Res Frame) (p : Nat) :
    Res Frame :=
  (pTag c w t g p).andThen fun _ q => (pBody c w g q).andThen fun b p' => content b.1 b.2 p'

theorem pString_eq (c : Cfg) (w : List Byte) (g : Pos) (p : Nat) :
    pString c w g p = bodyFrame c w .string g (stringFrame g) p := rfl

theorem pTime_eq (c : Cfg) (w : List Byte) (g : Pos) (p : Nat) :
    pTime c w g p = bodyFrame c w .time g (timeFrame c g) p := rfl

/-- After its tag, a frame with a body is the body and then the content check. -/
theorem bodyFrame_of_tag {c : Cfg} {w : List Byte} {t : Tag} {p : Nat} (g : Pos)
    (content : List Byte → Nat → Nat → Res Frame) (h : byteRead w p = some (c.tag t)) :
    bodyFrame c w t g content p = (pBody c w g (p + 1)).andThen fun b p' => content b.1 b.2 p' := by
  rw [bodyFrame, pTag_of_tag h, Res.andThen_ok]

/-- The window of a frame with a body: after any bytes the tag, a count, a payload of that many bytes, some of the
delimiter, and any bytes. Its parts span what they spell. -/
theorem spans_bodyFrame (pre : List Byte) (t : Tag) (c : Cfg) (n : U64) (payload ds z : List Byte) :
    let w := pre ++ c.tag t :: bytes64 n ++ payload ++ ds ++ z
    byteRead w pre.length = some (c.tag t) ∧ Spans w (pre.length + 1) (bytes64 n) (pre.length + 9) ∧
      Spans w (pre.length + 9) payload (pre.length + 9 + payload.length) ∧
      Spans w (pre.length + 9 + payload.length) ds (pre.length + 9 + payload.length + ds.length) := by
  have hw : pre ++ c.tag t :: bytes64 n ++ payload ++ ds ++ z =
      pre ++ c.tag t :: (bytes64 n ++ payload ++ ds) ++ z := by simp
  have h := hw ▸ spans_append_middle pre (c.tag t :: (bytes64 n ++ payload ++ ds)) z
  obtain ⟨htag, h⟩ := spans_cons.mp h
  obtain ⟨q2, h, hds⟩ := spans_append.mp h
  obtain ⟨q1, hcount, hs⟩ := spans_append.mp h
  obtain rfl : q1 = pre.length + 9 := by rw [hcount.1, Laws.length_bytes64]
  obtain rfl := hs.1
  rw [hds.1] at hds
  exact ⟨htag, hcount, hs, hds⟩

section
variable (c : Cfg) (pre rest : List Byte) (n : U64) (g : Pos) (t : Tag) (content : List Byte → Nat → Nat → Res Frame)

/-- A tag byte that differs, whatever follows (60 R205). -/
theorem bodyFrame_badTag {b : Byte} (hb : b ≠ c.tag t) :
    bodyFrame c (pre ++ b :: rest) t g content pre.length = .invalid (badTag [t] g pre.length b) := by
  rw [bodyFrame, pTag_of_ne (byteRead_append pre rest b) hb, Res.andThen_invalid]

/-- A count over the limit, whatever follows (60 R205). -/
theorem bodyFrame_oversize {m : Nat} (hm : c.maxDeclaredLen = some m) (hlt : m < n.toNat) :
    bodyFrame c (pre ++ c.tag t :: bytes64 n ++ rest) t g content pre.length =
      .invalid { cause := .oversize, offset := pre.length + 1, expected := .position g, got := none } := by
  obtain ⟨htag, hcount, -⟩ := spans_bodyFrame pre t c n [] [] rest
  simp only [List.append_nil] at htag hcount
  rw [bodyFrame_of_tag g content htag, pBody_oversize g hcount hm hlt, Res.andThen_invalid]

/-- Within the limit, a payload that is not all there (60 R205). -/
theorem bodyFrame_short (hadm : Admits c n.toNat) (hs : rest.length < n.toNat) :
    bodyFrame c (pre ++ c.tag t :: bytes64 n ++ rest) t g content pre.length = .incomplete := by
  obtain ⟨htag, hcount, -⟩ := spans_bodyFrame pre t c n [] [] rest
  simp only [List.append_nil] at htag hcount
  rw [bodyFrame_of_tag g content htag, pBody_short g hcount hadm, Res.andThen_incomplete]
  simp only [List.length_append, List.length_cons, Laws.length_bytes64]
  omega

/-- With the payload present, whatever it holds, the delimiter is judged, and only then the content (60 R205, D9). -/
theorem bodyFrame_payload (payload ds z : List Byte) (hadm : Admits c n.toNat) (hn : payload.length = n.toNat) :
    let w := pre ++ c.tag t :: bytes64 n ++ payload ++ ds ++ z
    bodyFrame c w t g content pre.length =
      (pDelim c w g (pre.length + 9 + payload.length)).andThen fun _ p' => content payload (pre.length + 9) p' := by
  obtain ⟨htag, hcount, hs, -⟩ := spans_bodyFrame pre t c n payload ds z
  dsimp only
  rw [bodyFrame_of_tag g content htag, pBody_payload g hcount hadm hs hn]
  · cases pDelim c _ g (pre.length + 9 + payload.length) <;> rfl
  · simp only [List.length_append, List.length_cons, Laws.length_bytes64]
    omega

variable {payload : List Byte} (hadm : Admits c n.toNat) (hn : payload.length = n.toNat)
include hadm hn

/-- The first delimiter byte that is present and differs, whatever the payload holds (D9, D10). -/
theorem bodyFrame_mismatch {i : Nat} {d b : Byte} (hd : c.delim[i]? = some d) (hb : b ≠ d) :
    bodyFrame c (pre ++ c.tag t :: bytes64 n ++ payload ++ c.delim.take i ++ b :: rest) t g content pre.length =
      .invalid { cause := .delimMismatch, offset := pre.length + 9 + payload.length + i,
                 expected := .delimByte d g, got := some b } := by
  obtain ⟨-, -, -, hds⟩ := spans_bodyFrame pre t c n payload (c.delim.take i) (b :: rest)
  obtain ⟨hi, -⟩ := List.getElem?_eq_some_iff.mp hd
  rw [List.length_take, Nat.min_eq_left hi.le] at hds
  have hat : byteRead (pre ++ c.tag t :: bytes64 n ++ payload ++ c.delim.take i ++ b :: rest)
      (pre.length + 9 + payload.length + i) = some b := by
    rw [← byteRead_append (pre ++ c.tag t :: bytes64 n ++ payload ++ c.delim.take i) rest b]
    congr 1
    simp only [List.length_append, List.length_cons, Laws.length_bytes64, List.length_take]
    omega
  rw [bodyFrame_payload c pre n g t content payload _ _ hadm hn, pDelim_mismatch hd hds hat hb, Res.andThen_invalid]

/-- A delimiter that matches and is unfinished, whatever the payload holds (D9, D10). -/
theorem bodyFrame_unfinished {i : Nat} (hi : i < c.delim.length) :
    bodyFrame c (pre ++ c.tag t :: bytes64 n ++ payload ++ c.delim.take i) t g content pre.length = .incomplete := by
  obtain ⟨-, -, -, hds⟩ := spans_bodyFrame pre t c n payload (c.delim.take i) []
  have hw := bodyFrame_payload c pre n g t content payload (c.delim.take i) [] hadm hn
  simp only [List.append_nil] at hds hw
  rw [hw, pDelim_unfinished hi hds, Res.andThen_incomplete]
  refine List.getElem?_eq_none ?_
  simp only [List.length_append, List.length_cons, Laws.length_bytes64]
  omega

/-- With the whole delimiter there, the content check answers (60 R205, D9). -/
theorem bodyFrame_whole :
    bodyFrame c (pre ++ c.tag t :: bytes64 n ++ payload ++ c.delim ++ rest) t g content pre.length =
      content payload (pre.length + 9) (pre.length + 9 + payload.length + c.delim.length) := by
  obtain ⟨-, -, -, hds⟩ := spans_bodyFrame pre t c n payload c.delim rest
  rw [bodyFrame_payload c pre n g t content payload _ _ hadm hn, pDelim, pDelimFrom_eq_ok (u := ()).mpr hds,
    Res.andThen_ok]

end

/-- Settles O14: the string and the time frame are the same sequence of checks but for their content check, which comes
last. -/
theorem checksWithinFrameInOrder : Obligations.ChecksWithinFrameInOrder := by
  intro c pre rest n g
  have hcount : Spans (pre ++ bytes64 n ++ rest) pre.length (bytes64 n) (pre.length + 8) := by
    simpa only [Laws.length_bytes64] using spans_append_middle pre (bytes64 n) rest
  refine ⟨fun m => pBody_oversize g hcount, fun hadm hs => pBody_short g hcount hadm ?_, ?_⟩
  · simp only [List.length_append, Laws.length_bytes64]
    omega
  intro k t bad wellFormed hk
  obtain ⟨content, hrun, hbad⟩ : ∃ content : List Byte → Nat → Nat → Res Frame,
      (∀ w p, k.run c w p = bodyFrame c w t g content p) ∧
      ∀ s s0 p', wellFormed s = false →
        content s s0 p' = .invalid { cause := bad, offset := s0, expected := .position g, got := none } := by
    simp only [List.mem_cons, List.not_mem_nil, or_false, Prod.mk.injEq] at hk
    obtain ⟨rfl, rfl, rfl, rfl⟩ | ⟨rfl, rfl, rfl, rfl⟩ := hk
    · exact ⟨stringFrame g, fun w p => pString_eq c w g p, fun s s0 p' h => by simp [stringFrame, h]⟩
    · refine ⟨timeFrame c g, fun w p => pTime_eq c w g p, fun s s0 p' h => ?_⟩
      rw [Option.isSome_eq_false_iff, Option.isNone_iff_eq_none] at h
      simp [timeFrame, h]
  simp only [hrun]
  refine ⟨fun b => bodyFrame_badTag c pre rest g t content, fun m => bodyFrame_oversize c pre rest n g t content,
    fun hadm => ⟨bodyFrame_short c pre rest n g t content hadm, fun payload hn => ⟨?_, ?_, ?_⟩⟩⟩
  · exact fun i d b => bodyFrame_mismatch c pre rest n g t content hadm hn
  · exact fun i => bodyFrame_unfinished c pre n g t content hadm hn
  · exact fun h => (bodyFrame_whole c pre rest n g t content hadm hn).trans (hbad _ _ _ h)

end Sys2Proof.Machine
end

section
/-! Growing windows (spec 40 R117, R118): a decided result stays when bytes are appended, and an undecided one is for
want of bytes. -/

namespace Sys2Proof.Machine

/-! Windows that go on. -/

/-- From offset `p` on, the bytes of `w` stand in `w'` too. -/
def Agrees (p : Nat) (w w' : List Byte) : Prop := ∀ q, p ≤ q → ∀ b, byteRead w q = some b → byteRead w' q = some b

theorem Agrees.mono {p q : Nat} {w w' : List Byte} (h : Agrees p w w') (hq : p ≤ q) : Agrees q w w' :=
  fun r hr => h r (hq.trans hr)

/-- Appending bytes keeps all that are there. -/
theorem agrees_append (p : Nat) (w x : List Byte) : Agrees p w (w ++ x) :=
  fun _ _ _ hb => byteRead_append_of_some x hb

/-- A spanned part stands in a window that goes on. -/
theorem Spans.agrees {w w' bs : List Byte} {p q p' : Nat} (hs : Spans w q bs p') (h : Agrees p w w') (hq : p ≤ q) :
    Spans w' q bs p' := by
  induction bs generalizing q with
  | nil => exact spans_nil.mpr (spans_nil.mp hs)
  | cons b bs ih =>
    obtain ⟨hb, hs⟩ := spans_cons.mp hs
    exact spans_cons.mpr ⟨h q hq b hb, ih hs (by omega)⟩

/-- A window with a byte at or after the offset is no longer than one that goes on. -/
theorem Agrees.length_le {w w' : List Byte} {p : Nat} (h : Agrees p w w') (hp : p < w.length) :
    w.length ≤ w'.length := by
  have hlast := h (w.length - 1) (by omega) w[w.length - 1] (List.getElem?_eq_getElem (by omega))
  obtain ⟨hl, -⟩ := List.getElem?_eq_some_iff.mp hlast
  omega

/-- `r'` is the result `r`, unless `r` is still incomplete. -/
def Settled {α : Type} (r r' : Res α) : Prop := r = .incomplete ∨ r' = r

theorem Settled.refl {α : Type} (r : Res α) : Settled r r := .inr rfl

theorem Settled.andThen {α β : Type} {r r' : Res α} {k k' : α → Nat → Res β} (h : Settled r r')
    (hk : ∀ v q, r = .ok v q → Settled (k v q) (k' v q)) : Settled (r.andThen k) (r'.andThen k') := by
  obtain rfl | rfl := h
  · exact .inl rfl
  · cases r' with
    | ok v q => exact hk v q rfl
    | incomplete | invalid => exact .refl _

theorem Settled.cap {α : Type} {k k' : Res α} (h : Settled k k') (c : Cfg) (v q : Nat) (g : Pos) :
    Settled (cap c v q g k) (cap c v q g k') := by
  unfold Machine.cap
  split
  · exact h
  · split
    · exact .refl _
    · exact h

section
variable {w w' : List Byte} {p : Nat} (h : Agrees p w w')
include h

theorem pTag_settled (c : Cfg) (t : Tag) (g : Pos) : Settled (pTag c w t g p) (pTag c w' t g p) := by
  obtain ⟨-, hr⟩ | ⟨hb, hr⟩ | ⟨b, hb, hne, hr⟩ := pTag_cases c w t g p
  · exact .inl hr
  · exact .inr (by rw [hr, pTag_of_tag (h p le_rfl _ hb)])
  · exact .inr (by rw [hr, pTag_of_ne (h p le_rfl _ hb) hne])

theorem pU64_settled : Settled (pU64 w p) (pU64 w' p) := by
  rcases Nat.lt_or_ge w.length (p + 8) with hs | hs
  · exact .inl (pU64_of_short hs)
  · have hv := pU64_of_present hs
    exact .inr (by rw [hv, pU64_eq_ok.mpr ((pU64_eq_ok.mp hv).agrees h le_rfl)])

theorem pDelimFrom_settled (g : Pos) (ds : List Byte) : Settled (pDelimFrom w g ds p) (pDelimFrom w' g ds p) := by
  induction ds generalizing p with
  | nil => exact .refl _
  | cons d ds ih =>
    cases hb : byteRead w p with
    | none => exact .inl (by rw [pDelimFrom, hb])
    | some b =>
      simp only [pDelimFrom, hb, h p le_rfl b hb]
      split
      · exact .refl _
      · exact ih (h.mono (by omega))

theorem pBody_settled (c : Cfg) (g : Pos) : Settled (pBody c w g p) (pBody c w' g p) := by
  refine (pU64_settled h).andThen fun v s0 hv => Settled.cap ?_ c v.toNat p g
  have hcount := pU64_eq_ok.mp hv
  have hs0 : s0 = p + 8 := by rw [hcount.1, Laws.length_bytes64]
  split
  · exact .inl rfl
  · rename_i hl
    have hl' := (h.mono (by omega : p ≤ p)).length_le (by omega)
    have hs : slice w' s0 (s0 + v.toNat) = slice w s0 (s0 + v.toNat) :=
      ((spans_slice (by omega) (by omega)).agrees h (by omega)).slice_eq
    rw [if_neg (by omega), hs]
    exact (pDelimFrom_settled (h.mono (by omega)) g c.delim).andThen fun _ _ _ => .refl _

theorem bodyFrame_settled (c : Cfg) (t : Tag) (g : Pos) (content : List Byte → Nat → Nat → Res Frame) :
    Settled (bodyFrame c w t g content p) (bodyFrame c w' t g content p) :=
  (pTag_settled h c t g).andThen fun _ q hq =>
    (pBody_settled (h.mono (by have := (pTag_eq_ok.mp hq).1; simp at this; omega)) c g).andThen fun _ _ _ => .refl _

/-- A primitive's result does not change in a window that goes on, unless it is incomplete (40 R117). -/
theorem Prim.run_settled (c : Cfg) (k : Prim) : Settled (k.run c w p) (k.run c w' p) := by
  cases k with
  | messageStart => exact (pTag_settled h c _ _).andThen fun _ _ _ => .refl _
  | null g => exact (pTag_settled h c _ _).andThen fun _ _ _ => .refl _
  | string g => exact bodyFrame_settled h c _ g _
  | time g => exact bodyFrame_settled h c _ g _
  | frameLength =>
    refine (pTag_settled h c _ _).andThen fun _ q hq => ?_
    exact (pU64_settled (h.mono (by have := (pTag_eq_ok.mp hq).1; omega))).andThen fun _ _ _ => .refl _
  | messageType =>
    refine (pTag_settled h c _ _).andThen fun _ q hq => ?_
    cases hb : byteRead w q with
    | none => exact .inl rfl
    | some b =>
      rw [h q (by have := (pTag_eq_ok.mp hq).1; omega) b hb]
      exact .refl _
  | optTime g =>
    simp only [Prim.run, pOptTime]
    cases hb : byteRead w p with
    | none => exact .inl rfl
    | some b =>
      simp only [h p le_rfl b hb]
      split
      · exact bodyFrame_settled h c _ g _
      · exact .refl _

end

/-- A read that settles with the window is stable under appending (40 R117). -/
theorem stableUnderAppend_of_settled {α : Type} {prim : List Byte → Nat → Res α}
    (h : ∀ w x p, Settled (prim w p) (prim (w ++ x) p)) : StableUnderAppend prim := by
  intro w x p
  constructor
  · intro v p' hr
    obtain hi | he := h w x p
    · rw [hr] at hi; cases hi
    · rw [he, hr]
  · intro e hr
    obtain hi | he := h w x p
    · rw [hr] at hi; cases hi
    · rw [he, hr]

/-- Settles O11: every read settles with the window. -/
theorem primitivesStableUnderAppend : Obligations.PrimitivesStableUnderAppend := fun c =>
  ⟨fun t g => stableUnderAppend_of_settled fun w x p => pTag_settled (agrees_append p w x) c t g,
    stableUnderAppend_of_settled fun w x p => pU64_settled (agrees_append p w x),
    fun g => stableUnderAppend_of_settled fun w x p => pDelimFrom_settled (agrees_append p w x) g c.delim,
    fun g => stableUnderAppend_of_settled fun w x p => pBody_settled (agrees_append p w x) c g,
    fun k => stableUnderAppend_of_settled fun w x p => Prim.run_settled (agrees_append p w x) c k⟩

/-! Windows with enough bytes. -/

/-- A sequence of two reads is incomplete exactly when one of them is. -/
theorem Res.andThen_eq_incomplete {α β : Type} {r : Res α} {k : α → Nat → Res β} :
    r.andThen k = .incomplete ↔ r = .incomplete ∨ ∃ a q, r = .ok a q ∧ k a q = .incomplete := by
  cases r <;> simp [Res.andThen]

/-- The limit check itself is never incomplete. -/
theorem cap_ne_incomplete {α : Type} {k : Res α} (hk : k ≠ .incomplete) (c : Cfg) (v q : Nat) (g : Pos) :
    cap c v q g k ≠ .incomplete := by
  obtain ⟨-, h⟩ | ⟨m, -, -, h⟩ := cap_cases c v q g k <;> simp [h, hk]

theorem pDelimFrom_ne_incomplete {w : List Byte} (g : Pos) {ds : List Byte} {q : Nat}
    (h : q + ds.length ≤ w.length) : pDelimFrom w g ds q ≠ .incomplete := by
  induction ds generalizing q with
  | nil => exact nofun
  | cons d ds ih =>
    rw [List.length_cons] at h
    rw [pDelimFrom, byteRead, List.getElem?_eq_getElem (by omega)]
    dsimp only
    split
    · exact nofun
    · exact ih (by omega)

/-- A body of any count the field can hold needs no more bytes than these. -/
theorem pBody_ne_incomplete {c : Cfg} {w : List Byte} {q : Nat} (g : Pos)
    (h : q + 8 + 2 ^ 64 + c.delim.length ≤ w.length) : pBody c w g q ≠ .incomplete := by
  rw [pBody, pU64_of_present (by omega), Res.andThen_ok]
  have hv := (be64 (slice w q (q + 8))).isLt
  refine cap_ne_incomplete ?_ c _ q g
  rw [if_neg (by omega), Ne, Res.andThen_eq_incomplete]
  rintro (hd | ⟨u, q', -, hd⟩)
  · exact pDelimFrom_ne_incomplete g (by omega) hd
  · cases hd

theorem stringFrame_ne_incomplete (g : Pos) (s : List Byte) (s0 p' : Nat) : stringFrame g s s0 p' ≠ .incomplete := by
  unfold stringFrame; split <;> exact nofun

theorem timeFrame_ne_incomplete (c : Cfg) (g : Pos) (s : List Byte) (s0 p' : Nat) :
    timeFrame c g s s0 p' ≠ .incomplete := by
  unfold timeFrame; split <;> exact nofun

theorem typeFrame_ne_incomplete (c : Cfg) (b : Byte) (q : Nat) : typeFrame c b q ≠ .incomplete := by
  unfold typeFrame; split <;> exact nofun

section
variable {c : Cfg} {w : List Byte} {p : Nat} (h : p + 9 + 2 ^ 64 + c.delim.length ≤ w.length)
include h

/-- With enough bytes a read that begins with a tag is incomplete only in what follows the tag. -/
theorem pTag_andThen_ne_incomplete {t : Tag} {g : Pos} {k : Unit → Nat → Res Frame}
    (hk : k () (p + 1) ≠ .incomplete) : (pTag c w t g p).andThen k ≠ .incomplete := by
  rw [Ne, Res.andThen_eq_incomplete, pTag_eq_incomplete_iff]
  rintro (hl | ⟨u, q, hq, hi⟩)
  · omega
  · obtain rfl : q = p + 1 := (pTag_eq_ok.mp hq).1
    exact hk hi

theorem bodyFrame_ne_incomplete {t : Tag} {g : Pos} {content : List Byte → Nat → Nat → Res Frame}
    (hc : ∀ s s0 p', content s s0 p' ≠ .incomplete) : bodyFrame c w t g content p ≠ .incomplete := by
  refine pTag_andThen_ne_incomplete h ?_
  rw [Ne, Res.andThen_eq_incomplete]
  rintro (hb | ⟨b, p', -, hi⟩)
  · exact pBody_ne_incomplete g (by omega) hb
  · exact hc _ _ _ hi

/-- No primitive is incomplete with enough bytes (40 R118). -/
theorem Prim.run_ne_incomplete (k : Prim) : k.run c w p ≠ .incomplete := by
  have hbyte (q : Nat) (hq : q ≤ p + 1) : byteRead w q = some (w[q]'(by omega)) :=
    List.getElem?_eq_getElem (by omega)
  cases k with
  | messageStart | null g => exact pTag_andThen_ne_incomplete h nofun
  | string g => exact bodyFrame_ne_incomplete h (stringFrame_ne_incomplete g)
  | time g => exact bodyFrame_ne_incomplete h (timeFrame_ne_incomplete c g)
  | frameLength =>
    refine pTag_andThen_ne_incomplete h ?_
    rw [pU64_of_present (by omega), Res.andThen_ok]
    exact cap_ne_incomplete (k := .ok (Frame.length _) _) nofun c _ _ _
  | messageType =>
    refine pTag_andThen_ne_incomplete h ?_
    rw [hbyte (p + 1) le_rfl]
    exact typeFrame_ne_incomplete c _ _
  | optTime g =>
    simp only [Prim.run, pOptTime, hbyte p (by omega)]
    split
    · exact bodyFrame_ne_incomplete h (timeFrame_ne_incomplete c g)
    · split <;> exact nofun

end

/-- Settles O12: any window can be extended to one with enough bytes. -/
theorem incompleteMeansMissingBytes : Obligations.IncompleteMeansMissingBytes := by
  intro c k p
  refine ⟨fun w h => Prim.run_ne_incomplete h k, fun w _ => ?_⟩
  refine ⟨List.replicate (p + 9 + 2 ^ 64 + c.delim.length) 0#8, Prim.run_ne_incomplete ?_ k⟩
  rw [List.length_append, List.length_replicate]
  omega

end Sys2Proof.Machine
end

section
/-! The walk, one frame at a time (spec 41 R140 to R142): the rest of a walk from its registers is the read of the next
frame and then the rest from the registers that took it. -/

namespace Sys2Proof.Machine

/-! The read of a frame and the type dispatch after it. -/

/-- A frame that announces a message of a reserved type (41 R142). -/
def Frame.reserved : Frame → Bool
  | .messageType t => reservedType t
  | .messageStart | .length _ | .string _ | .time _ _ | .null => false

/-- A primitive and the type dispatch after it (41 R140, R142): a reserved type is `NOT_IMPLEMENTED` at its code
byte. -/
def Prim.read (c : Cfg) (w : List Byte) (k : Prim) (p : Nat) : Res Frame :=
  (k.run c w p).andThen fun f p' =>
    if f.reserved then .invalid (notImplemented (p' - 1) (byteRead w (p' - 1))) else .ok f p'

/-- A frame is read exactly where it stands, is accepted and is not reserved. -/
theorem Prim.read_eq_ok {c : Cfg} {w : List Byte} {k : Prim} {p p' : Nat} {f : Frame} :
    k.read c w p = .ok f p' ↔ k.Accepts c f ∧ f.reserved = false ∧ Spans w p (encodeFrame c f) p' := by
  rw [Prim.read, Res.andThen_eq_ok]
  constructor
  · rintro ⟨f', q, hrun, h⟩
    split at h
    · cases h
    · rename_i hres
      obtain ⟨rfl, rfl⟩ := Res.ok.inj h
      obtain ⟨hacc, hs⟩ := Prim.run_eq_ok.mp hrun
      exact ⟨hacc, by simpa using hres, hs⟩
  · rintro ⟨hacc, hres, hs⟩
    exact ⟨f, p', Prim.run_eq_ok.mpr ⟨hacc, hs⟩, by simp [hres]⟩

/-- A frame that is read moves the cursor on. -/
theorem Prim.read_ok_lt {c : Cfg} {w : List Byte} {k : Prim} {p p' : Nat} {f : Frame}
    (h : k.read c w p = .ok f p') : p < p' := by
  obtain ⟨hacc, -, hs⟩ := Prim.read_eq_ok.mp h
  exact Prim.run_ok_lt (Prim.run_eq_ok.mpr ⟨hacc, hs⟩)

/-- Reading a frame does not change in a window that goes on, unless it is incomplete. -/
theorem Prim.read_settled {w w' : List Byte} {p : Nat} (h : Agrees p w w') (c : Cfg) (k : Prim) :
    Settled (k.read c w p) (k.read c w' p) := by
  refine (Prim.run_settled h c k).andThen fun f p' hrun => ?_
  split
  · have hlt := Prim.run_ok_lt hrun
    have hle := (Prim.run_eq_ok.mp hrun).2.le_length (encodeFrame_ne_nil c f)
    have hb : byteRead w (p' - 1) = some (w[p' - 1]'(by omega)) := List.getElem?_eq_getElem (by omega)
    rw [h (p' - 1) (by omega) _ hb, hb]
    exact .refl _
  · exact .refl _

/-! The rest of a walk. -/

/-- The rest of a walk after the read of a frame. -/
def Walk.goOn (c : Cfg) (op : Command) (w : List Byte) (r : Walk) : Res Frame → WalkEnd
  | .ok f p' => (r.take op f p').resume c op w
  | .incomplete => .incomplete
  | .invalid e => .invalid e

/-- A walk is what is left of it at the start registers (10 R38). -/
theorem walk_eq_resume (c : Cfg) (op : Command) (w : List Byte) : walk c op w = Walk.init.resume c op w := rfl

/-- Where no frame is read, the walk is over. -/
theorem Walk.resume_of_primAt_none {r : Walk} (c : Cfg) (op : Command) (w : List Byte) (h : primAt r.g = none) :
    r.resume c op w = .complete { r with g := .done } := by
  obtain ⟨p, g, acc, mt, flen⟩ := r
  cases g with
  | flenValue | typeCode | done => rfl
  | _ => cases h

/-- At a tag position the walk reads the position's frame and goes on (41 R140). -/
theorem Walk.resume_of_primAt {r : Walk} {k : Prim} (c : Cfg) (op : Command) (w : List Byte)
    (h : primAt r.g = some k) : r.resume c op w = r.goOn c op w (k.read c w r.p) := by
  obtain ⟨p, g, acc, mt, flen⟩ := r
  cases hr : k.run c w p with
  | incomplete | invalid =>
    cases g <;> cases h <;>
      (simp only [Prim.run] at hr
       simp only [Walk.resume, Walk.resumeFrames, stepAt, Prim.read, Prim.run, hr]
       rfl)
  | ok f p' =>
    have hacc := (Prim.run_eq_ok.mp hr).1
    cases g <;> cases h <;>
      (simp only [Prim.run] at hr
       simp only [Walk.resume, Walk.resumeFrames, stepAt, Prim.read, Prim.run, hr]
       cases hacc)
    case typeTag.refl.messageType t _ => cases t <;> rfl
    all_goals rfl

/-- How many frames a walk reads at most from a position on (41 R141, R150). -/
def Pos.framesLeft : Pos → Nat
  | .start => 5
  | .flenTag => 4
  | .typeTag => 3
  | .pingClient | .authUser => 2
  | .pingServer | .authPass => 1
  | .flenValue | .typeCode | .done => 0

/-- After a frame the walk is at a later position. -/
theorem framesLeft_nextPos_lt {c : Cfg} {g : Pos} {k : Prim} {f : Frame} (hk : primAt g = some k)
    (h : k.Accepts c f) : (nextPos g f).framesLeft < g.framesLeft := by
  cases g <;> cases hk <;> cases h
  case typeTag.refl.messageType t _ => cases t <;> decide
  all_goals simp [nextPos, Pos.framesLeft]

/-- Induction along the frames of a walk: a property of the registers holds if it holds where no frame is read and, at a
tag position, whenever it holds of the registers that took the frame read there. -/
theorem Walk.frameInduction {c : Cfg} {op : Command} {w : List Byte} {motive : Walk → Prop}
    (stop : ∀ r : Walk, primAt r.g = none → motive r)
    (frame : ∀ (r : Walk) (k : Prim), primAt r.g = some k →
      (∀ f p', k.read c w r.p = .ok f p' → motive (r.take op f p')) → motive r) (r : Walk) : motive r := by
  induction hn : r.g.framesLeft using Nat.strong_induction_on generalizing r with
  | _ n ih =>
    cases hk : primAt r.g with
    | none => exact stop r hk
    | some k =>
      refine frame r k hk fun f p' hf => ih _ ?_ _ rfl
      rw [← hn, Walk.take_g]
      exact framesLeft_nextPos_lt hk (Prim.read_eq_ok.mp hf).1

/-! Walks that go alike (41 R143, R148). -/

/-- A relation of the registers of two walks that they keep as long as they read the same frames. -/
structure Walk.Alike (op op' : Command) (R : Walk → Walk → Prop) : Prop where
  cursor : ∀ {r r'}, R r r' → r.p = r'.p
  position : ∀ {r r'}, R r r' → r.g = r'.g
  take : ∀ {r r'}, R r r' → ∀ f p', R (r.take op f p') (r'.take op' f p')
  finish : ∀ {r r'}, R r r' → R { r with g := .done } { r' with g := .done }

/-- Two ends of walks of one kind, with related registers or the same error. -/
inductive WalkEnd.Alike (R : Walk → Walk → Prop) : WalkEnd → WalkEnd → Prop
  | complete {r r' : Walk} : R r r' → WalkEnd.Alike R (.complete r) (.complete r')
  | incomplete : WalkEnd.Alike R .incomplete .incomplete
  | invalid (e : ErrorRecord) : WalkEnd.Alike R (.invalid e) (.invalid e)

theorem WalkEnd.Alike.eq_of_eq {e e' : WalkEnd} (h : WalkEnd.Alike Eq e e') : e' = e := by
  cases h with
  | complete h => rw [h]
  | incomplete | invalid => rfl

theorem WalkEnd.Alike.flip {R : Walk → Walk → Prop} {e e' : WalkEnd} (h : WalkEnd.Alike (flip R) e' e) :
    WalkEnd.Alike R e e' := by
  cases h with
  | complete h => exact .complete h
  | incomplete => exact .incomplete
  | invalid e => exact .invalid e

/-- From related registers, a walk over a window that goes on ends alike, unless the first one is incomplete. -/
theorem Walk.resume_alike {c : Cfg} {op op' : Command} {R : Walk → Walk → Prop} (hR : Walk.Alike op op' R)
    {w w' : List Byte} {r r' : Walk} (hr : R r r') (hw : Agrees r.p w w') :
    r.resume c op w = .incomplete ∨ WalkEnd.Alike R (r.resume c op w) (r'.resume c op' w') := by
  induction r using Walk.frameInduction (c := c) (op := op) (w := w) generalizing r' with
  | stop r hk =>
    rw [r.resume_of_primAt_none c op w hk, r'.resume_of_primAt_none c op' w' (hR.position hr ▸ hk)]
    exact .inr (.complete (hR.finish hr))
  | frame r k hk ih =>
    rw [r.resume_of_primAt c op w hk, r'.resume_of_primAt c op' w' (hR.position hr ▸ hk), ← hR.cursor hr]
    obtain hi | he := Prim.read_settled hw c k
    · exact .inl (by rw [hi]; rfl)
    · rw [he]
      cases hread : k.read c w r.p with
      | incomplete => exact .inl rfl
      | invalid e => exact .inr (.invalid e)
      | ok f p' => exact ih f p' hread (hR.take hr f p') (hw.mono (Prim.read_ok_lt hread).le)

/-- Equal registers stay equal. -/
theorem Walk.alike_eq (op : Command) : Walk.Alike op op Eq where
  cursor := congrArg Walk.p
  position := congrArg Walk.g
  take := by rintro r _ rfl f p'; rfl
  finish := by rintro r _ rfl; rfl

/-- A relation that is kept is kept in the other direction. -/
theorem Walk.Alike.flip {op op' : Command} {R : Walk → Walk → Prop} (h : Walk.Alike op op' R) :
    Walk.Alike op' op (flip R) where
  cursor hr := (h.cursor hr).symm
  position hr := (h.position hr).symm
  take hr := h.take hr
  finish hr := h.finish hr

/-- From related registers, walks over windows with the same bytes from the cursor on end alike. -/
theorem Walk.resume_alike_of_agrees {c : Cfg} {op op' : Command} {R : Walk → Walk → Prop}
    (hR : Walk.Alike op op' R) {w w' : List Byte} {r r' : Walk} (hr : R r r') (hw : Agrees r.p w w')
    (hw' : Agrees r.p w' w) : WalkEnd.Alike R (r.resume c op w) (r'.resume c op' w') := by
  obtain hi | h := Walk.resume_alike (c := c) hR hr hw
  · obtain hi' | h := Walk.resume_alike (c := c) hR.flip hr (hR.cursor hr ▸ hw')
    · rw [hi, hi']
      exact .incomplete
    · exact h.flip
  · exact h

/-- The walk of a window that goes on ends the same way, unless the first one is incomplete. -/
theorem walk_append (c : Cfg) (op : Command) (w x : List Byte) :
    walk c op w = .incomplete ∨ walk c op (w ++ x) = walk c op w := by
  exact (Walk.resume_alike (Walk.alike_eq op) (r := Walk.init) rfl (agrees_append _ w x)).imp_right
    WalkEnd.Alike.eq_of_eq

/-- Settles O42: each read settles with the window, so the walk does. -/
theorem walkStableUnderAppend : Obligations.WalkStableUnderAppend := by
  intro c op w x
  obtain hi | he := walk_append c op w x
  · simp [hi]
  · exact ⟨fun r h => he.trans h, fun e h => he.trans h⟩

/-- The registers of a check beside those of a parse: the same but for the frames (10 R24). -/
theorem Walk.alike_withoutFrames : Walk.Alike .check .parse fun r r' => r = { r' with acc := [] } where
  cursor := by rintro _ r' rfl; rfl
  position := by rintro _ r' rfl; rfl
  take := by rintro _ r' rfl f p'; rfl
  finish := by rintro _ r' rfl; rfl

/-- Ends that differ only in the frames of a parse. -/
theorem WalkEnd.Alike.eq_withoutFrames {e e' : WalkEnd}
    (h : WalkEnd.Alike (fun r r' => r = { r' with acc := [] }) e e') : e = e'.withoutFrames := by
  cases h with
  | complete h => rw [h, WalkEnd.withoutFrames]
  | incomplete | invalid => rfl

/-- Settles O37: both walks read the same frames; only what becomes of a frame differs. -/
theorem checkIsParseWithoutFrames : Obligations.CheckIsParseWithoutFrames := by
  intro c w
  exact (Walk.resume_alike_of_agrees Walk.alike_withoutFrames (r := Walk.init) (r' := Walk.init) rfl
    (fun _ _ _ h => h) fun _ _ _ h => h).eq_withoutFrames

/-- Registers at the same place of the grammar and of the window. -/
theorem Walk.alike_place (op op' : Command) : Walk.Alike op op' fun r r' => r.p = r'.p ∧ r.g = r'.g where
  cursor h := h.1
  position h := h.2
  take h f p' := ⟨rfl, by simp [h.2]⟩
  finish h := ⟨h.1, rfl⟩

/-- The outputs of a check see of a complete walk only where it ended. -/
theorem checkOutput_eq_of_alike {e e' : WalkEnd} (h : WalkEnd.Alike (fun r r' => r.p = r'.p ∧ r.g = r'.g) e e') :
    checkOutput e = checkOutput e' := by
  cases h with
  | complete h => simp [checkOutput, h.1]
  | incomplete | invalid => rfl

/-! Complete walks. -/

/-- The frame lists that the grammar lets follow at a position (41 R141), content included. -/
inductive Route (c : Cfg) : Pos → List Frame → Prop
  | stop {g : Pos} : primAt g = none → Route c g []
  | frame {g : Pos} {k : Prim} {f : Frame} {fs : List Frame} : primAt g = some k → k.Accepts c f →
      f.reserved = false → Route c (nextPos g f) fs → Route c g (f :: fs)

/-- The registers after a list of frames. -/
def Walk.takeAll (c : Cfg) (op : Command) (r : Walk) : List Frame → Walk
  | [] => r
  | f :: fs => Walk.takeAll c op (r.take op f (r.p + (encodeFrame c f).length)) fs

theorem Walk.takeAll_p (c : Cfg) (op : Command) (r : Walk) (fs : List Frame) :
    (r.takeAll c op fs).p = r.p + (fs.flatMap (encodeFrame c)).length := by
  induction fs generalizing r with
  | nil => rfl
  | cons f fs ih => simp [Walk.takeAll, ih, Nat.add_assoc]

/-- A walk is complete exactly where the encodings of frames that the grammar lets follow stand one after the other. -/
theorem Walk.resume_eq_complete {c : Cfg} {op : Command} {w : List Byte} {r r' : Walk} :
    r.resume c op w = .complete r' ↔
      ∃ fs, Route c r.g fs ∧ Spans w r.p (fs.flatMap (encodeFrame c)) r'.p ∧
        r' = { r.takeAll c op fs with g := .done } := by
  induction r using Walk.frameInduction (c := c) (op := op) (w := w) with
  | stop r hk =>
    rw [r.resume_of_primAt_none c op w hk]
    constructor
    · rintro h
      obtain rfl := WalkEnd.complete.inj h
      exact ⟨[], .stop hk, spans_nil.mpr rfl, rfl⟩
    · rintro ⟨fs, hroute, -, rfl⟩
      cases hroute with
      | stop => rfl
      | frame hk' => simp [hk] at hk'
  | frame r k hk ih =>
    rw [r.resume_of_primAt c op w hk]
    constructor
    · intro h
      cases hread : k.read c w r.p with
      | incomplete | invalid => simp [hread, Walk.goOn] at h
      | ok f p' =>
        rw [hread, Walk.goOn, ih f p' hread] at h
        obtain ⟨fs, hroute, hs, rfl⟩ := h
        obtain ⟨hacc, hres, hf⟩ := Prim.read_eq_ok.mp hread
        exact ⟨f :: fs, .frame hk hacc hres hroute, spans_append.mpr ⟨p', hf, hs⟩, by rw [Walk.takeAll, ← hf.1]⟩
    · rintro ⟨fs, hroute, hs, rfl⟩
      cases hroute with
      | stop hk' => simp [hk] at hk'
      | @frame _ k' f fs hk' hacc hres hroute =>
        obtain rfl : k = k' := by simpa [hk] using hk'
        rw [List.flatMap_cons] at hs
        obtain ⟨p', hf, hs⟩ := spans_append.mp hs
        have hread : k.read c w r.p = .ok f p' := Prim.read_eq_ok.mpr ⟨hacc, hres, hf⟩
        rw [hread, Walk.goOn, ih f p' hread]
        exact ⟨fs, hroute, hs, by rw [Walk.takeAll, ← hf.1]⟩

/-- The frame lists of a message (30 R82, R83; 41 R152) with its type and frame-length value. -/
inductive MessageFrames (c : Cfg) : MessageType → U64 → List Frame → Prop
  | ping {v : U64} {cf sf : Frame} : Admits c v.toNat → decodeType c c.codePing = some .ping →
      (Prim.optTime .pingClient).Accepts c cf → (Prim.optTime .pingServer).Accepts c sf →
      MessageFrames c .ping v [.messageStart, .length v, .messageType .ping, cf, sf]
  | authenticate {v : U64} {user pass : List Byte} : Admits c v.toNat →
      decodeType c c.codeAuthenticate = some .authenticate → (Prim.string .authUser).Accepts c (.string user) →
      (Prim.string .authPass).Accepts c (.string pass) →
      MessageFrames c .authenticate v
        [.messageStart, .length v, .messageType .authenticate, .string user, .string pass]

end Sys2Proof.Machine
end

section
/-! Messages and complete walks (spec 30 R82 to R85, R90; 41 R142, R144 to R149, R152): a walk is complete exactly on
the bytes of one Ping or Authenticate message. -/

namespace Sys2Proof.Machine

/-! The two message grammars. -/

/-- At a tag position the grammar lets exactly the lists follow that begin with a frame of the position. -/
theorem route_of_primAt {c : Cfg} {g : Pos} {k : Prim} {fs : List Frame} (hk : primAt g = some k) :
    Route c g fs ↔ ∃ f fs', fs = f :: fs' ∧ k.Accepts c f ∧ f.reserved = false ∧ Route c (nextPos g f) fs' := by
  constructor
  · intro h
    cases h with
    | stop h => simp [hk] at h
    | frame hk' hacc hres h =>
      obtain rfl := Option.some.inj (hk.symm.trans hk')
      exact ⟨_, _, rfl, hacc, hres, h⟩
  · rintro ⟨f, fs', rfl, hacc, hres, h⟩
    exact .frame hk hacc hres h

theorem route_done {c : Cfg} {fs : List Frame} : Route c .done fs ↔ fs = [] := by
  constructor
  · intro h
    cases h with
    | stop => rfl
    | frame hk => cases hk
  · rintro rfl
    exact .stop rfl

/-- An optional timestamp goes on to the position after it, whichever of its two frames it is (41 R141). -/
theorem nextPos_of_optTime {c : Cfg} {g : Pos} {f : Frame} (h : (Prim.optTime g).Accepts c f) :
    nextPos .pingClient f = .pingServer ∧ nextPos .pingServer f = .done ∧ f.reserved = false := by
  cases h <;> exact ⟨rfl, rfl, rfl⟩

/-- The payload of a Ping message is two optional timestamps (30 R82). -/
theorem route_pingClient {c : Cfg} {fs : List Frame} : Route c .pingClient fs ↔
    ∃ cf sf, fs = [cf, sf] ∧ (Prim.optTime .pingClient).Accepts c cf ∧ (Prim.optTime .pingServer).Accepts c sf := by
  rw [route_of_primAt (k := .optTime .pingClient) rfl]
  constructor
  · rintro ⟨cf, _, rfl, hcf, -, h⟩
    rw [(nextPos_of_optTime hcf).1, route_of_primAt (k := .optTime .pingServer) rfl] at h
    obtain ⟨sf, _, rfl, hsf, -, h⟩ := h
    rw [(nextPos_of_optTime hsf).2.1, route_done] at h
    exact ⟨cf, sf, by rw [h], hcf, hsf⟩
  · rintro ⟨cf, sf, rfl, hcf, hsf⟩
    obtain ⟨hnext, -, hres⟩ := nextPos_of_optTime hcf
    obtain ⟨-, hdone, hres'⟩ := nextPos_of_optTime hsf
    exact ⟨cf, [sf], rfl, hcf, hres, hnext ▸ .frame rfl hsf hres' (hdone ▸ .stop rfl)⟩

/-- The payload of an Authenticate message is two strings (30 R83). -/
theorem route_authUser {c : Cfg} {fs : List Frame} : Route c .authUser fs ↔
    ∃ user pass, fs = [.string user, .string pass] ∧ (Prim.string .authUser).Accepts c (.string user) ∧
      (Prim.string .authPass).Accepts c (.string pass) := by
  rw [route_of_primAt (k := .string .authUser) rfl]
  constructor
  · rintro ⟨_, _, rfl, hu, -, h⟩
    cases hu with | string hu hu' => ?_
    obtain ⟨_, _, rfl, hp, -, h⟩ := (route_of_primAt (g := .authPass) (k := .string .authPass) rfl).mp h
    cases hp with | string hp hp' => ?_
    obtain rfl := route_done.mp h
    exact ⟨_, _, rfl, .string hu hu', .string hp hp'⟩
  · rintro ⟨user, pass, rfl, hu, hp⟩
    exact ⟨_, _, rfl, hu, rfl, .frame (g := .authPass) rfl hp rfl (.stop rfl)⟩

/-- From the start the grammar lets exactly the frame lists of the two message types follow (30 R82, R83). -/
theorem route_start {c : Cfg} {fs : List Frame} : Route c .start fs ↔ ∃ ty v, MessageFrames c ty v fs := by
  rw [route_of_primAt (k := .messageStart) rfl]
  constructor
  · rintro ⟨_, _, rfl, ⟨⟩, -, h⟩
    rw [nextPos, route_of_primAt (k := .frameLength) rfl] at h
    obtain ⟨_, _, rfl, hv, -, h⟩ := h
    cases hv with | length hv => ?_
    rw [nextPos, route_of_primAt (k := .messageType) rfl] at h
    obtain ⟨_, _, rfl, ht, hres, h⟩ := h
    cases ht with | @messageType t ht => ?_
    rw [nextPos] at h
    cases t with
    | ping =>
      obtain ⟨cf, sf, rfl, hcf, hsf⟩ := route_pingClient.mp h
      exact ⟨_, _, .ping hv ht hcf hsf⟩
    | authenticate =>
      obtain ⟨user, pass, rfl, hu, hp⟩ := route_authUser.mp h
      exact ⟨_, _, .authenticate hv ht hu hp⟩
    | success | fail | set | get | delete => cases hres
  · rintro ⟨ty, v, h⟩
    cases h with
    | ping hv ht hcf hsf =>
      exact ⟨_, _, rfl, .messageStart, rfl, .frame rfl (.length hv) rfl (.frame rfl (.messageType ht) rfl
        (route_pingClient.mpr ⟨_, _, rfl, hcf, hsf⟩))⟩
    | authenticate hv ht hu hp =>
      exact ⟨_, _, rfl, .messageStart, rfl, .frame rfl (.length hv) rfl (.frame rfl (.messageType ht) rfl
        (route_authUser.mpr ⟨_, _, rfl, hu, hp⟩))⟩

/-! Complete walks. -/

/-- The bytes of a frame list. -/
def encodeFrames (c : Cfg) (fs : List Frame) : List Byte := fs.flatMap (encodeFrame c)

/-- The registers of a complete walk over a message (41 R152). -/
def messageEnd (op : Command) (n : Nat) (ty : MessageType) (v : U64) (fs : List Frame) : Walk where
  p := n
  g := .done
  acc := if op = .parse then fs else []
  mt := some ty
  flen := some v

theorem takeAll_message {c : Cfg} {ty : MessageType} {v : U64} {fs : List Frame} (h : MessageFrames c ty v fs)
    (op : Command) :
    { Walk.init.takeAll c op fs with g := .done } = messageEnd op (encodeFrames c fs).length ty v fs := by
  have hp := Walk.takeAll_p c op Walk.init fs
  rw [show Walk.init.p = 0 from rfl, Nat.zero_add] at hp
  rw [encodeFrames, ← hp]
  cases h with
  | ping _ _ hcf hsf => cases op <;> cases hcf <;> cases hsf <;> rfl
  | authenticate => cases op <;> rfl

/-- A walk is complete exactly on a window that begins with the frames of one message, and reports them. -/
theorem walk_eq_complete {c : Cfg} {op : Command} {w : List Byte} {r : Walk} :
    walk c op w = .complete r ↔
      ∃ ty v fs, MessageFrames c ty v fs ∧ encodeFrames c fs <+: w ∧
        r = messageEnd op (encodeFrames c fs).length ty v fs := by
  rw [walk_eq_resume, Walk.resume_eq_complete]
  constructor
  · rintro ⟨fs, hroute, ⟨-, hs⟩, rfl⟩
    obtain ⟨ty, v, h⟩ := route_start.mp hroute
    exact ⟨ty, v, fs, h, hs, takeAll_message h op⟩
  · rintro ⟨ty, v, fs, h, hs, rfl⟩
    exact ⟨fs, route_start.mpr ⟨ty, v, h⟩, ⟨(Nat.zero_add _).symm, hs⟩, (takeAll_message h op).symm⟩

/-- Settles O38: the first `N` bytes begin with the same frames. -/
theorem phasesAgree : Obligations.PhasesAgree := by
  intro c w r h
  obtain ⟨ty, v, fs, hm, hw, rfl⟩ := walk_eq_complete.mp h
  refine ⟨fs, walk_eq_complete.mpr ⟨ty, v, fs, hm, ?_, rfl⟩, hw.length_le, nofun, nofun, rfl, rfl⟩
  exact List.prefix_take_iff.mpr ⟨hw, le_rfl⟩

/-- Settles O43: a window with the same first bytes begins with the same frames. -/
theorem bytesPastMessageNotRead : Obligations.BytesPastMessageNotRead := by
  intro c op w w' r h htake
  obtain ⟨ty, v, fs, hm, hw, rfl⟩ := walk_eq_complete.mp h
  refine walk_eq_complete.mpr ⟨ty, v, fs, hm, ?_, rfl⟩
  have hpre : encodeFrames c fs <+: w.take (encodeFrames c fs).length := List.prefix_take_iff.mpr ⟨hw, le_rfl⟩
  exact (htake ▸ hpre).trans (List.take_prefix _ _)

/-- Settles O44: were the front part not incomplete, the message would end as it does, too early. -/
theorem frontPartsIncomplete : Obligations.FrontPartsIncomplete := by
  intro c m r h hlen
  refine ⟨fun k hk => ?_, fun x => (walkStableUnderAppend c .check m x).1 r h⟩
  obtain hi | he := walk_append c .check (m.take k) (m.drop k)
  · exact hi
  · rw [List.take_append_drop, h] at he
    obtain ⟨ty, v, fs, -, hw, rfl⟩ := walk_eq_complete.mp he.symm
    have := hw.length_le
    rw [List.length_take] at this
    simp only [messageEnd] at hlen
    omega

/-- An accepted optional timestamp is the frame of an option, and the other way round (30 R90, 41 R152). -/
theorem accepts_optTime {c : Cfg} {g : Pos} {f : Frame} (h : (Prim.optTime g).Accepts c f) :
    ∃ t, optTimeFrame c t = some f ∧ encodeFrame c f = encode c (.optTime t) := by
  cases h with
  | @optTime _ s i _ hi => exact ⟨some s, by rw [optTimeFrame, hi]; rfl, rfl⟩
  | optNull => exact ⟨none, rfl, rfl⟩

theorem optTimeFrame_accepts {c : Cfg} {t : Option (List Byte)} {f : Frame} (hc : c.WF)
    (hcount : optCountOk c t = true) (h : optTimeFrame c t = some f) (g : Pos) :
    (Prim.optTime g).Accepts c f ∧ encodeFrame c f = encode c (.optTime t) := by
  cases t with
  | none =>
    obtain rfl := Option.some.inj h
    exact ⟨.optNull fun e => (nomatch Cfg.tag_injective hc (t := .null) (u := .time) e), rfl⟩
  | some s =>
    obtain ⟨i, hi, rfl⟩ := Option.map_eq_some_iff.mp h
    exact ⟨.optTime hcount hi, rfl⟩

/-- The five frames of a Ping message spell it (30 R82). -/
theorem encodeFrames_ping {c : Cfg} {client server : Option (List Byte)} {cf sf : Frame} (v : U64)
    (hc : encodeFrame c cf = encode c (.optTime client)) (hs : encodeFrame c sf = encode c (.optTime server)) :
    encodeFrames c [.messageStart, .length v, .messageType .ping, cf, sf] = pingMessage c v client server := by
  simp only [encodeFrames, List.flatMap_cons, List.flatMap_nil, hc, hs, pingMessage, pingRest, List.append_assoc,
    List.append_nil]
  rfl

/-- The five frames of an Authenticate message spell it (30 R83). -/
theorem encodeFrames_auth (c : Cfg) (v : U64) (user pass : List Byte) :
    encodeFrames c [.messageStart, .length v, .messageType .authenticate, .string user, .string pass] =
      authMessage c v user pass := by
  simp [encodeFrames, encodeFrame, authMessage, authRest, encode]

/-- Settles O41: the frames of a complete walk are those of a message. -/
theorem completeMeansOneMessage : Obligations.CompleteMeansOneMessage := by
  intro c w r h
  obtain ⟨ty, v, fs, hm, hw, rfl⟩ := walk_eq_complete.mp h
  refine ⟨v, rfl, hw.length_le, ?_⟩
  have htake : w.take (encodeFrames c fs).length = encodeFrames c fs := (List.prefix_iff_eq_take.mp hw).symm
  cases hm with
  | ping _ _ hcf hsf =>
    obtain ⟨client, hc, hce⟩ := accepts_optTime hcf
    obtain ⟨server, hs, hse⟩ := accepts_optTime hsf
    exact .inl ⟨client, server, _, _, rfl, htake.trans (encodeFrames_ping v hce hse), hc, hs, rfl⟩
  | authenticate _ _ hu hp =>
    cases hu with | string _ hu => ?_
    cases hp with | string _ hp => ?_
    exact .inr ⟨_, _, rfl, htake.trans (encodeFrames_auth c v _ _), hu, hp, rfl⟩

/-- A message with the encoder's frame-length value is the one whose value is its length minus 10 (30 R90, D24). -/
theorem declared_eq_some_iff (c : Cfg) (v : U64) (rest : List Byte) :
    (declaredLength rest).map (fun v => encode c .start ++ encode c (.flen v) ++ rest) =
        some (encode c .start ++ encode c (.flen v) ++ rest) ↔
      v.toNat + 10 = (encode c .start ++ encode c (.flen v) ++ rest).length := by
  have hlen : (encode c .start ++ encode c (.flen v) ++ rest).length = 10 + rest.length := by
    simp only [List.length_append, length_encode, Instr.size]
  have hinj (u : U64) (h : encode c .start ++ encode c (.flen u) ++ rest =
      encode c .start ++ encode c (.flen v) ++ rest) : u = v := by
    have hb : bytes64 u = bytes64 v := by simpa [encode] using h
    rw [← be64_bytes64 u, hb, be64_bytes64]
  rw [hlen, Option.map_eq_some_iff]
  constructor
  · rintro ⟨u, hu, he⟩
    rw [← hinj u he, declaredLength_eq_some.mp hu, Nat.add_comm]
  · intro h
    exact ⟨v, declaredLength_eq_some.mpr (by omega), rfl⟩

/-- Settles O39: the message spells the five frames of a Ping. -/
theorem pingMessagesComplete : Obligations.PingMessagesComplete := by
  intro c op v client server cf sf tail hc hv hclient hserver hcf hsf
  obtain ⟨hca, hce⟩ := optTimeFrame_accepts hc hclient hcf .pingClient
  obtain ⟨hsa, hse⟩ := optTimeFrame_accepts hc hserver hsf .pingServer
  have hm := MessageFrames.ping hv (decodeType_code hc .ping) hca hsa
  have hlen : (pingMessage c v client server).length =
      12 + (Instr.optTime client).size c + (Instr.optTime server).size c := by
    simp only [pingMessage, pingRest, List.length_append, length_encode, Instr.size]
    omega
  refine ⟨walk_eq_complete.mpr ⟨_, _, _, hm, ?_, ?_⟩, hlen, declared_eq_some_iff c v (pingRest c client server)⟩
  · rw [encodeFrames_ping v hce hse]
    exact List.prefix_append _ _
  · rw [encodeFrames_ping v hce hse, hlen, messageEnd]

/-- Settles O40: the message spells the five frames of an Authenticate. -/
theorem authMessagesComplete : Obligations.AuthMessagesComplete := by
  intro c op v user pass tail hc hv huser hpass hu hp
  have hm := MessageFrames.authenticate hv (decodeType_code hc .authenticate) (.string huser hu) (.string hpass hp)
  have hlen : (authMessage c v user pass).length =
      12 + (9 + user.length + c.delim.length) + (9 + pass.length + c.delim.length) := by
    simp only [authMessage, authRest, List.length_append, length_encode, Instr.size]
    omega
  refine ⟨walk_eq_complete.mpr ⟨_, _, _, hm, ?_, ?_⟩, hlen, declared_eq_some_iff c v (authRest c user pass)⟩
  · rw [encodeFrames_auth]
    exact List.prefix_append _ _
  · rw [encodeFrames_auth, hlen, messageEnd]

/-! Walks past the header. -/

/-- A walk over a frame that stands and is accepted goes on after it. -/
theorem Walk.resume_of_span {c : Cfg} {w : List Byte} {r : Walk} {k : Prim} {f : Frame} {p' : Nat} (op : Command)
    (hk : primAt r.g = some k) (hacc : k.Accepts c f) (hres : f.reserved = false)
    (hs : Spans w r.p (encodeFrame c f) p') : r.resume c op w = (r.take op f p').resume c op w := by
  rw [r.resume_of_primAt c op w hk, Prim.read_eq_ok.mpr ⟨hacc, hres, hs⟩, Walk.goOn]

/-- Settles O46: after the header the type dispatch finds the reserved code at offset 11. -/
theorem reservedMessageInvalid : Obligations.ReservedMessageInvalid := by
  intro c op v t tail hc hv ht
  have hres : reservedType t = true := by
    cases t with
    | ping | authenticate => simp at ht
    | _ => rfl
  have hw : encode c .start ++ encode c (.flen v) ++ encodeType c t ++ tail =
      encodeFrame c .messageStart ++ (encodeFrame c (.length v) ++ encodeFrame c (.messageType t)) ++ tail := by
    simp [encode, encodeFrame]
  have hs := spans_append_middle []
    (encodeFrame c .messageStart ++ (encodeFrame c (.length v) ++ encodeFrame c (.messageType t))) tail
  rw [List.nil_append, ← hw] at hs
  generalize encode c .start ++ encode c (.flen v) ++ encodeType c t ++ tail = w at hs
  obtain ⟨p1, hs1, hs⟩ := spans_append.mp hs
  obtain ⟨p2, hs2, hs3⟩ := spans_append.mp hs
  obtain rfl : p2 = 10 := by rw [hs2.1, hs1.1]; simp [encodeFrame, Laws.length_bytes64]
  have hrun : Prim.messageType.run c w 10 = .ok (.messageType t) 12 :=
    Prim.run_eq_ok.mpr ⟨.messageType (decodeType_code hc t), rfl, hs3.2⟩
  have hcode : byteRead w 11 = some (c.code t) := (spans_cons.mp (spans_cons.mp hs3).2).1
  rw [walk_eq_resume, Walk.resume_of_span op (k := .messageStart) rfl .messageStart rfl hs1,
    Walk.resume_of_span op (k := .frameLength) rfl (.length hv) rfl hs2,
    Walk.resume_of_primAt c op w (k := .messageType) rfl, Prim.read, Walk.take_p, hrun]
  simp [Frame.reserved, hres, hcode, Walk.goOn, notImplemented]

/-- The windows with other bytes between two parts agree from the second part on. -/
theorem agrees_replace (a x x' z : List Byte) (hx : x.length = x'.length) :
    Agrees (a.length + x.length) (a ++ x ++ z) (a ++ x' ++ z) := by
  intro q hq b hb
  unfold byteRead at hb ⊢
  rw [List.getElem?_append_right (by rw [List.length_append]; omega), List.length_append] at hb ⊢
  rwa [← hx]

/-- With no limit, the frame-length frame is read on its tag and any eight bytes (D5). -/
theorem read_frameLength {c : Cfg} {b : Byte} {x : List Byte} (hlimit : c.maxDeclaredLen = none)
    (hb : b = c.tagFrameLength) (hx : x.length = 8) (a z : List Byte) :
    Prim.frameLength.read c (a ++ b :: x ++ z) a.length = .ok (.length (be64 x)) (a.length + 9) := by
  have hs := spans_append_middle a (encodeFrame c (.length (be64 x))) z
  rw [encodeFrame, bytes64_be64 hx, List.length_cons, hx] at hs
  have hadm : Admits c (be64 x).toNat := by simp [Admits, hlimit]
  subst hb
  exact Prim.read_eq_ok.mpr ⟨.length hadm, rfl, by rwa [encodeFrame, bytes64_be64 hx]⟩

/-- Without its tag the frame-length frame is `BAD_TAG`, whatever follows. -/
theorem read_frameLength_badTag {c : Cfg} {b : Byte} (hb : b ≠ c.tagFrameLength) (a z : List Byte) :
    Prim.frameLength.read c (a ++ b :: z) a.length = .invalid (badTag [.frameLength] .flenTag a.length b) := by
  simp [Prim.read, Prim.run, pFrameLength, pTag_of_ne (t := .frameLength) (byteRead_append a z b) hb]

/-- The message start is its tag alone (40 R104). -/
theorem read_messageStart (c : Cfg) (w : List Byte) (p : Nat) :
    Prim.messageStart.read c w p = (pTag c w .messageStart .start p).andThen fun _ q => .ok .messageStart q := by
  rw [Prim.read, Prim.run, pMessageStart]
  cases pTag c w .messageStart .start p <;> rfl

/-- Settles O45: with no limit the frame-length frame is read whatever its value, and after it both walks are at the
same place of the same bytes. -/
theorem frameLengthNotChecked : Obligations.FrameLengthNotChecked := by
  intro c a x x' z hlimit ha hx hx'
  obtain ⟨b0, b1, rfl⟩ : ∃ b0 b1, a = [b0, b1] := by
    match a, ha with
    | [b0, b1], _ => exact ⟨b0, b1, rfl⟩
  have hstart (y : List Byte) : Prim.messageStart.read c ([b0, b1] ++ y ++ z) Walk.init.p =
      Prim.messageStart.read c [b0, b1] 0 := by
    rw [read_messageStart, read_messageStart]
    rfl
  rw [walk_eq_resume, walk_eq_resume, Walk.resume_of_primAt c _ _ (k := .messageStart) rfl,
    Walk.resume_of_primAt c _ _ (k := .messageStart) rfl, hstart, hstart]
  cases hread : Prim.messageStart.read c [b0, b1] 0 with
  | incomplete | invalid => rfl
  | ok f p1 =>
    obtain ⟨⟨⟩, -, hs⟩ := Prim.read_eq_ok.mp hread
    obtain rfl : p1 = 1 := hs.1
    rw [Walk.goOn, Walk.goOn, Walk.resume_of_primAt c _ _ (k := .frameLength) rfl,
      Walk.resume_of_primAt c _ _ (k := .frameLength) rfl, Walk.take_p]
    by_cases hb : b1 = c.tagFrameLength
    · have hread (y : List Byte) (hy : y.length = 8) : Prim.frameLength.read c ([b0, b1] ++ y ++ z) 1 =
          .ok (.length (be64 y)) 10 := read_frameLength hlimit hb hy [b0] z
      rw [hread x hx, hread x' hx', Walk.goOn, Walk.goOn]
      refine checkOutput_eq_of_alike (Walk.resume_alike_of_agrees (Walk.alike_place _ _) ⟨rfl, rfl⟩ ?_ ?_)
      · simpa [hx] using agrees_replace [b0, b1] x x' z (hx.trans hx'.symm)
      · simpa [hx'] using agrees_replace [b0, b1] x' x z (hx'.trans hx.symm)
    · have hread (y : List Byte) : Prim.frameLength.read c ([b0, b1] ++ y ++ z) 1 =
          .invalid (badTag [.frameLength] .flenTag 1 b1) := read_frameLength_badTag hb [b0] (y ++ z)
      rw [hread x, hread x']
      rfl

end Sys2Proof.Machine
end

section
/-! What each instruction answers (spec 40 R104 to R114; 41 R142, R144; 60 R200 to R207): the frames where they stand,
the causes they raise, and the refusals. -/

namespace Sys2Proof.Machine

/-! Taking an exception. -/

/-- Under `CHECK` an exception is returned with the error record, and the check has confirmed nothing (60 R207). -/
theorem raiseInvalid_check {s : State} (ho : s.op = .check) (e : ErrorRecord) :
    raiseInvalid s e =
      .next { s with out := .invalid e, confirmed := none, regs := Walk.init, phase := .checked } :=
  endWalk_check ho _

/-- Under `PARSE` it is the fault of a broken precondition (41 R145). -/
theorem raiseInvalid_parse {s : State} (ho : s.op = .parse) (e : ErrorRecord) :
    raiseInvalid s e = .fault .parsePrecondition := by
  rw [raiseInvalid, endWalk, ho]

/-! The tag check. -/

/-- Every frame begins with the check of its tag. -/
theorem exec_eq_onTag {i : Instr} {t : Tag} (h : i.tag? = some t) (s : State) : ∃ k, exec i s = onTag s t k := by
  cases i with
  | check | parse => cases h
  | start | flen | str | time | null => cases h; exact ⟨_, rfl⟩
  | typePing | typeAuthenticate | typeSuccess | typeFail | typeSet | typeGet | typeDelete =>
    cases h; exact ⟨_, rfl⟩
  | typeInvalid b =>
    cases h
    cases hd : decodeType s.cfg b with
    | none => exact ⟨stepResult s (typeFrame s.cfg b (s.regs.p + 1)), by simp only [exec, execTypeInvalid, hd]⟩
    | some t =>
      obtain ⟨k, hk⟩ : ∃ k, execType t s = onTag s .messageType k := ⟨_, rfl⟩
      exact ⟨k, by simp only [exec, execTypeInvalid, hd, hk]⟩
  | optTime x => cases x <;> (cases h; exact ⟨_, rfl⟩)

/-- At a position that accepts other tags a frame is `BAD_TAG` (30 R87). -/
theorem onTag_illegal {s : State} {t : Tag} (k : Answer) (hw : s.cfg.WF) (hl : s.regs.g.legal ≠ [])
    (ht : t ∉ s.regs.g.legal) :
    onTag s t k = raiseInvalid s (badTag s.regs.g.legal s.regs.g s.regs.p (s.cfg.tag t)) := by
  rw [onTag, requireCfg, if_pos hw, if_neg hl, if_neg ht]

/-- Settles O29: the tag check comes first. -/
theorem wrongTagRaisesBadTag : Obligations.WrongTagRaisesBadTag := by
  intro s i t hw ht hl hnot
  obtain ⟨k, hk⟩ := exec_eq_onTag ht s
  rw [hk, onTag_illegal k hw hl hnot]
  exact ⟨fun ho => raiseInvalid_check ho _, fun ho => raiseInvalid_parse ho _⟩

/-- Settles O31: every instruction asks for a well-formed configuration, and every frame for a tag position. -/
theorem refusalsByName : Obligations.RefusalsByName := by
  intro i s
  constructor
  · intro hw
    cases ht : i.tag? with
    | none =>
      cases i <;> simp only [Instr.tag?, reduceCtorEq] at ht
      case check | parse => exact if_neg hw
      case optTime x => cases x <;> simp at ht
    | some t =>
      obtain ⟨k, hk⟩ := exec_eq_onTag ht s
      rw [hk, onTag, requireCfg, if_neg hw]
  · intro hw hl ht
    obtain ⟨t, ht⟩ := Option.ne_none_iff_exists'.mp ht
    obtain ⟨k, hk⟩ := exec_eq_onTag ht s
    rw [hk, onTag, requireCfg, if_pos hw, if_pos hl]

/-! The frames at a position that accepts them. -/

section
variable {s : State} (hw : s.cfg.WF)
include hw

theorem exec_start (hg : .messageStart ∈ s.regs.g.legal) :
    exec .start s = stepResult s (.ok .messageStart (s.regs.p + 1)) := onTag_legal hw hg

theorem exec_flen (hg : .frameLength ∈ s.regs.g.legal) (v : U64) :
    exec (.flen v) s = stepResult s (lengthFrame s.cfg v (s.regs.p + 1) (s.regs.p + 9)) := onTag_legal hw hg

theorem exec_typeInstr (hg : .messageType ∈ s.regs.g.legal) (t : MessageType) :
    exec (typeInstr t) s =
      if reservedType t then raiseInvalid s (notImplemented (s.regs.p + 1) (some (s.cfg.code t)))
      else stepResult s (.ok (.messageType t) (s.regs.p + 2)) := by
  rw [← onTag_legal hw hg (k := if reservedType t then _ else _)]
  cases t <;> rfl

theorem exec_typeInvalid (hg : .messageType ∈ s.regs.g.legal) {b : Byte} (hb : decodeType s.cfg b = none) :
    exec (.typeInvalid b) s = raiseInvalid s
      { cause := .invalidMessageType, offset := s.regs.p + 1, expected := .position .typeCode, got := some b } := by
  simp only [exec, execTypeInvalid, hb, onTag_legal hw hg, typeFrame, stepResult]

theorem exec_str (hg : .string ∈ s.regs.g.legal) (x : List Byte) :
    exec (.str x) s = stepResult s (bodyResult s x (stringFrame s.regs.g x)) := onTag_legal hw hg

theorem exec_time (hg : .time ∈ s.regs.g.legal) (x : List Byte) :
    exec (.time x) s = stepResult s (bodyResult s x (timeFrame s.cfg s.regs.g x)) := onTag_legal hw hg

theorem exec_null (hg : .null ∈ s.regs.g.legal) :
    exec .null s = stepResult s (.ok .null (s.regs.p + 1)) := onTag_legal hw hg

end

/-- The pseudo-frame is the frame it expands to (30 R90). -/
theorem exec_optTime_none (s : State) : exec (.optTime none) s = exec .null s := rfl

theorem exec_optTime_some (x : List Byte) (s : State) : exec (.optTime (some x)) s = exec (.time x) s := rfl

/-- Within the limit the content check of a body answers (40 R102). -/
theorem bodyResult_of_admits {s : State} {x : List Byte} (h : Admits s.cfg x.length)
    (content : Nat → Nat → Res Frame) :
    bodyResult s x content = content (s.regs.p + 9) (s.regs.p + 9 + x.length + s.cfg.delim.length) :=
  cap_of_le h _ _ _

/-- A count over the limit is `OVERSIZE` (40 R102). -/
theorem cap_oversize {α : Type} {c : Cfg} {m v : Nat} (hm : c.maxDeclaredLen = some m) (hlt : m < v) (q : Nat)
    (g : Pos) (k : Res α) :
    cap c v q g k = .invalid { cause := .oversize, offset := q, expected := .position g, got := none } := by
  simp [cap, hm, hlt]

/-- Settles O21: each header frame takes itself. -/
theorem headerFramesComplete : Obligations.HeaderFramesComplete := by
  intro s hw
  refine ⟨fun hg => ?_, fun v hg hv => ?_, fun hg => ⟨?_, ?_⟩⟩
  · rw [exec_start hw (by simp [hg, Pos.legal])]
    rfl
  · rw [exec_flen hw (by simp [hg, Pos.legal]), lengthFrame, cap_of_le hv]
    rfl
  · exact exec_typeInstr hw (by simp [hg, Pos.legal]) .ping
  · exact exec_typeInstr hw (by simp [hg, Pos.legal]) .authenticate

/-- Settles O22: the type dispatch raises the exception whatever the type's payload would be. -/
theorem reservedTypesNotImplemented : Obligations.ReservedTypesNotImplemented := by
  intro s i t hw hg hi
  obtain ⟨rfl, hres⟩ : i = typeInstr t ∧ reservedType t = true := by
    simp only [List.mem_cons, List.not_mem_nil, or_false, Prod.mk.injEq] at hi
    obtain ⟨rfl, rfl⟩ | ⟨rfl, rfl⟩ | ⟨rfl, rfl⟩ | ⟨rfl, rfl⟩ | ⟨rfl, rfl⟩ := hi <;> exact ⟨rfl, rfl⟩
  rw [exec_typeInstr hw (by simp [hg, Pos.legal]), if_pos hres]
  exact ⟨fun ho => raiseInvalid_check ho _, fun ho => raiseInvalid_parse ho _⟩

/-- Settles O23: a byte that is the code of no type decodes to none. -/
theorem unknownCodeInvalid : Obligations.UnknownCodeInvalid := by
  intro s b hw hg hb
  rw [exec_typeInvalid hw (by simp [hg, Pos.legal]) (decodeType_eq_none.mpr hb)]
  exact ⟨fun ho => raiseInvalid_check ho _, fun ho => raiseInvalid_parse ho _⟩

/-- Settles O24: within the limit, well-formed content is taken. -/
theorem stringFrameCompletes : Obligations.StringFrameCompletes := by
  intro s x hw hutf hadm
  have hexec (hg : .string ∈ s.regs.g.legal) : exec (.str x) s =
      .next (s.takeFrame (.string x) (s.regs.p + (9 + x.length + s.cfg.delim.length))) := by
    rw [exec_str hw hg, bodyResult_of_admits hadm, stringFrame, if_pos hutf]
    simp only [stepResult, Nat.add_assoc]
  constructor <;> intro hg <;> rw [hexec (by simp [hg, Pos.legal])] <;>
    simp [State.takeFrame, Walk.take, nextPos, hg]

/-- Settles O25: within the limit, an accepted text is taken, and the optional timestamp is that frame. -/
theorem timeFrameCompletes : Obligations.TimeFrameCompletes := by
  intro s x i g' hw hi hadm hg
  rw [exec_optTime_some, and_self]
  have hnext : .time ∈ s.regs.g.legal ∧ nextPos s.regs.g (.time x i) = g' := by
    simp only [List.mem_cons, List.not_mem_nil, or_false, Prod.mk.injEq] at hg
    obtain ⟨hg, rfl⟩ | ⟨hg, rfl⟩ := hg <;> simp [hg, Pos.legal, nextPos]
  rw [exec_time hw hnext.1, bodyResult_of_admits hadm, timeFrame, hi]
  simp only [stepResult, State.takeFrame, Walk.take, hnext.2, Nat.add_assoc]

/-- Settles O26: the null marker is taken, and the absent timestamp is that frame. -/
theorem nullMarkerCompletes : Obligations.NullMarkerCompletes := by
  intro s g' hw hg
  rw [exec_optTime_none, and_self]
  have hnext : .null ∈ s.regs.g.legal ∧ nextPos s.regs.g .null = g' := by
    simp only [List.mem_cons, List.not_mem_nil, or_false, Prod.mk.injEq] at hg
    obtain ⟨hg, rfl⟩ | ⟨hg, rfl⟩ := hg <;> simp [hg, Pos.legal, nextPos]
  rw [exec_null hw hnext.1]
  simp only [stepResult, State.takeFrame, Walk.take, hnext.2]

/-- Settles O27: within the limit, content that is not accepted raises its cause. -/
theorem contentErrorsRaised : Obligations.ContentErrorsRaised := by
  intro s x hw ho hadm
  refine ⟨fun hg hutf => ?_, fun hg hi => ⟨?_, exec_optTime_some x s⟩⟩
  · have hlegal : .string ∈ s.regs.g.legal := by obtain hg | hg := hg <;> simp [hg, Pos.legal]
    rw [exec_str hw hlegal, bodyResult_of_admits hadm, stringFrame, if_neg (by simp [hutf])]
    exact raiseInvalid_check ho _
  · have hlegal : .time ∈ s.regs.g.legal := by obtain hg | hg := hg <;> simp [hg, Pos.legal]
    rw [exec_time hw hlegal, bodyResult_of_admits hadm, timeFrame, hi]
    exact raiseInvalid_check ho _

/-- Settles O28: the limit is asked before anything else of the frame. -/
theorem oversizeRaised : Obligations.OversizeRaised := by
  intro s m hw ho hm
  refine ⟨fun v hg hlt => ?_, fun i x hlt hi => ?_⟩
  · rw [exec_flen hw (by simp [hg, Pos.legal]), lengthFrame, cap_oversize hm hlt]
    exact raiseInvalid_check ho _
  · obtain ⟨content, hexec⟩ : ∃ content, exec i s = stepResult s (bodyResult s x content) := by
      obtain ⟨rfl, hg⟩ | ⟨hi, hg⟩ := hi
      · exact ⟨_, exec_str hw (by obtain hg | hg := hg <;> simp [hg, Pos.legal]) x⟩
      · have hexec := exec_time hw (by obtain hg | hg := hg <;> simp [hg, Pos.legal]) x
        obtain rfl | rfl := hi
        · exact ⟨_, hexec⟩
        · exact ⟨_, hexec⟩
    rw [hexec, bodyResult, cap_oversize hm hlt]
    exact raiseInvalid_check ho _

end Sys2Proof.Machine
end

section
/-! A step of a walk (spec 41 R140; 30 R86 to R88): fetching the frame at the cursor and executing it is the position's
primitive, with the type dispatch after it; so a walk run step by step comes to the end of the walk as one. -/

namespace Sys2Proof.Machine

/-! The decoder at a position. -/

/-- A legal tag is read, and the rest of its frame follows (30 R88). -/
theorem decodeAt_legal {c : Cfg} {w : List Byte} {g : Pos} {p : Nat} {t : Tag} (hw : c.WF) (ht : t ∈ g.legal)
    (hb : byteRead w p = some (c.tag t)) : decodeAt c w g p = decodeRest c w g p t := by
  simp [decodeAt, hb, decodeTag_tag hw, ht]

/-- A byte that spells no legal tag is `BAD_TAG` (30 R87). -/
theorem decodeAt_illegal {c : Cfg} {w : List Byte} {g : Pos} {p : Nat} {b : Byte} (hb : byteRead w p = some b)
    (h : ∀ t ∈ g.legal, c.tag t ≠ b) : decodeAt c w g p = .invalid (badTag g.legal g p b) := by
  cases hd : decodeTag c b with
  | none => simp [decodeAt, hb, hd]
  | some t =>
    have ht : t ∉ g.legal := fun ht => h t ht (decodeTag_sound hd)
    simp [decodeAt, hb, hd, ht]

theorem decodeAt_missing {c : Cfg} {w : List Byte} {p : Nat} (g : Pos) (hb : byteRead w p = none) :
    decodeAt c w g p = .incomplete := by
  simp [decodeAt, hb]

/-- At a position of one tag the decoder is the tag match and then the rest of the frame. -/
theorem decodeAt_of_legal_eq {c : Cfg} {w : List Byte} {g : Pos} {t : Tag} (hw : c.WF) (hg : g.legal = [t]) (p : Nat) :
    decodeAt c w g p = (pTag c w t g p).andThen fun _ _ => decodeRest c w g p t := by
  obtain ⟨hb, hr⟩ | ⟨hb, hr⟩ | ⟨b, hb, hne, hr⟩ := pTag_cases c w t g p <;> rw [hr]
  · exact decodeAt_missing g hb
  · exact decodeAt_legal hw (by simp [hg]) hb
  · rw [decodeAt_illegal hb (by simpa [hg] using hne.symm), hg]
    rfl

/-! One step. -/

/-- What a step does with what the decoder read at the cursor. -/
def runDecoded (s : State) : Res Instr → Answer
  | .ok i _ => exec i s
  | .incomplete => endWalk s .incomplete
  | .invalid e => endWalk s (.invalid e)

/-- At a tag position of a walk, a step decodes and executes (41 R140). -/
theorem step_of_walking {s : State} (hp : s.phase = .walking) (hw : s.cfg.WF) (hl : s.regs.g.legal ≠ []) :
    step s = runDecoded s (decodeAt s.cfg s.window s.regs.g s.regs.p) := by
  have hdone : s.regs.g ≠ .done := fun h => hl (by rw [h]; rfl)
  have hend (e : WalkEnd) : endFetched s e = endWalk s e := by
    rw [endFetched, requireCfg, if_pos hw, if_neg (fun h => hl h.1)]
  simp only [step, hp, fetch, if_neg hdone]
  cases decodeAt s.cfg s.window s.regs.g s.regs.p with
  | ok i p' => rfl
  | incomplete | invalid => exact hend _

/-- A primitive but the message type's has no type dispatch after it. -/
theorem Prim.read_eq_run {k : Prim} (hk : k ≠ .messageType) (c : Cfg) (w : List Byte) (p : Nat) :
    k.read c w p = k.run c w p := by
  rw [Prim.read]
  cases hr : k.run c w p with
  | incomplete | invalid => rfl
  | ok f p' =>
    have hres : f.reserved = false := by
      cases (Prim.run_eq_ok.mp hr).1 with
      | messageType => exact absurd rfl hk
      | _ => rfl
    simp [hres]

/-- At a position of one tag, it is enough that the frames agree after the tag. -/
theorem runDecoded_of_legal_eq {s : State} {t : Tag} {k : Unit → Nat → Res Frame} (hw : s.cfg.WF)
    (hg : s.regs.g.legal = [t])
    (h : runDecoded s (decodeRest s.cfg s.window s.regs.g s.regs.p t) = stepResult s (k () (s.regs.p + 1))) :
    runDecoded s (decodeAt s.cfg s.window s.regs.g s.regs.p) =
      stepResult s ((pTag s.cfg s.window t s.regs.g s.regs.p).andThen k) := by
  rw [decodeAt_of_legal_eq hw hg]
  obtain ⟨-, hr⟩ | ⟨-, hr⟩ | ⟨b, -, -, hr⟩ := pTag_cases s.cfg s.window t s.regs.g s.regs.p <;> rw [hr]
  · rfl
  · exact h
  · rfl

/-- A body that decodes is the frame's content check at the payload (40 R109). -/
theorem runDecoded_body {s : State} {i : List Byte → Instr} {content : List Byte → Nat → Nat → Res Frame}
    (hexec : ∀ x, exec (i x) s = stepResult s (bodyResult s x (content x))) :
    runDecoded s ((pBody s.cfg s.window s.regs.g (s.regs.p + 1)).andThen fun b p' => .ok (i b.1) p') =
      stepResult s ((pBody s.cfg s.window s.regs.g (s.regs.p + 1)).andThen fun b p' => content b.1 b.2 p') := by
  cases hb : pBody s.cfg s.window s.regs.g (s.regs.p + 1) with
  | incomplete | invalid => rfl
  | ok b p' =>
    obtain ⟨hcount, hs0, hspan⟩ := pBody_eq_ok.mp hb
    have hp' : p' = s.regs.p + 9 + b.1.length + s.cfg.delim.length := by
      rw [hspan.1, Laws.length_encodeBody]; omega
    simp only [Res.andThen_ok, runDecoded, hexec, bodyResult_of_admits ((countOk_iff _ _).mp hcount).2, hs0, hp']

section
variable {s : State} (hw : s.cfg.WF)
include hw

theorem runDecoded_start (hg : s.regs.g = .start) :
    runDecoded s (decodeAt s.cfg s.window s.regs.g s.regs.p) =
      stepResult s (pMessageStart s.cfg s.window s.regs.p) := by
  rw [pMessageStart, ← hg]
  exact runDecoded_of_legal_eq hw (by rw [hg]; rfl) (exec_start hw (by simp [hg, Pos.legal]))

theorem runDecoded_flen (hg : s.regs.g = .flenTag) :
    runDecoded s (decodeAt s.cfg s.window s.regs.g s.regs.p) =
      stepResult s (pFrameLength s.cfg s.window s.regs.p) := by
  rw [pFrameLength, ← hg]
  refine runDecoded_of_legal_eq hw (by rw [hg]; rfl) ?_
  rw [decodeRest]
  cases hv : pU64 s.window (s.regs.p + 1) with
  | incomplete | invalid => rfl
  | ok v p' =>
    obtain rfl : p' = s.regs.p + 9 := by rw [(pU64_eq_ok.mp hv).1, Laws.length_bytes64]
    exact exec_flen hw (by simp [hg, Pos.legal]) v

/-- A code byte's row is the end of `P_MESSAGE_TYPE` and the type dispatch (40 R107, 41 R142). -/
theorem exec_codeInstr (hg : s.regs.g = .typeTag) {b : Byte} (hb : byteRead s.window (s.regs.p + 1) = some b) :
    exec (codeInstr s.cfg b) s = stepResult s ((typeFrame s.cfg b (s.regs.p + 1)).andThen fun f p' =>
      if f.reserved then .invalid (notImplemented (p' - 1) (byteRead s.window (p' - 1))) else .ok f p') := by
  have hlegal : .messageType ∈ s.regs.g.legal := by simp [hg, Pos.legal]
  cases hd : decodeType s.cfg b with
  | none =>
    simp only [codeInstr, hd, typeFrame, Res.andThen_invalid, stepResult]
    exact exec_typeInvalid hw hlegal hd
  | some t =>
    simp only [codeInstr, hd, typeFrame, Res.andThen_ok, exec_typeInstr hw hlegal, Frame.reserved,
      Nat.add_sub_cancel, hb, decodeType_sound hd]
    split <;> rfl

theorem runDecoded_type (hg : s.regs.g = .typeTag) :
    runDecoded s (decodeAt s.cfg s.window s.regs.g s.regs.p) =
      stepResult s (Prim.messageType.read s.cfg s.window s.regs.p) := by
  have hassoc : Prim.messageType.read s.cfg s.window s.regs.p =
      (pTag s.cfg s.window .messageType s.regs.g s.regs.p).andThen fun _ q =>
        (match byteRead s.window q with
          | none => .incomplete
          | some b => typeFrame s.cfg b q : Res Frame).andThen fun f p' =>
            if f.reserved then .invalid (notImplemented (p' - 1) (byteRead s.window (p' - 1))) else .ok f p' := by
    rw [Prim.read, Prim.run, pMessageType, hg]
    cases pTag s.cfg s.window .messageType .typeTag s.regs.p <;> rfl
  rw [hassoc]
  refine runDecoded_of_legal_eq hw (by rw [hg]; rfl) ?_
  rw [decodeRest]
  cases hb : byteRead s.window (s.regs.p + 1) with
  | none => rfl
  | some b => exact exec_codeInstr hw hg hb

theorem runDecoded_string (hl : s.regs.g.legal = [.string]) :
    runDecoded s (decodeAt s.cfg s.window s.regs.g s.regs.p) =
      stepResult s (pString s.cfg s.window s.regs.g s.regs.p) :=
  runDecoded_of_legal_eq hw hl (runDecoded_body (exec_str hw (by simp [hl])))

/-- At an optional timestamp the tag byte selects the time frame or the null marker (40 R114). -/
theorem runDecoded_optTime (hl : s.regs.g.legal = [.time, .null]) :
    runDecoded s (decodeAt s.cfg s.window s.regs.g s.regs.p) =
      stepResult s (pOptTime s.cfg s.window s.regs.g s.regs.p) := by
  have htime : .time ∈ s.regs.g.legal := by simp [hl]
  have hnull : .null ∈ s.regs.g.legal := by simp [hl]
  cases hb : byteRead s.window s.regs.p with
  | none => rw [decodeAt_missing _ hb, pOptTime, hb]; rfl
  | some b =>
    simp only [pOptTime, hb]
    by_cases ht : b = s.cfg.tagTime
    · subst ht
      rw [decodeAt_legal hw htime hb, if_pos rfl, pTime_eq, bodyFrame_of_tag _ _ hb]
      exact runDecoded_body (exec_time hw htime)
    · rw [if_neg ht]
      by_cases hn : b = s.cfg.tagNull
      · subst hn
        rw [decodeAt_legal hw hnull hb, if_pos rfl]
        exact exec_null hw hnull
      · have hne : ∀ t ∈ s.regs.g.legal, s.cfg.tag t ≠ b := by
          simpa [hl, Cfg.tag] using ⟨Ne.symm ht, Ne.symm hn⟩
        rw [decodeAt_illegal hb hne, if_neg hn, hl]
        rfl

/-- Decoding and executing the frame at the cursor is the position's primitive with the type dispatch (41 R140). -/
theorem runDecoded_decodeAt {k : Prim} (hk : primAt s.regs.g = some k) :
    runDecoded s (decodeAt s.cfg s.window s.regs.g s.regs.p) =
      stepResult s (k.read s.cfg s.window s.regs.p) := by
  obtain ⟨g, hg⟩ : ∃ g, s.regs.g = g := ⟨_, rfl⟩
  rw [hg] at hk
  cases g with
  | start =>
    cases hk
    rw [Prim.read_eq_run (k := .messageStart) nofun]
    exact runDecoded_start hw hg
  | flenTag =>
    cases hk
    rw [Prim.read_eq_run (k := .frameLength) nofun]
    exact runDecoded_flen hw hg
  | typeTag =>
    cases hk
    exact runDecoded_type hw hg
  | pingClient | pingServer =>
    cases hk
    rw [Prim.read_eq_run (k := .optTime _) nofun, ← hg]
    exact runDecoded_optTime hw (by rw [hg]; rfl)
  | authUser | authPass =>
    cases hk
    rw [Prim.read_eq_run (k := .string _) nofun, ← hg]
    exact runDecoded_string hw (by rw [hg]; rfl)
  | flenValue | typeCode | done => cases hk

/-- A step at a tag position of a walk is the `STEP` of the position's primitive (41 R140). -/
theorem step_of_primAt (hp : s.phase = .walking) {k : Prim} (hk : primAt s.regs.g = some k) :
    step s = stepResult s (k.read s.cfg s.window s.regs.p) := by
  have hl : s.regs.g.legal ≠ [] := by
    cases hg : s.regs.g <;> rw [hg] at hk <;> cases hk <;> simp [Pos.legal]
  rw [step_of_walking hp hw hl, runDecoded_decodeAt hw hk]

/-- A step at the end of a walk ends the operation (41 R140). -/
theorem step_of_done (hp : s.phase = .walking) (hg : s.regs.g = .done) : step s = endWalk s (.complete s.regs) := by
  simp only [step, hp, fetch, if_pos hg]
  rw [endFetched, requireCfg, if_pos hw, if_neg (fun h => h.2 hg)]

end

/-- Settles O19: the `STEP` of the position's primitive, its type dispatch written out. -/
theorem frameStepIsPrimitiveStep : Obligations.FrameStepIsPrimitiveStep := by
  intro s k hp hw hk
  rw [step_of_primAt hw hp hk, Prim.read]
  cases k.run s.cfg s.window s.regs.p with
  | incomplete | invalid => rfl
  | ok f p' =>
    cases f with
    | messageType t =>
      cases hres : reservedType t <;> simp only [Res.andThen_ok, Frame.reserved, hres] <;> rfl
    | _ => rfl

/-- Settles O18: neither fetch adds anything. -/
theorem stepRunsDecodedInstruction : Obligations.StepRunsDecodedInstruction := by
  refine ⟨fun s hp ho => by simp [step, hp, ho, commandInstr], fun s hp ho => by simp [step, hp, ho, commandInstr],
    fun s i p' hp hd => ?_⟩
  obtain ⟨b, t, -, -, ht, -⟩ := decodeAt_eq_ok.mp hd
  have hdone : s.regs.g ≠ .done := fun h => by rw [h] at ht; cases ht
  simp only [step, hp, fetch, if_neg hdone, hd]

/-- Settles O30: such bytes decode to no frame, or to the row of an unknown code, and both raise their cause. -/
theorem illegalEncodingsInvalid : Obligations.IllegalEncodingsInvalid := by
  intro s b hp ho hw
  refine ⟨fun hb hl hne => ?_, fun hg hb hcode hne => ?_⟩
  · rw [step_of_walking hp hw hl, decodeAt_illegal hb hne]
    exact ⟨_, endWalk_check ho _, rfl⟩
  · have hlegal : .messageType ∈ s.regs.g.legal := by simp [hg, Pos.legal]
    have hd : decodeType s.cfg b = none := decodeType_eq_none.mpr hne
    have hrest : decodeRest s.cfg s.window s.regs.g s.regs.p .messageType = .ok (.typeInvalid b) (s.regs.p + 2) := by
      simp [decodeRest, byteRead, hcode, codeInstr, hd]
    rw [step_of_walking hp hw (List.ne_nil_of_mem hlegal), decodeAt_legal hw hlegal hb, hrest, runDecoded,
      exec_typeInvalid hw hlegal hd]
    exact ⟨_, raiseInvalid_check ho _, rfl⟩

end Sys2Proof.Machine
end

section
/-! The two commands (spec 41 R144, R145; 60 R204; 70 R241): what `CHECK` and `PARSE` answer in every state with a
well-formed configuration, when `PARSE` faults, and what no instruction changes. -/

namespace Sys2Proof.Machine

/-- A command is the end of its walk (10 R20). -/
theorem transact_eq {s : State} (hw : s.cfg.WF) (op : Command) :
    transact op s = endWalk { s with op := op } (walk s.cfg op ({ s with op := op } : State).window) := by
  rw [transact, requireCfg, if_pos hw]

theorem transact_refused {s : State} (hw : ¬ s.cfg.WF) (op : Command) : transact op s = .refused .badConfiguration := by
  rw [transact, requireCfg, if_neg hw]

/-- The command the host issued is the end of the walk of its window. -/
theorem exec_commandInstr {s : State} (hw : s.cfg.WF) :
    exec (commandInstr s.op) s = endWalk s (walk s.cfg s.op s.window) := by
  have h : exec (commandInstr s.op) s = transact s.op s := by cases s.op <;> rfl
  rw [h]
  exact transact_eq hw s.op

/-- `CHECK` returns the outcome of the walk of the buffer (41 R144). -/
theorem exec_check {s : State} (hw : s.cfg.WF) :
    exec .check s = .next (({ s with op := .check }.confirm (checkOutput s.checkOf)).returns .checked
      (checkOutput s.checkOf)) :=
  (transact_eq hw .check).trans (endWalk_check rfl _)

/-- `PARSE` ends the walk of the first `n_in` bytes (41 R145). -/
theorem exec_parse {s : State} (hw : s.cfg.WF) :
    exec .parse s = endWalk { s with op := .parse } (walk s.cfg .parse (s.buffer.bytes.take s.nIn)) :=
  transact_eq hw .parse

/-- Settles O32: the output is the walk's, and nothing else of the state is touched but what the end of a check
writes. -/
theorem checkReturnsOutcome : Obligations.CheckReturnsOutcome := by
  intro s hw
  refine ⟨_, exec_check hw, rfl, ?_, ?_, fun r h => ?_, fun h => ?_, fun e h => ?_⟩
  · rw [State.returns_out]; cases s.checkOf <;> rfl
  · rw [State.returns_out]; cases s.checkOf <;> rfl
  all_goals rw [State.returns_out, State.checkOf, h, checkOutput]

/-- Settles O33: the parse walk of the confirmed bytes is complete at `n_in`, by `phasesAgree`. -/
theorem parseReturnsFrames : Obligations.ParseReturnsFrames := by
  intro s r hw h hp hconf
  obtain ⟨fs, hparse, -, hmt, -⟩ := phasesAgree s.cfg s.buffer.bytes r h
  obtain ⟨t, ht⟩ := Option.ne_none_iff_exists'.mp hmt
  have hparse : walk s.cfg .parse (s.buffer.bytes.take s.nIn) = .complete { r with acc := fs } := by rw [← hp, hparse]
  refine ⟨fs, t, ht, hparse, ?_⟩
  rw [exec_parse hw, hparse,
    endWalk_parse (s := { s with op := .parse }) (r := { r with acc := fs }) rfl hp ht hconf]
  simp only [State.returns, hp]

/-- A parse is the fault of its precondition exactly when the bytes are not the confirmed ones or the walk is not
complete at `n_in`. -/
theorem endWalk_eq_parsePrecondition {s : State} (ho : s.op = .parse) (e : WalkEnd) :
    endWalk s e = .fault .parsePrecondition ↔
      s.confirmed ≠ some (s.buffer.bytes.take s.nIn) ∨ e.consumed ≠ some s.nIn := by
  by_cases hconf : s.confirmed = some (s.buffer.bytes.take s.nIn)
  · cases e with
    | incomplete | invalid => simp [endWalk, ho, WalkEnd.consumed]
    | complete r =>
      by_cases hp : r.p = s.nIn
      · cases hm : r.mt <;> simp [endWalk, ho, State.window, hconf, hp, hm, WalkEnd.consumed]
      · simp [endWalk, ho, hp, WalkEnd.consumed]
  · simp [endWalk_unconfirmed ho hconf, hconf]

/-- Settles O34: that is `endWalk`'s own condition. -/
theorem parsePreconditionFault : Obligations.ParsePreconditionFault := by
  intro s hw
  rw [exec_parse hw]
  exact endWalk_eq_parsePrecondition (s := { s with op := .parse }) rfl _

/-! What no instruction changes. -/

/-- The end of a walk writes the outputs, the registers, the phase and, under `CHECK`, what is confirmed. -/
theorem endWalk_frame {s t : State} {e : WalkEnd} (h : endWalk s e = .next t) :
    t = { s with out := t.out, confirmed := t.confirmed, regs := Walk.init, phase := t.phase } ∧
      (t.confirmed = s.confirmed ∨
        t.op = .check ∧ t.phase = .checked ∧ t.confirmed = t.out.consumed.map fun n => s.buffer.bytes.take n) ∧
      (t.phase = .checked ∨ t.phase = .parsed) ∧ t.out.status ≠ none := by
  obtain ⟨ho, rfl⟩ | ⟨-, r, ty, -, -, -, -, rfl⟩ := endWalk_next h
  · exact ⟨rfl, .inr ⟨ho, rfl, by simp [State.window, ho]⟩, .inl rfl, checkOutput_status e⟩
  · exact ⟨rfl, .inl rfl, .inr rfl, nofun⟩

/-- Settles O35: an instruction takes a frame or ends a walk, and a command sets only its own input besides. -/
theorem instructionFrame : Obligations.InstructionFrame := by
  intro i s t h
  obtain ⟨op, e, hi, he⟩ | ⟨f, p', rfl⟩ | ⟨e, he⟩ := exec_next h
  · obtain ⟨ht, hconf, hphase, hout⟩ := endWalk_frame he
    have hop : i = .check ∨ i = .parse := by cases op <;> simp [hi, commandInstr]
    rw [ht]
    exact ⟨rfl, fun _ => rfl, rfl, rfl, .inr hop, rfl, rfl, rfl, rfl, rfl, rfl, rfl, rfl, rfl, rfl,
      by rw [← ht]; exact hconf, .inr ⟨hphase, rfl, hout⟩⟩
  · exact ⟨rfl, fun _ => rfl, rfl, rfl, .inl rfl, rfl, rfl, rfl, rfl, rfl, rfl, rfl, rfl, rfl, rfl, .inl rfl,
      .inl ⟨rfl, rfl⟩⟩
  · obtain ⟨ht, hconf, hphase, hout⟩ := endWalk_frame he
    rw [ht]
    exact ⟨rfl, fun _ => rfl, rfl, rfl, .inl rfl, rfl, rfl, rfl, rfl, rfl, rfl, rfl, rfl, rfl, rfl,
      by rw [← ht]; exact hconf, .inr ⟨hphase, rfl, hout⟩⟩

/-! What an operation returns. -/

/-- What a parse returns whose walk ends so, with this `n_in`, of bytes that are the confirmed ones or not (41 R145). -/
def parseOutputs (confirmed : Bool) (n : Nat) : WalkEnd → Host.Outcome Output Fault Refusal
  | .complete r =>
    if r.p = n ∧ confirmed then
      match r.mt with
      | some t => .next (.parsed r.p r.acc t)
      | none => .fault .outputNotDefined
    else .fault .parsePrecondition
  | .incomplete | .invalid _ => .fault .parsePrecondition

theorem outputsOf_endWalk_parse {s : State} (ho : s.op = .parse) (e : WalkEnd) :
    outputsOf (endWalk s e) = parseOutputs (s.confirmed = some (s.buffer.bytes.take s.nIn)) s.nIn e := by
  cases e with
  | incomplete | invalid => simp [endWalk, ho, parseOutputs, outputsOf]
  | complete r =>
    by_cases hc : r.p = s.nIn ∧ s.confirmed = some (s.buffer.bytes.take s.nIn)
    · cases hm : r.mt <;> simp [endWalk, ho, State.window, hc, hm, parseOutputs, outputsOf]
    · simp [endWalk, ho, State.window, hc, parseOutputs, outputsOf]

/-- What `PARSE` returns is a function of the configuration, `n_in`, the first `n_in` bytes and whether they are the
confirmed ones (10 R37). -/
theorem outputsOf_parse_congr {s s' : State} (hcfg : s'.cfg = s.cfg) (hn : s'.nIn = s.nIn)
    (hb : s'.buffer.bytes.take s.nIn = s.buffer.bytes.take s.nIn)
    (hconf : s'.confirmed = some (s.buffer.bytes.take s.nIn) ↔ s.confirmed = some (s.buffer.bytes.take s.nIn)) :
    outputsOf (exec .parse s') = outputsOf (exec .parse s) := by
  by_cases hw : s.cfg.WF
  · rw [exec_parse hw, exec_parse (hcfg ▸ hw), outputsOf_endWalk_parse rfl, outputsOf_endWalk_parse rfl]
    simp only [hcfg, hn, hb, hconf]
  · exact (congrArg outputsOf (transact_refused (hcfg ▸ hw) .parse)).trans
      (congrArg outputsOf (transact_refused hw .parse)).symm

/-- Settles O36: a check returns the outcome of its walk; a parse that is no fault had its bytes confirmed. -/
theorem nothingPersists : Obligations.NothingPersists := by
  intro s s' hcfg
  refine ⟨fun hb => ?_, fun hn hb => ⟨fun hc => outputsOf_parse_congr hcfg hn hb (by rw [hc]), fun hf hf' => ?_⟩⟩
  · by_cases hw : s.cfg.WF
    · rw [exec_check hw, exec_check (hcfg ▸ hw)]
      simp only [outputsOf, State.returns_out, State.checkOf, hcfg, hb]
    · exact (congrArg outputsOf (transact_refused (hcfg ▸ hw) .check)).trans
        (congrArg outputsOf (transact_refused hw .check)).symm
  · by_cases hw : s.cfg.WF
    · rw [Ne, parsePreconditionFault s hw, not_or, not_not] at hf
      rw [Ne, parsePreconditionFault s' (hcfg ▸ hw), not_or, not_not, hn, hb] at hf'
      exact outputsOf_parse_congr hcfg hn hb (iff_of_true hf'.1 hf.1)
    · exact (congrArg outputsOf (transact_refused (hcfg ▸ hw) .parse)).trans
        (congrArg outputsOf (transact_refused hw .parse)).symm

/-! Operations shown one step at a time (log 4). -/

/-- A number of steps, each of which leaves the result of the read call as it was. -/
inductive SilentRun : Nat → State → State → Prop
  | refl (s : State) : SilentRun 0 s s
  | head {n : Nat} {s t u : State} : step s = .next t → t.result = s.result → SilentRun n t u → SilentRun (n + 1) s u

theorem SilentRun.trans {m n : Nat} {s t u : State} (h : SilentRun m s t) (h' : SilentRun n t u) :
    SilentRun (m + n) s u := by
  induction h with
  | refl s => rwa [Nat.zero_add]
  | @head m s t _ hs hr _ ih => rw [Nat.add_right_comm]; exact .head hs hr (ih h')

/-- A run goes on from where a silent run has come. -/
theorem SilentRun.run_add {n : Nat} {s t : State} (h : SilentRun n s t) (k : Nat) :
    Sys2Proof.core.run (n + k) s = Sys2Proof.core.run k t := by
  induction h with
  | refl s => rw [Nat.zero_add]
  | head hs _ _ ih => rw [Nat.add_right_comm, core_run_succ _ hs, ih]

/-- Along a silent run the result stays. -/
theorem SilentRun.result_at {n : Nat} {s u : State} (h : SilentRun n s u) {j : Nat} (hj : j ≤ n) :
    ∃ t, Sys2Proof.core.run j s = .next t ∧ t.result = s.result := by
  induction h generalizing j with
  | refl s =>
    obtain rfl : j = 0 := by omega
    exact ⟨s, rfl, rfl⟩
  | head hs hr _ ih =>
    cases j with
    | zero => exact ⟨_, rfl, rfl⟩
    | succ j =>
      obtain ⟨t, ht, hres⟩ := ih (by omega : j ≤ _)
      exact ⟨t, by rw [core_run_succ _ hs, ht], hres.trans hr⟩

/-- The end of the operation does not depend on how far its registers are. -/
theorem endWalk_takeFrame (s : State) (f : Frame) (p' : Nat) (e : WalkEnd) :
    endWalk (s.takeFrame f p') e = endWalk s e := by
  unfold endWalk
  simp only [State.takeFrame_op, State.takeFrame_nIn, State.takeFrame_confirmed, State.window_takeFrame]
  rfl

/-- A walk never comes to a position that reads a value. -/
theorem nextPos_ne (g : Pos) (f : Frame) : nextPos g f ≠ .flenValue ∧ nextPos g f ≠ .typeCode := by
  cases f with
  | messageType t => cases t <;> exact ⟨nofun, nofun⟩
  | messageStart | length => exact ⟨nofun, nofun⟩
  | string | time | null => cases g <;> exact ⟨nofun, nofun⟩

/-- A position that reads no frame and no value is the end. -/
theorem eq_done_of_primAt_none {g : Pos} (h : primAt g = none) (h1 : g ≠ .flenValue) (h2 : g ≠ .typeCode) :
    g = .done := by
  cases g <;> simp_all [primAt]

/-- A walk run step by step comes, within as many steps as there are frames left, to the step that ends the operation as
the rest of the walk ends (41 R140, R150). -/
theorem silentRun_walk {s : State} (hp : s.phase = .walking) (hw : s.cfg.WF) (h1 : s.regs.g ≠ .flenValue)
    (h2 : s.regs.g ≠ .typeCode) :
    ∃ n ≤ s.regs.g.framesLeft, ∃ u, SilentRun n s u ∧
      step u = endWalk s (s.regs.resume s.cfg s.op s.window) := by
  induction hn : s.regs.g.framesLeft using Nat.strong_induction_on generalizing s with
  | _ n ih =>
    cases hk : primAt s.regs.g with
    | none =>
      have hg := eq_done_of_primAt_none hk h1 h2
      refine ⟨0, Nat.zero_le _, s, .refl s, ?_⟩
      rw [step_of_done hw hp hg, s.regs.resume_of_primAt_none _ _ _ hk, ← hg]
    | some k =>
      have hstep := step_of_primAt hw hp hk
      rw [s.regs.resume_of_primAt _ _ _ hk]
      cases hread : k.read s.cfg s.window s.regs.p with
      | incomplete | invalid => exact ⟨0, Nat.zero_le _, s, .refl s, by rw [hstep, hread]; rfl⟩
      | ok f p' =>
        rw [hread] at hstep
        have hlt := framesLeft_nextPos_lt hk (Prim.read_eq_ok.mp hread).1
        obtain ⟨m, hm, u, hrun, hu⟩ := ih _ (hn ▸ hlt) (s := s.takeFrame f p') hp hw (nextPos_ne _ f).1
          (nextPos_ne _ f).2 rfl
        exact ⟨m + 1, by simp only [State.takeFrame_regs, Walk.take_g] at hm; omega, u, .head hstep rfl hrun,
          hu.trans (endWalk_takeFrame s f p' _)⟩

/-- Settles O20: the start position has five frames left, and the end of the walk is the transaction. -/
theorem stepwiseEqualsTransaction : Obligations.StepwiseEqualsTransaction := by
  intro s hp hr hw
  have hrun : ∃ n ≤ 6, Sys2Proof.core.run n s = exec (commandInstr s.op) s := by
    obtain ⟨n, hn, u, hu, hstep⟩ := silentRun_walk hp hw (by rw [hr]; nofun) (by rw [hr]; nofun)
    rw [hr] at hn hstep
    refine ⟨n + 1, Nat.succ_le_succ hn, ?_⟩
    rw [hu.run_add 1, core_run_one, hstep, exec_commandInstr hw, walk_eq_resume]
  exact ⟨fun ho => by rwa [ho] at hrun, fun ho => by rwa [ho] at hrun⟩

/-- An operation the host has issued comes, as one transaction or step by step, to the step that ends it. -/
theorem silentRun_operation {s : State} (hw : s.cfg.WF)
    (h : s.phase = .command ∨ s.phase = .walking ∧ s.regs = Walk.init) :
    ∃ n u, SilentRun n s u ∧ step u = endWalk s (walk s.cfg s.op s.window) := by
  obtain hp | ⟨hp, hr⟩ := h
  · exact ⟨0, s, .refl s, by rw [← exec_commandInstr hw, step, hp]⟩
  · obtain ⟨n, -, u, hu, hstep⟩ := silentRun_walk hp hw (by rw [hr]; nofun) (by rw [hr]; nofun)
    exact ⟨n, u, hu, by rw [hstep, hr, walk_eq_resume]⟩

end Sys2Proof.Machine
end

section
/-! The invariants of a step (spec 10 R21, R30, R38; 20 section 1; 70 R231, R240, R241): what every move keeps. -/

namespace Sys2Proof.Machine

/-! What no step writes. -/

/-- The configuration and the fields that no step writes are the same in both states (10 R30; logs 4, 14, 27). -/
def SameFixed (s t : State) : Prop :=
  t.cfg = s.cfg ∧ t.recvCap = s.recvCap ∧ t.sink = s.sink ∧ t.sinkFlushed = s.sinkFlushed ∧ t.stepwise = s.stepwise

theorem endWalk_sameFixed {s t : State} {e : WalkEnd} (h : endWalk s e = .next t) : SameFixed s t := by
  rw [(endWalk_frame h).1]
  exact ⟨rfl, rfl, rfl, rfl, rfl⟩

theorem exec_sameFixed {i : Instr} {s t : State} (h : exec i s = .next t) : SameFixed s t := by
  obtain ⟨op, e, -, he⟩ | ⟨f, p', rfl⟩ | ⟨e, he⟩ := exec_next h
  · exact (endWalk_sameFixed he :)
  · exact ⟨rfl, rfl, rfl, rfl, rfl⟩
  · exact endWalk_sameFixed he

/-- The end of a walk found by the fetch is the end of the walk. -/
theorem endFetched_next {s t : State} {e : WalkEnd} (h : endFetched s e = .next t) : endWalk s e = .next t := by
  unfold endFetched requireCfg at h
  split at h
  · split at h
    · cases h
    · exact h
  · cases h

theorem nextReceipt_sameFixed (s : State) : SameFixed s s.nextReceipt.2 := by
  rw [State.nextReceipt_eq s]
  exact ⟨rfl, rfl, rfl, rfl, rfl⟩

/-- What a receive that goes on leaves unchanged but the queue and the draw counter. -/
theorem receive_sameFixed {s t : State} (h : receive s = .next t) : SameFixed s t := by
  have hn := nextReceipt_sameFixed s
  obtain ⟨-, hr⟩ | ⟨-, -, hr⟩ | ⟨-, -, hr⟩ | ⟨bs, -, ⟨-, hr⟩ | ⟨-, hr⟩⟩ := receive_cases s <;>
    obtain rfl := Host.Outcome.next.inj (hr.symm.trans h)
  · exact hn
  · exact hn
  · exact hn
  · exact hn
  · obtain ⟨inc, ⟨-, ho⟩ | ⟨-, ho⟩⟩ := obtained_cases s.nextReceipt.2 bs <;> (rw [ho]; exact hn)

/-- Settles O54: no move writes any of them. -/
theorem configurationNeverWritten : Obligations.ConfigurationNeverWritten := by
  intro s t h
  obtain ⟨-, hm⟩ | ⟨-, hm⟩ | ⟨-, i, -, hm⟩ | ⟨-, e, -, hm⟩ | ⟨-, hm⟩ | ⟨-, hm⟩ | ⟨-, hm⟩ := step_next h
  · obtain ⟨b, cs, d, hr⟩ := callRead_eq s
    obtain rfl := Host.Outcome.next.inj (hr.symm.trans hm)
    exact ⟨rfl, rfl, rfl, rfl, rfl⟩
  · exact exec_sameFixed hm
  · exact exec_sameFixed hm
  · exact endWalk_sameFixed (endFetched_next hm)
  · obtain ⟨n, -, -, rfl⟩ | ⟨e, -, -, rfl⟩ | ⟨-, rfl⟩ := actOnCheck_next hm <;> exact ⟨rfl, rfl, rfl, rfl, rfl⟩
  · obtain ⟨n, fs, ty, -, -, -, rfl⟩ := deliver_next hm
    exact ⟨rfl, rfl, rfl, rfl, rfl⟩
  · exact receive_sameFixed hm

/-! The memory. -/

/-- Settles O55: a step leaves the buffer, appends to it or advances it (`bufferChangesOnlyByHost`), and each keeps the
canonical form. -/
theorem canonicalMemoryKept : Obligations.CanonicalMemoryKept := by
  intro s t hwf h
  obtain hb | ⟨-, -, bs, -, hb⟩ | ⟨-, n, -, hb, -⟩ := bufferChangesOnlyByHost s t h <;> rw [hb]
  · exact hwf
  · exact Memory.wf_append hwf _
  · exact Memory.wf_advance _ _

/-! The operation-local registers. -/

/-- The registers hold the start values after the end of an operation. -/
theorem endWalk_regs {s t : State} {e : WalkEnd} (h : endWalk s e = .next t) : t.regs = Walk.init := by
  rw [(endWalk_frame h).1]

/-- A command leaves the start values in the registers. -/
theorem exec_commandInstr_regs {s t : State} {op : Command} (h : exec (commandInstr op) s = .next t) :
    t.regs = Walk.init := by
  have h : transact op s = .next t := by cases op <;> exact h
  obtain ⟨e, he⟩ := transact_next h
  exact endWalk_regs he

/-- An instruction leaves the phase, or the start values are in the registers. -/
theorem exec_phase_or_regs {i : Instr} {s t : State} (h : exec i s = .next t) :
    t.phase = s.phase ∨ t.regs = Walk.init := by
  obtain ⟨op, e, -, he⟩ | ⟨f, p', rfl⟩ | ⟨e, he⟩ := exec_next h
  · exact .inr (endWalk_regs he)
  · exact .inl rfl
  · exact .inr (endWalk_regs he)

/-- A receive issues a check or leaves the registers. -/
theorem receive_regs {s t : State} (h : receive s = .next t) : t.regs = s.regs ∨ t.regs = Walk.init := by
  have hn : s.nextReceipt.2.regs = s.regs := by rw [State.nextReceipt_eq s]
  obtain ⟨-, hr⟩ | ⟨-, -, hr⟩ | ⟨-, -, hr⟩ | ⟨bs, -, ⟨-, hr⟩ | ⟨-, hr⟩⟩ := receive_cases s <;>
    obtain rfl := Host.Outcome.next.inj (hr.symm.trans h)
  · exact .inl hn
  · exact .inl hn
  · exact .inl hn
  · exact .inl hn
  · obtain ⟨inc, ⟨-, ho⟩ | ⟨-, ho⟩⟩ := obtained_cases s.nextReceipt.2 bs <;> rw [ho]
    · exact .inl hn
    · exact .inr rfl

/-- Settles O56: the moves that end a walk or issue an operation write the start values, the others of the host leave
the registers, and a frame that is taken leaves the walk in progress. -/
theorem registersDiscardedKept : Obligations.RegistersDiscardedKept := by
  intro s t hs h
  obtain ⟨-, hm⟩ | ⟨-, hm⟩ | ⟨hp, i, -, hm⟩ | ⟨-, e, -, hm⟩ | ⟨hp, hm⟩ | ⟨hp, hm⟩ | ⟨hp, hm⟩ := step_next h <;>
    intro ht
  · obtain ⟨b, cs, d, hr⟩ := callRead_eq s
    obtain rfl := Host.Outcome.next.inj (hr.symm.trans hm)
    rfl
  · exact exec_commandInstr_regs hm
  · exact (exec_phase_or_regs hm).resolve_left fun h => ht (h.trans hp)
  · exact endWalk_regs (endFetched_next hm)
  · have hregs := hs (by rw [hp]; nofun)
    obtain ⟨n, -, -, rfl⟩ | ⟨e, -, -, rfl⟩ | ⟨-, rfl⟩ := actOnCheck_next hm
    · rfl
    · exact hregs
    · exact hregs
  · obtain ⟨n, fs, ty, -, -, -, rfl⟩ := deliver_next hm
    exact hs (by rw [hp]; nofun)
  · obtain hr | hr := receive_regs hm
    · rw [hr]; exact hs (by rw [hp]; nofun)
    · exact hr

/-! The read loop. -/

/-- An issued check meets the loop's invariant. -/
theorem loopInv_issue_check {s : State} (hw : s.cfg.WF) (n : Nat) : (s.issue .check n).LoopInv := by
  refine ⟨hw, ?_⟩
  rw [State.issue_phase]
  cases s.stepwise with
  | false => exact nofun
  | true => exact ⟨nofun, nofun, nofun, rfl⟩

/-- A parse issued for the length of a confirmed check meets it (70 R241). -/
theorem loopInv_issue_parse {s : State} {n : Nat} (hw : s.cfg.WF) (h : s.Confirmed n) : (s.issue .parse n).LoopInv := by
  refine ⟨hw, ?_⟩
  rw [State.issue_phase]
  cases s.stepwise with
  | false => exact fun _ => h
  | true => exact ⟨fun _ => h, nofun, nofun, rfl⟩

/-- A read call that has returned meets it (42 R176). -/
theorem loopInv_finish {s : State} (hw : s.cfg.WF) (r : ReadResult) : (s.finish r).LoopInv := by
  refine ⟨hw, ?_⟩
  rw [State.finish_phase, State.finish_result]
  cases hr : r.fatal with
  | false => trivial
  | true => exact hr

/-- The outputs of a check show the consumed length of its walk. -/
theorem checkOutput_consumed (e : WalkEnd) : (checkOutput e).consumed = e.consumed := by cases e <;> rfl

/-- The end of an operation's own walk meets it, if a parse was for a confirmed length. -/
theorem loopInv_endWalk {s t : State} (hw : s.cfg.WF) (hc : s.op = .parse → s.Confirmed s.nIn)
    (h : endWalk s (walk s.cfg s.op s.window) = .next t) : t.LoopInv := by
  obtain ⟨ho, rfl⟩ | ⟨ho, r, ty, -, hp, -, -, rfl⟩ := endWalk_next h
  · have hwin : s.window = s.buffer.bytes := by rw [State.window, ho]
    rw [ho, hwin]
    refine ⟨hw, rfl, fun n hn => ⟨?_, ?_⟩⟩
    · rwa [State.returns_out, checkOutput_consumed] at hn
    · rw [State.returns_out] at hn
      rw [State.returns_confirmed, State.confirm_confirmed, hn, hwin]
      rfl
  · exact ⟨hw, hp ▸ hc ho⟩

/-- A step of a walk on its way to the operation's outcome takes a frame and stays on the way, or ends the operation
with that outcome. -/
theorem step_of_loopInv_walking {s : State} (hs : s.LoopInv) (hp : s.phase = .walking) :
    (∃ f p', step s = .next (s.takeFrame f p') ∧ (s.takeFrame f p').LoopInv) ∨
      step s = endWalk s (walk s.cfg s.op s.window) := by
  obtain ⟨hw, hs⟩ := hs
  rw [hp] at hs
  obtain ⟨hc, h1, h2, hres⟩ := hs
  cases hk : primAt s.regs.g with
  | none =>
    have hg := eq_done_of_primAt_none hk h1 h2
    rw [← hres, s.regs.resume_of_primAt_none _ _ _ hk, ← hg]
    exact .inr (step_of_done hw hp hg)
  | some k =>
    rw [step_of_primAt hw hp hk, ← hres, s.regs.resume_of_primAt _ _ _ hk]
    cases hread : k.read s.cfg s.window s.regs.p with
    | incomplete | invalid => exact .inr rfl
    | ok f p' =>
      refine .inl ⟨f, p', rfl, hw, ?_⟩
      rw [State.takeFrame_phase, hp]
      refine ⟨hc, (nextPos_ne _ f).1, (nextPos_ne _ f).2, ?_⟩
      rw [s.regs.resume_of_primAt _ _ _ hk, hread] at hres
      exact hres

/-- The end of stream returns from the call. -/
theorem loopInv_endOfStream {s : State} (hw : s.cfg.WF) : (endOfStream s).LoopInv :=
  loopInv_finish (s := { s with eof := true }) hw _

/-- A receive that goes on returns from the call, waits on the same buffer, or issues a check. -/
theorem loopInv_receive {s t : State} (hs : s.LoopInv) (h : receive s = .next t) :
    t.LoopInv := by
  have hw : s.nextReceipt.2.cfg.WF := by rw [(nextReceipt_sameFixed s).1]; exact hs.1
  obtain ⟨-, hr⟩ | ⟨-, -, hr⟩ | ⟨-, -, hr⟩ | ⟨bs, -, ⟨-, hr⟩ | ⟨-, hr⟩⟩ := receive_cases s <;>
    obtain rfl := Host.Outcome.next.inj (hr.symm.trans h)
  · exact loopInv_finish hw _
  · exact loopInv_finish hw _
  · rw [State.nextReceipt_eq s]
    exact hs
  · exact loopInv_endOfStream hw
  · obtain ⟨inc, ⟨-, ho⟩ | ⟨-, ho⟩⟩ := obtained_cases s.nextReceipt.2 bs <;> rw [ho]
    · exact loopInv_endOfStream hw
    · refine loopInv_issue_check ?_ 0
      exact hw

/-- Settles O57: by whose move the step is. -/
theorem loopInvariantKept : Obligations.LoopInvariantKept := by
  intro s t hs h
  obtain ⟨hw, hinv⟩ := id hs
  cases hp : s.phase <;> rw [hp] at hinv <;> dsimp only at hinv
  case idle =>
    obtain ⟨b, cs, d, hr⟩ := callRead_eq s
    simp only [step, hp, hr] at h
    obtain rfl := Host.Outcome.next.inj h
    refine loopInv_issue_check ?_ 0
    exact hw
  case command =>
    simp only [step, hp] at h
    rw [exec_commandInstr hw] at h
    exact loopInv_endWalk hw hinv h
  case walking =>
    obtain ⟨f, p', hstep, ht⟩ | hstep := step_of_loopInv_walking hs hp
    · obtain rfl := Host.Outcome.next.inj (hstep.symm.trans h)
      exact ht
    · exact loopInv_endWalk hw hinv.1 (hstep.symm.trans h)
  case checked =>
    simp only [step, hp] at h
    obtain ⟨n, -, hn, rfl⟩ | ⟨e, -, -, rfl⟩ | ⟨hst, rfl⟩ := actOnCheck_next h
    · exact loopInv_issue_parse hw (hinv.2 n hn)
    · exact loopInv_finish hw _
    · refine ⟨hw, ?_⟩
      rw [hinv.1] at hst
      cases hc : s.checkOf with
      | incomplete => exact hc
      | complete | invalid => rw [hc] at hst; cases hst
  case parsed =>
    simp only [step, hp] at h
    obtain ⟨n, fs, ty, -, -, -, rfl⟩ := deliver_next h
    exact loopInv_finish (s := { s with buffer := s.buffer.advance n, confirmed := none }) hw _
  case receiving =>
    simp only [step, hp] at h
    exact loopInv_receive hs h
  case stopped =>
    simp only [step, hp] at h
    cases h

/-- With a confirmed length the parse walk is complete there, with a type (41 R146). -/
theorem endWalk_of_confirmed {s : State} (ho : s.op = .parse) (h : s.Confirmed s.nIn) :
    ∃ fs ty, endWalk s (walk s.cfg s.op s.window) = .next (s.returns .parsed (.parsed s.nIn fs ty)) := by
  obtain ⟨hcheck, hconf⟩ := h
  cases hc : s.checkOf with
  | incomplete | invalid => rw [hc] at hcheck; cases hcheck
  | complete r =>
    rw [hc] at hcheck
    obtain hp : r.p = s.nIn := Option.some.inj hcheck
    obtain ⟨fs, hparse, -, hmt, -⟩ := phasesAgree s.cfg s.buffer.bytes r hc
    obtain ⟨ty, hty⟩ := Option.ne_none_iff_exists'.mp hmt
    have hwin : s.window = s.buffer.bytes.take s.nIn := by rw [State.window, ho]
    refine ⟨fs, ty, ?_⟩
    rw [ho, hwin, ← hp, hparse, endWalk_parse (r := { r with acc := fs }) ho hp hty hconf]

/-- An operation whose parse is for a confirmed length ends in a next state. -/
theorem endWalk_goes_on {s : State} (hc : s.op = .parse → s.Confirmed s.nIn) :
    ∃ t, endWalk s (walk s.cfg s.op s.window) = .next t := by
  cases ho : s.op with
  | check => exact ⟨_, endWalk_check ho _⟩
  | parse =>
    obtain ⟨fs, ty, h⟩ := endWalk_of_confirmed ho (hc ho)
    exact ⟨_, ho ▸ h⟩

/-- Settles O58: each phase's move has what it reads. -/
theorem loopNeverStuck : Obligations.LoopNeverStuck := by
  intro s hs
  refine ⟨fun hstop => ?_, fun hp => by rw [step, hp]⟩
  obtain ⟨hw, hinv⟩ := id hs
  cases hp : s.phase <;> rw [hp] at hinv <;> dsimp only at hinv
  case idle =>
    obtain ⟨b, cs, d, hr⟩ := callRead_eq s
    exact ⟨_, by rw [step, hp]; exact hr⟩
  case command =>
    simp only [step, hp, exec_commandInstr hw]
    exact endWalk_goes_on hinv
  case walking =>
    obtain ⟨f, p', hstep, -⟩ | hstep := step_of_loopInv_walking hs hp
    · exact ⟨_, hstep⟩
    · rw [hstep]
      exact endWalk_goes_on hinv.1
  case checked =>
    simp only [step, hp, actOnCheck, hinv.1]
    cases s.checkOf <;> exact ⟨_, rfl⟩
  case parsed =>
    simp only [step, hp, deliver]
    cases ho : s.out <;> rw [ho] at hinv <;> first | exact hinv.elim | exact ⟨_, rfl⟩
  case receiving =>
    simp only [step, hp]
    obtain ⟨-, hr⟩ | ⟨-, -, hr⟩ | ⟨-, -, hr⟩ | ⟨bs, -, ⟨-, hr⟩ | ⟨-, hr⟩⟩ := receive_cases s <;> exact ⟨_, hr⟩
  case stopped => exact absurd hp hstop

/-- Settles O2: at reset nothing has run. -/
theorem resetMeetsInvariants : Obligations.ResetMeetsInvariants :=
  ⟨⟨by decide, trivial⟩, fun _ => rfl, rfl, rfl⟩

end Sys2Proof.Machine
end

section
/-! The host's moves (spec 42 R171 to R177; 70 R242, R243): what each answers, field by field. -/

namespace Sys2Proof.Machine

/-! A call and a check. -/

/-- Settles O1: reset and issue write the start values of 10 R38. -/
theorem resetAndStartValues : Obligations.ResetAndStartValues :=
  ⟨rfl, rfl, rfl, rfl, rfl, fun _ _ _ => ⟨rfl, rfl, rfl, rfl, rfl, rfl⟩⟩

/-- Settles O17: the decoder run on each word. -/
theorem sampleWordsDecode : Obligations.SampleWordsDecode := by
  unfold Obligations.SampleWordsDecode
  decide

/-- Settles O47: the call issues a check, and each status has its own move. -/
theorem hostActsOnCheck : Obligations.HostActsOnCheck := by
  intro s
  refine ⟨fun hp => ?_, fun k ks hc => by simp only [State.nextCall, hc], fun hc => by simp only [State.nextCall, hc],
    fun hp => ⟨fun n ho => ?_, fun ho => ?_, fun e ho => ?_⟩⟩
  · refine ⟨{ s.nextCall.2 with
      bounded := s.nextCall.1 == Call.readMessageWithTimeout, result := none }.issue .check 0,
      by simp only [step, hp, callRead], ?_, rfl, ?_, rfl, ?_⟩
    · conv_lhs => rw [State.nextCall_eq s]
      rfl
    · rw [State.nextCall_eq s]; rfl
    · exact beq_iff_eq
  · simp only [step, hp, actOnCheck, ho, Output.status, Output.consumed]
  · simp only [step, hp, actOnCheck, ho, Output.status]
  · have hstep : step s = .next (s.finish (.malformed e)) := by
      simp only [step, hp, actOnCheck, ho, Output.status, Output.err]
    exact hstep

/-! The delivery. -/

/-- Settles O48: the buffer advances by the consumed length. -/
theorem deliveryAdvancesExactly : Obligations.DeliveryAdvancesExactly := by
  intro s n fs ty hp ho hwf
  refine ⟨{ s with buffer := s.buffer.advance n, confirmed := none }.finish (.message fs ty), ?_, rfl, rfl,
    fun a => ?_, Memory.bytes_advance _ _⟩
  · simp only [step, hp, deliver, ho, Output.consumed, Output.frames, Output.msgType]
  · rw [State.finish_buffer, Memory.read_eq_bytes (Memory.wf_advance _ _), Memory.bytes_advance, List.getElem?_drop,
      Nat.add_comm, Memory.read_eq_bytes hwf]

/-! A receive. -/

/-- A receive of bytes before end of stream obtains as many as the capacity lets through (42 R173, R174). -/
theorem step_receive_bytes {s : State} {bs : List Byte} (hp : s.phase = .receiving) (he : s.eof = false)
    (hr : s.nextReceipt.1 = .bytes bs) : step s = .next (obtained s.nextReceipt.2 bs) := by
  have he' : s.nextReceipt.2.eof = false := by rw [State.nextReceipt_eq s]; exact he
  simp [step, hp, receive, hr, he']

/-- Bytes of which the capacity lets some through are appended, the rest stays pending, and a check is issued. -/
theorem obtained_some {s : State} {bs : List Byte} {cap : Nat} (hcap : s.recvCap = cap) (h : bs.take cap ≠ []) :
    obtained s bs = ({ s with
      buffer := s.buffer.append (bs.take cap)
      incoming := if bs.length ≤ cap then s.incoming else .bytes (bs.drop cap) :: s.incoming }).issue .check 0 := by
  subst hcap
  simp only [obtained, h, if_false, List.drop_eq_nil_iff]

/-- Bytes of which the capacity lets none through are an end of stream; a capacity of 0 leaves them pending. -/
theorem obtained_none {s : State} {bs : List Byte} (h : bs.take s.recvCap = []) :
    obtained s bs = endOfStream { s with incoming := if bs = [] then s.incoming else .bytes bs :: s.incoming } := by
  have hdrop : bs.drop s.recvCap = bs := by simpa [h] using List.take_append_drop s.recvCap bs
  simp only [obtained, h, hdrop, if_true]

/-- In a canonical memory an append leaves the bytes that are there and puts the new ones after them. -/
theorem Memory.read_append {m : Memory} (h : m.wf = true) (bs : List Byte) :
    (∀ a < m.length, (m.append bs).read a = m.read a) ∧ ∀ i, (m.append bs).read (m.length + i) = bs[i]? := by
  have hl : m.bytes.length = m.length := List.length_map _
  refine ⟨fun a ha => ?_, fun i => ?_⟩ <;> rw [Memory.read_eq_bytes (Memory.wf_append h bs), Memory.bytes_append]
  · rw [List.getElem?_append_left (by omega), Memory.read_eq_bytes h]
  · rw [List.getElem?_append_right (by omega), hl, Nat.add_sub_cancel_left]

/-- Settles O49: the bytes that fit are appended. -/
theorem receiveAppends : Obligations.ReceiveAppends := by
  intro s bs hp he hr hne hwf
  have hcap := State.nextReceipt_recvCap s
  have hbuf := State.nextReceipt_buffer s
  obtain ⟨hold, hnew⟩ := Memory.read_append hwf (bs.take s.recvCap)
  have hstep := (step_receive_bytes hp he hr).trans (congrArg _ (obtained_some hcap hne))
  refine ⟨_, hstep, rfl, ?_, ?_, ?_⟩ <;> simp only [State.issue_buffer, hbuf]
  · exact Memory.bytes_append _ _
  · exact hold
  · exact hnew

/-- A receive of no byte ends the call by what is buffered (42 R171 step 4). -/
theorem endOfStream_eq (s : State) :
    (s.buffer = [] → endOfStream s = { s with eof := true, result := some .endOfStream, phase := .idle }) ∧
    (s.buffer ≠ [] → endOfStream s = { s with eof := true, result := some .resetByPeer, phase := .stopped }) := by
  constructor <;> intro hb <;> simp only [endOfStream, hb, if_true, if_false] <;> rfl

/-- A receive that obtains nothing: after end of stream, of an empty outcome, or with a capacity of 0, which leaves the
outcome pending (42 R171 step 4; logs 14, 17). -/
theorem step_receive_none {s : State} {bs : List Byte} {inc : List Receipt} (hp : s.phase = .receiving)
    (hr : s.nextReceipt.1 = .bytes bs)
    (h : ((s.eof = true ∨ bs = []) ∧ inc = s.nextReceipt.2.incoming) ∨
      (s.eof = false ∧ bs ≠ [] ∧ s.recvCap = 0 ∧ inc = .bytes bs :: s.nextReceipt.2.incoming)) :
    step s = .next (endOfStream { s.nextReceipt.2 with incoming := inc }) := by
  have hcap := State.nextReceipt_recvCap s
  cases he : s.eof with
  | true =>
    have he' : s.nextReceipt.2.eof = true := by rw [State.nextReceipt_eq s]; exact he
    obtain ⟨-, rfl⟩ | ⟨hf, -⟩ := h
    · have hstep : step s = .next (endOfStream s.nextReceipt.2) := by simp only [step, hp, receive, hr, he', if_true]
      exact hstep
    · rw [he] at hf; cases hf
  | false =>
    rw [step_receive_bytes hp he hr]
    obtain ⟨he' | rfl, rfl⟩ | ⟨-, hne, hc, rfl⟩ := h
    · rw [he] at he'; cases he'
    · rw [obtained_none (by simp), if_pos rfl]
    · rw [obtained_none (by rw [hcap, hc, List.take_zero]), if_neg hne]

/-- Settles O50: each outcome has its ending. -/
theorem receiveEndings : Obligations.ReceiveEndings := by
  intro s
  refine ⟨fun r rs hi => by simp only [State.nextReceipt, hi], fun hi => by simp only [State.nextReceipt, hi],
    fun hp => ⟨fun bs inc hr h => ?_, fun hr => ?_, fun hr hb => ?_, fun hr hb => ?_⟩⟩
  · rw [step_receive_none hp hr h]
    have hbuf := State.nextReceipt_buffer s
    exact ⟨fun hb => congrArg _ ((endOfStream_eq _).1 (hbuf.trans hb)),
      fun hb => congrArg _ ((endOfStream_eq _).2 fun h => hb (hbuf.symm.trans h))⟩
  all_goals
    have hb' : s.nextReceipt.2.bounded = s.bounded := by rw [State.nextReceipt_eq s]
  · have hstep : step s = .next (s.nextReceipt.2.finish .ioError) := by simp only [step, hp, receive, hr]
    exact hstep
  · have hstep : step s = .next (s.nextReceipt.2.finish .timeout) := by simp [step, hp, receive, hr, hb', hb]
    exact hstep
  · simp [step, hp, receive, hr, hb', hb]

/-! Results. -/

/-- A receive leaves the result or returns one and stops exactly if it is fatal. -/
theorem receive_result {s t : State} (h : receive s = .next t) :
    t.result = s.result ∨ ∃ (u : State) (r : ReadResult), t = u.finish r := by
  have hn : s.nextReceipt.2.result = s.result := by rw [State.nextReceipt_eq s]
  obtain ⟨-, hr⟩ | ⟨-, -, hr⟩ | ⟨-, -, hr⟩ | ⟨bs, -, ⟨-, hr⟩ | ⟨-, hr⟩⟩ := receive_cases s <;>
    obtain rfl := Host.Outcome.next.inj (hr.symm.trans h)
  · exact .inr ⟨_, _, rfl⟩
  · exact .inr ⟨_, _, rfl⟩
  · exact .inl hn
  · exact .inr ⟨_, _, rfl⟩
  · obtain ⟨inc, ⟨-, ho⟩ | ⟨-, ho⟩⟩ := obtained_cases s.nextReceipt.2 bs <;> rw [ho]
    · exact .inr ⟨_, _, rfl⟩
    · exact .inl hn

/-- An instruction leaves the result. -/
theorem exec_result {i : Instr} {s t : State} (h : exec i s = .next t) : t.result = s.result := by
  obtain ⟨op, e, -, he⟩ | ⟨f, p', rfl⟩ | ⟨e, he⟩ := exec_next h
  · rw [(endWalk_frame he).1]
  · rfl
  · rw [(endWalk_frame he).1]

/-- A step leaves the result, clears it, or returns from the call with a new one. -/
theorem step_result {s t : State} (h : step s = .next t) :
    t.result = s.result ∨ t.result = none ∨ ∃ (u : State) (r : ReadResult), t = u.finish r := by
  obtain ⟨-, hm⟩ | ⟨-, hm⟩ | ⟨-, i, -, hm⟩ | ⟨-, e, -, hm⟩ | ⟨-, hm⟩ | ⟨-, hm⟩ | ⟨-, hm⟩ := step_next h
  · obtain ⟨b, cs, d, hr⟩ := callRead_eq s
    obtain rfl := Host.Outcome.next.inj (hr.symm.trans hm)
    exact .inr (.inl rfl)
  · exact .inl (exec_result hm)
  · exact .inl (exec_result hm)
  · rw [(endWalk_frame (endFetched_next hm)).1]
    exact .inl rfl
  · obtain ⟨n, -, -, rfl⟩ | ⟨e, -, -, rfl⟩ | ⟨-, rfl⟩ := actOnCheck_next hm
    · exact .inl rfl
    · exact .inr (.inr ⟨_, _, rfl⟩)
    · exact .inl rfl
  · obtain ⟨n, fs, ty, -, -, -, rfl⟩ := deliver_next hm
    exact .inr (.inr ⟨_, _, rfl⟩)
  · exact (receive_result hm).imp_right .inr

/-- Settles O51: a new result comes from the return of a call, which stops on a fatal one. -/
theorem stoppedAfterFatalResult : Obligations.StoppedAfterFatalResult := by
  intro s t
  refine ⟨fun hp => by rw [step, hp], fun h _ r hr hne hfatal => ?_⟩
  obtain hs | hn | ⟨u, r', rfl⟩ := step_result h
  · exact absurd (hs ▸ hr) hne
  · rw [hn] at hr; cases hr
  · obtain rfl := Option.some.inj ((State.finish_result u r').symm.trans hr)
    rw [State.finish_phase, if_pos hfatal]

/-! After end of stream. -/

/-- An operation on an empty buffer is never a parse, and its check is incomplete; no message is returned (42 R176). -/
def State.Drained (s : State) : Prop :=
  s.eof = true ∧ s.buffer = [] ∧ (∀ fs ty, s.result ≠ some (.message fs ty)) ∧
  match s.phase with
  | .idle | .receiving | .stopped => True
  | .command => s.op = .check
  | .walking => s.op = .check ∧ s.regs = Walk.init
  | .checked => s.out = .incomplete
  | .parsed => False

/-- A check of an empty buffer that ends incomplete. -/
theorem drained_endWalk {s t : State} (he : s.eof = true) (hb : s.buffer = [])
    (hr : ∀ fs ty, s.result ≠ some (.message fs ty)) (ho : s.op = .check)
    (h : endWalk s .incomplete = .next t) : t.Drained := by
  rw [endWalk_check ho] at h
  obtain rfl := Host.Outcome.next.inj h
  exact ⟨he, hb, hr, rfl⟩

/-- The return of a call without a message. -/
theorem drained_finish {s : State} {r : ReadResult} (he : s.eof = true) (hb : s.buffer = [])
    (hr : ∀ fs ty, r ≠ .message fs ty) : (s.finish r).Drained := by
  refine ⟨he, hb, fun fs ty h => hr fs ty (Option.some.inj h), ?_⟩
  rw [State.finish_phase]
  cases r.fatal <;> trivial

/-- The call's check on an empty buffer. -/
theorem drained_callRead {s t : State} (he : s.eof = true) (hb : s.buffer = []) (h : callRead s = .next t) :
    t.Drained := by
  obtain ⟨b, cs, d, hr⟩ := callRead_eq s
  obtain rfl := Host.Outcome.next.inj (hr.symm.trans h)
  refine ⟨he, hb, nofun, ?_⟩
  rw [State.issue_phase]
  cases s.stepwise with
  | false => rfl
  | true => exact ⟨rfl, rfl⟩

/-- Every step keeps a drained connection drained. -/
theorem step_drained {s t : State} (hs : s.Drained) (h : step s = .next t) : t.Drained := by
  obtain ⟨he, hb, hr, hph⟩ := id hs
  cases hp : s.phase <;> rw [hp] at hph <;> simp only [step, hp] at h
  case idle => exact drained_callRead he hb h
  case command =>
    rw [show s.op = .check from hph] at h
    obtain ⟨hw, -⟩ | ⟨-, hno⟩ := requireCfg_cases s (endWalk { s with op := .check }
        (walk s.cfg .check ({ s with op := .check } : State).window))
    · rw [commandInstr, exec_check hw] at h
      obtain rfl := Host.Outcome.next.inj h
      refine ⟨he, hb, hr, ?_⟩
      rw [State.checkOf, hb]
      rfl
    · cases hno.symm.trans h
  case walking =>
    obtain ⟨ho, hregs⟩ := hph
    have hfetch : fetch s = .ends .incomplete := by
      rw [fetch, hregs, State.window, ho, hb]
      rfl
    rw [hfetch] at h
    exact drained_endWalk he hb hr ho (endFetched_next h)
  case checked =>
    simp only [actOnCheck, show s.out = .incomplete from hph, Output.status] at h
    obtain rfl := Host.Outcome.next.inj h
    exact ⟨he, hb, hr, trivial⟩
  case parsed => exact hph.elim
  case receiving =>
    have hn := State.nextReceipt_eq s
    have he' : s.nextReceipt.2.eof = true := by rw [hn]; exact he
    have hb' : s.nextReceipt.2.buffer = [] := by rw [hn]; exact hb
    obtain ⟨-, hr'⟩ | ⟨-, -, hr'⟩ | ⟨-, -, hr'⟩ | ⟨bs, -, ⟨-, hr'⟩ | ⟨hf, -⟩⟩ := receive_cases s
    · obtain rfl := Host.Outcome.next.inj (hr'.symm.trans h)
      exact drained_finish he' hb' nofun
    · obtain rfl := Host.Outcome.next.inj (hr'.symm.trans h)
      exact drained_finish he' hb' nofun
    · obtain rfl := Host.Outcome.next.inj (hr'.symm.trans h)
      rw [hn]
      exact hs
    · obtain rfl := Host.Outcome.next.inj (hr'.symm.trans h)
      rw [endOfStream, if_pos hb']
      exact drained_finish rfl hb' nofun
    · rw [he] at hf; cases hf
  case stopped => cases h

/-- A run of one step more begins with a step. -/
theorem core_run_succ_next {n : Nat} {s t : State} (h : Sys2Proof.core.run (n + 1) s = .next t) :
    ∃ u, step s = .next u ∧ Sys2Proof.core.run n u = .next t := by
  cases hs : step s with
  | next u => exact ⟨u, rfl, (core_run_succ n hs).symm.trans h⟩
  | fault f =>
    have hs : Sys2Proof.core.step s = .fault f := hs
    simp only [Host.Core.run, hs] at h
    cases h
  | refused r =>
    have hs : Sys2Proof.core.step s = .refused r := hs
    simp only [Host.Core.run, hs] at h
    cases h

/-- Every run keeps a drained connection drained. -/
theorem run_drained {n : Nat} {s t : State} (hs : s.Drained) (h : Sys2Proof.core.run n s = .next t) : t.Drained := by
  induction n generalizing s with
  | zero =>
    obtain rfl := Host.Outcome.next.inj h
    exact hs
  | succ n ih =>
    obtain ⟨u, hu, h⟩ := core_run_succ_next h
    exact ih (step_drained hs hu) h

/-- A run goes on from where a shorter one has come. -/
theorem core_run_add {m : Nat} {s t : State} (h : Sys2Proof.core.run m s = .next t) (n : Nat) :
    Sys2Proof.core.run (m + n) s = Sys2Proof.core.run n t := by
  induction m generalizing s with
  | zero =>
    obtain rfl := Host.Outcome.next.inj h
    rw [Nat.zero_add]
  | succ m ih =>
    obtain ⟨u, hu, h⟩ := core_run_succ_next h
    rw [Nat.add_right_comm, core_run_succ _ hu, ih h]

/-- An incomplete check that is run as one transaction leads, two steps on, to a receive. -/
theorem two_steps_to_receiving {s : State} (hp : s.phase = .command) (ho : s.op = .check) (hw : s.cfg.WF)
    (hc : s.checkOf = .incomplete) :
    ∃ u, Sys2Proof.core.run 2 s = .next u ∧ u.phase = .receiving ∧ u.buffer = s.buffer ∧ u.eof = s.eof ∧
      u.incoming = s.incoming := by
  have h1 : step s = .next { s with out := .incomplete, confirmed := none, regs := Walk.init, phase := .checked } := by
    rw [step, hp]
    dsimp only
    rw [ho, commandInstr, exec_check hw, hc, ← ho]
    rfl
  refine ⟨{ s with out := .incomplete, confirmed := none, regs := Walk.init, phase := .receiving }, ?_, rfl, rfl, rfl,
    rfl⟩
  rw [core_run_succ 1 h1, core_run_one]
  rfl

/-- Settles O52: a call on the empty buffer drains the connection, and its incomplete check leads to a receive. -/
theorem noMessageAfterEndOfStream : Obligations.NoMessageAfterEndOfStream := by
  intro s hp he hb
  constructor
  · intro n t hn h
    obtain ⟨n, rfl⟩ : ∃ k, n = k + 1 := ⟨n - 1, by omega⟩
    obtain ⟨u, hu, h⟩ := core_run_succ_next h
    simp only [step, hp] at hu
    obtain ⟨het, hbt, hrt, -⟩ := run_drained (drained_callRead he hb hu) h
    exact ⟨het, hbt, hrt⟩
  · intro hw hsw
    obtain ⟨v, hv, hvp, hvo, hvc, hvb, hve, hvi⟩ : ∃ v, step s = .next v ∧ v.phase = .command ∧ v.op = .check ∧
        v.cfg = s.cfg ∧ v.buffer = [] ∧ v.eof = true ∧ v.incoming = s.incoming := by
      obtain ⟨b, cs, d, hcall⟩ := callRead_eq s
      rw [step, hp]
      exact ⟨_, hcall, by simp [hsw], rfl, rfl, hb, he, rfl⟩
    obtain ⟨u, hu, hup, hub, hue, hui⟩ := two_steps_to_receiving hvp hvo (hvc ▸ hw) (by rw [State.checkOf, hvb]; rfl)
    have hrun : Sys2Proof.core.run 3 s = .next u := (core_run_succ 2 hv).trans hu
    refine ⟨u, hrun, hup, hui.trans hvi, fun bs hr => ?_⟩
    have hlast := step_receive_none hup hr (.inl ⟨.inl (hue.trans hve), rfl⟩)
    have hbuf := (State.nextReceipt_buffer u).trans (hub.trans hvb)
    rw [(endOfStream_eq _).1 hbuf] at hlast
    exact ⟨_, (core_run_add hrun 1).trans ((core_run_one u).trans hlast), rfl, rfl, rfl, hbuf⟩

end Sys2Proof.Machine
end

section
/-! The read loop over a stream of chunks (spec 41 R148, R149; 42 R171 to R177; V2): a message that arrives in any
pieces is delivered once and whole, and a stream that ends inside a message is a reset by peer. -/

namespace Sys2Proof.Machine

/-! Silent runs of the host. -/

theorem SilentRun.result_eq {n : Nat} {s t : State} (h : SilentRun n s t) : t.result = s.result := by
  induction h with
  | refl => rfl
  | head _ hr _ ih => exact ih.trans hr

/-- A silent run keeps the memory's canonical form. -/
theorem SilentRun.buffer_wf {n : Nat} {s t : State} (h : SilentRun n s t) (hwf : s.buffer.wf = true) :
    t.buffer.wf = true := by
  induction h with
  | refl => exact hwf
  | head hs _ _ ih => exact ih (canonicalMemoryKept _ _ hwf hs)

/-- A call whose first step clears the result and whose last step returns one: strictly between there is none. -/
theorem run_of_silentRun {n : Nat} {s s₁ u t : State} (hfirst : step s = .next s₁) (hr : s₁.result = none)
    (hrun : SilentRun n s₁ u) (hlast : step u = .next t) :
    Sys2Proof.core.run (n + 2) s = .next t ∧
      ∀ k, 0 < k → k < n + 2 → ∃ t', Sys2Proof.core.run k s = .next t' ∧ t'.result = none := by
  constructor
  · exact (core_run_succ _ hfirst).trans ((hrun.run_add 1).trans ((core_run_one u).trans hlast))
  · intro k hk hlt
    obtain ⟨k, rfl⟩ : ∃ j, k = j + 1 := ⟨k - 1, by omega⟩
    obtain ⟨t', ht', hres⟩ := hrun.result_at (by omega : k ≤ n)
    exact ⟨t', by rw [core_run_succ _ hfirst, ht'], hres.trans hr⟩

/-! The states of a call between its moves. -/

/-- A read call has issued a check of the bytes `bs` before end of stream, with these receive outcomes pending and no
result yet; the operation has not begun. -/
structure State.Checks (s : State) (c : Cfg) (cap : Nat) (bs : List Byte) (pending : List Receipt) : Prop where
  cfg : s.cfg = c
  wf : c.WF
  recvCap : s.recvCap = cap
  op : s.op = .check
  start : s.phase = .command ∨ s.phase = .walking ∧ s.regs = Walk.init
  bytes : s.buffer.bytes = bs
  eof : s.eof = false
  incoming : s.incoming = pending
  result : s.result = none

/-- The host waits in a receive with the bytes `bs` buffered before end of stream. -/
structure State.Waits (s : State) (c : Cfg) (cap : Nat) (bs : List Byte) (pending : List Receipt) : Prop where
  cfg : s.cfg = c
  wf : c.WF
  recvCap : s.recvCap = cap
  phase : s.phase = .receiving
  bytes : s.buffer.bytes = bs
  eof : s.eof = false
  incoming : s.incoming = pending
  result : s.result = none

/-- An issued operation is either whole or a walk at its start (log 4). -/
theorem issue_start (s : State) (op : Command) (n : Nat) :
    (s.issue op n).phase = .command ∨ (s.issue op n).phase = .walking ∧ (s.issue op n).regs = Walk.init := by
  rw [State.issue_phase]
  cases s.stepwise with
  | false => exact .inl rfl
  | true => exact .inr ⟨rfl, rfl⟩

/-- A call before end of stream issues such a check (42 R171). -/
theorem checks_of_call {s : State} (hw : s.cfg.WF) (hp : s.phase = .idle) (he : s.eof = false) :
    ∃ t, step s = .next t ∧ t.Checks s.cfg s.recvCap s.buffer.bytes s.incoming ∧ t.buffer = s.buffer := by
  obtain ⟨b, cs, d, hr⟩ := callRead_eq s
  rw [step, hp]
  exact ⟨_, hr, ⟨rfl, hw, rfl, rfl, issue_start _ _ _, rfl, he, rfl, rfl⟩, rfl⟩

section
variable {c : Cfg} {cap : Nat} {bs : List Byte} {pending : List Receipt} {s : State}

/-- The check comes silently to the phase in which the host acts on its outcome. -/
theorem State.Checks.silentRun (h : s.Checks c cap bs pending) :
    ∃ n, SilentRun n s ((s.confirm (checkOutput (walk c .check bs))).returns .checked
      (checkOutput (walk c .check bs))) := by
  obtain ⟨n, u, hu, hstep⟩ := silentRun_operation (h.cfg ▸ h.wf) h.start
  have hwin : s.window = bs := by rw [State.window, h.op, ← h.bytes]
  rw [endWalk_check h.op, h.op, hwin, h.cfg] at hstep
  exact ⟨n + 1, hu.trans (.head hstep hu.result_eq.symm (.refl _))⟩

/-- An incomplete check leads silently to a receive (42 R171 step 3). -/
theorem State.Checks.waits (h : s.Checks c cap bs pending) (hinc : walk c .check bs = .incomplete) :
    ∃ n t, SilentRun n s t ∧ t.Waits c cap bs pending := by
  obtain ⟨n, hn⟩ := h.silentRun
  rw [hinc] at hn
  refine ⟨n + 1, _, hn.trans (.head rfl rfl (.refl _)), ?_⟩
  exact ⟨h.cfg, h.wf, h.recvCap, rfl, h.bytes, h.eof, h.incoming, h.result⟩

/-- A chunk within the capacity is appended, and the longer buffer is checked (42 R173). -/
theorem State.Waits.receive {x : List Byte} (h : s.Waits c cap bs (.bytes x :: pending)) (hx : x ≠ [])
    (hlen : x.length ≤ cap) : ∃ t, step s = .next t ∧ t.Checks c cap (bs ++ x) pending := by
  have hnext : s.nextReceipt = (.bytes x, { s with incoming := pending }) := by
    rw [State.nextReceipt, h.incoming]
  have htake : x.take cap = x := List.take_of_length_le hlen
  have hobt := obtained_some (s := s.nextReceipt.2) (bs := x) (cap := cap)
    ((State.nextReceipt_recvCap s).trans h.recvCap) (by rwa [htake])
  rw [if_pos hlen, htake] at hobt
  refine ⟨_, (step_receive_bytes h.phase h.eof (by rw [hnext])).trans (congrArg _ hobt), ?_⟩
  rw [hnext]
  exact ⟨h.cfg, h.wf, h.recvCap, rfl, issue_start _ _ _, by simp [h.bytes], h.eof, rfl, h.result⟩

/-- A receive of no byte on a non-empty buffer is a reset by peer and keeps the bytes (42 R171 step 4). -/
theorem State.Waits.receive_none (h : s.Waits c cap bs (.bytes [] :: pending)) (hbs : bs ≠ []) :
    ∃ t, step s = .next t ∧ t.result = some .resetByPeer ∧ t.phase = .stopped ∧ t.buffer.bytes = bs := by
  have hnext : s.nextReceipt = (.bytes [], { s with incoming := pending }) := by
    rw [State.nextReceipt, h.incoming]
  have hbuf := State.nextReceipt_buffer s
  have hne : s.nextReceipt.2.buffer ≠ [] := fun hb => hbs (by rw [← h.bytes, ← hbuf, hb]; rfl)
  have hstep := step_receive_none h.phase (bs := []) (by rw [hnext]) (.inl ⟨.inr rfl, rfl⟩)
  exact ⟨_, hstep.trans (congrArg _ ((endOfStream_eq _).2 hne)), rfl, rfl,
    (congrArg Memory.bytes hbuf).trans h.bytes⟩

/-- As long as what has arrived is incomplete, the chunks are appended one by one, and all of them are checked. -/
theorem State.Checks.receive_chunks {chunks : List (List Byte)} {later : List Receipt}
    (h : s.Checks c cap bs (chunks.map Receipt.bytes ++ later)) (hch : ∀ x ∈ chunks, x ≠ [] ∧ x.length ≤ cap)
    (hinc : ∀ cs, cs <+: chunks → cs ≠ chunks → walk c .check (bs ++ cs.flatten) = .incomplete) :
    ∃ n t, SilentRun n s t ∧ t.Checks c cap (bs ++ chunks.flatten) later := by
  induction chunks generalizing s bs with
  | nil => exact ⟨0, s, .refl s, by simpa using h⟩
  | cons x xs ih =>
    obtain ⟨n, t, hrun, ht⟩ := h.waits (by simpa using hinc [] (List.nil_prefix) nofun)
    obtain ⟨hx, hlen⟩ := hch x (List.mem_cons_self ..)
    obtain ⟨u, hu, hchecks⟩ := ht.receive hx hlen
    obtain ⟨k, v, hv, hlast⟩ := ih hchecks (fun y hy => hch y (List.mem_cons_of_mem x hy)) fun cs hcs hne => by
      have := hinc (x :: cs) (List.cons_prefix_cons.mpr ⟨rfl, hcs⟩) (by simpa using hne)
      simpa using this
    have hquiet : SilentRun (n + (k + 1)) s v :=
      hrun.trans (.head hu (by rw [hchecks.result, ht.result]) hv)
    exact ⟨_, v, hquiet, by simpa using hlast⟩

/-- A check of a message and what follows leads silently to the delivery of the message (42 R171 step 2, R172). -/
theorem State.Checks.delivers {m tail : List Byte} {r : Walk} {ty : MessageType}
    (h : s.Checks c cap (m ++ tail) pending) (hm : walk c .parse m = .complete r) (hp : r.p = m.length)
    (hty : r.mt = some ty) :
    ∃ n u t, SilentRun n s u ∧ step u = .next t ∧ t.result = some (.message r.acc ty) ∧ t.phase = .idle ∧
      t.buffer.bytes = tail ∧ t.incoming = pending := by
  have hcheck : walk c .check (m ++ tail) = .complete { r with acc := [] } := by
    refine (walkStableUnderAppend c .check m tail).1 _ ?_
    rw [checkIsParseWithoutFrames, hm, WalkEnd.withoutFrames]
  obtain ⟨n, hn⟩ := h.silentRun
  rw [hcheck, checkOutput, hp] at hn
  generalize hs1 : (s.confirm (.complete m.length)).returns .checked (.complete m.length) = s1 at hn
  have hbytes : s1.buffer.bytes = m ++ tail := by rw [← hs1]; exact h.bytes
  have hconf : s1.confirmed = some m := by
    rw [← hs1, State.returns_confirmed, State.confirm_confirmed, State.window, h.op, h.bytes]
    simp [Output.consumed]
  have hstep1 : step s1 = .next (s1.issue .parse m.length) := by rw [← hs1]; rfl
  have hcfg : s1.cfg = c := by rw [← hs1]; exact h.cfg
  obtain ⟨k, u, hu, hstep2⟩ := silentRun_operation (s := s1.issue .parse m.length) (hcfg ▸ h.wf) (issue_start _ _ _)
  have hwin : (s1.issue .parse m.length).window = m := by
    rw [State.window, State.issue_op, State.issue_buffer, State.issue_nIn, hbytes, List.take_left]
  rw [hwin, State.issue_op, State.issue_cfg, hcfg, hm, endWalk_parse rfl hp hty (by
    rw [State.issue_confirmed, State.issue_buffer, State.issue_nIn, hbytes, List.take_left, hconf])] at hstep2
  refine ⟨n + (k + 1 + 1), _, _, hn.trans (.head hstep1 rfl (hu.trans (.head hstep2 hu.result_eq.symm (.refl _)))),
    rfl, rfl, rfl, ?_, ?_⟩
  · rw [State.finish_buffer, Memory.bytes_advance]
    simp [hbytes, hp]
  · rw [← hs1]
    exact h.incoming

end

/-! Both ways a stream can go on. -/

/-- A part of a stream that is shorter than its first message is a front part of the message, and its check is
incomplete (41 R149). -/
theorem walk_of_front {c : Cfg} {m tail a b : List Byte} {r : Walk} (hm : walk c .check m = .complete r)
    (hp : r.p = m.length) (hab : a ++ b = m ++ tail) (hlt : a.length < m.length) : walk c .check a = .incomplete := by
  have ha : a = m.take a.length := by
    have := congrArg (List.take a.length) hab
    rwa [List.take_left, List.take_append_of_le_length hlt.le] at this
  rw [ha]
  exact (frontPartsIncomplete c m r hm hp).1 a.length hlt

/-- What a strict front part of the chunks leaves out holds the whole last chunk. -/
theorem length_flatten_lt {cs chunks : List (List Byte)} (h : cs <+: chunks) (hne : cs ≠ chunks) :
    ∃ x, chunks.getLast? = some x ∧ cs.flatten.length + x.length ≤ chunks.flatten.length := by
  obtain ⟨ys, rfl⟩ := h
  have hys : ys ≠ [] := by
    rintro rfl
    exact hne (List.append_nil cs).symm
  obtain ⟨zs, x, rfl⟩ := List.eq_nil_or_concat' ys |>.resolve_left hys
  refine ⟨x, by rw [← List.append_assoc, List.getLast?_concat], ?_⟩
  simp only [List.flatten_append, List.length_append, List.flatten_singleton]
  omega

/-- Settles O59: until the last chunk only front parts of the message are checked; with it the message is complete. -/
theorem incrementalDelivery : Obligations.IncrementalDelivery := by
  intro s m tail chunks later r ty hw hp he hwf hin hbytes hch hlast hm hr hty
  have hcheck : walk s.cfg .check m = .complete { r with acc := [] } := by
    rw [checkIsParseWithoutFrames, hm, WalkEnd.withoutFrames]
  obtain ⟨s₁, hfirst, hs₁, hb₁⟩ := checks_of_call hw hp he
  rw [hin] at hs₁
  obtain ⟨n, t, hrun, ht⟩ := hs₁.receive_chunks hch fun cs hcs hne => by
    obtain ⟨x, hx, hle⟩ := length_flatten_lt hcs hne
    obtain ⟨ys, rfl⟩ := hcs
    have hlen := congrArg List.length hbytes
    simp only [List.length_append] at hlen hle
    refine walk_of_front hcheck hr (b := ys.flatten) (tail := tail) (by simpa using hbytes) ?_
    have := hlast x hx
    rw [List.length_append]
    omega
  rw [hbytes] at ht
  obtain ⟨k, u, v, hu, hv, hres, hidle, htail, hinc⟩ := ht.delivers hm hr hty
  obtain ⟨hall, hbetween⟩ := run_of_silentRun hfirst hs₁.result (hrun.trans hu) hv
  have hwf' := canonicalMemoryKept u v ((hrun.trans hu).buffer_wf (hb₁ ▸ hwf)) hv
  exact ⟨_, v, hall, hres, hidle, htail, hwf', hinc, hbetween⟩

/-- Settles O60: every check is of a front part of the message, so the call is still waiting when the stream ends. -/
theorem truncationResetsByPeer : Obligations.TruncationResetsByPeer := by
  intro s m k chunks later r hw hp he hin hbytes hk hlt hch hm hr
  obtain ⟨s₁, hfirst, hs₁, -⟩ := checks_of_call hw hp he
  rw [hin] at hs₁
  have hfront (a b : List Byte) (hab : a ++ b = m.take k) : walk s.cfg .check a = .incomplete := by
    refine walk_of_front hm hr (b := b ++ m.drop k) (tail := []) ?_ ?_
    · rw [← List.append_assoc, hab, List.take_append_drop, List.append_nil]
    · have := congrArg List.length hab
      rw [List.length_append, List.length_take] at this
      omega
  obtain ⟨n, t, hrun, ht⟩ := hs₁.receive_chunks hch fun cs hcs _ => by
    obtain ⟨ys, rfl⟩ := hcs
    exact hfront _ ys.flatten (by simpa using hbytes)
  rw [hbytes] at ht
  obtain ⟨j, u, hu, hwaits⟩ := ht.waits (hfront _ [] (List.append_nil _))
  have hne : m.take k ≠ [] := by
    rw [← List.length_pos_iff, List.length_take]
    omega
  obtain ⟨v, hv, hres, hstop, hbuf⟩ := hwaits.receive_none hne
  obtain ⟨hall, hbetween⟩ := run_of_silentRun hfirst hs₁.result (hrun.trans hu) hv
  exact ⟨_, v, hall, hres, hstop, hbuf, hbetween⟩

end Sys2Proof.Machine
end

section
/-! The calendar and UTF-8 texts (spec 40 R110, R116; from general knowledge, log 28). -/

namespace Sys2Proof.Machine

/-! The calendar. -/

/-- A year is a leap year by the divisibility rule (40 R116). -/
theorem leapYear_iff (y : Nat) : leapYear y = true ↔ (4 ∣ y ∧ ¬ 100 ∣ y) ∨ 400 ∣ y := by
  simp only [leapYear, Bool.and_eq_true, Bool.or_eq_true, decide_eq_true_eq]
  omega

/-- Every month has a day. -/
theorem daysInMonth_pos (y m : Nat) : 1 ≤ daysInMonth y m := by
  unfold daysInMonth
  split
  · split <;> decide
  all_goals decide

/-- The months before the next month are those before this one and this one. -/
theorem daysBeforeMonth_succ (y : Nat) {m : Nat} (hm : 1 ≤ m) :
    daysBeforeMonth y (m + 1) = daysBeforeMonth y m + daysInMonth y m := by
  obtain ⟨k, rfl⟩ : ∃ k, m = k + 1 := ⟨m - 1, by omega⟩
  simp only [daysBeforeMonth, Nat.add_sub_cancel, List.range_succ, List.map_append, List.sum_append, List.map_cons,
    List.map_nil, List.sum_singleton]

/-- The months before December: all but February have their fixed lengths. -/
theorem daysBeforeMonth_december (y : Nat) : daysBeforeMonth y 12 = 306 + daysInMonth y 2 := by
  have hlist : daysBeforeMonth y 12 = [31, daysInMonth y 2, 31, 30, 31, 30, 31, 31, 30, 31, 30].sum := rfl
  rw [hlist]
  simp only [List.sum_cons, List.sum_nil]
  omega

/-- A quotient rounded up grows exactly after a multiple. -/
theorem ceilDiv_succ (y : Nat) {q : Nat} (hq : 0 < q) :
    (y + 1 + (q - 1)) / q = (y + (q - 1)) / q + if q ∣ y then 1 else 0 := by
  rw [Nat.add_right_comm, Nat.succ_div, Nat.add_assoc, Nat.sub_add_cancel hq]
  simp only [Nat.dvd_add_self_right]

/-- A year has 337 days beside those of February. -/
theorem daysBeforeYear_succ (y : Nat) : daysBeforeYear (y + 1) = daysBeforeYear y + 337 + daysInMonth y 2 := by
  have h4 := ceilDiv_succ y (q := 4) (by decide)
  have h100 := ceilDiv_succ y (q := 100) (by decide)
  have h400 := ceilDiv_succ y (q := 400) (by decide)
  have hle : (y + 99) / 100 ≤ 365 * y := by omega
  have hfeb : daysInMonth y 2 = if leapYear y then 29 else 28 := rfl
  simp only [Nat.reduceSub] at h4 h100 h400
  rw [hfeb, daysBeforeYear, daysBeforeYear, h4, h100, h400]
  simp only [leapYear_iff]
  generalize (y + 3) / 4 = a, (y + 99) / 100 = b, (y + 399) / 400 = c at hle ⊢
  split_ifs <;> omega

/-- Settles O10: each step of the calendar adds one day. -/
theorem civilDaysCountDays : Obligations.CivilDaysCountDays := by
  refine ⟨by decide, fun y => ?_, fun y m d hd => ?_, fun y m hm _ => ?_, fun y => ?_⟩
  · simp only [daysInMonth, leapYear_iff]
  · rw [daysFromCivil, daysFromCivil]
    omega
  · have := daysInMonth_pos y m
    rw [daysFromCivil, daysFromCivil, daysBeforeMonth_succ y hm]
    omega
  · have hfirst : daysBeforeMonth (y + 1) 1 = 0 := rfl
    rw [daysFromCivil, daysFromCivil, daysBeforeYear_succ, daysBeforeMonth_december, hfirst]
    omega

/-! UTF-8. -/

/-- The bytes lie, one by one, in the ranges. -/
def InRanges (rs : List (Nat × Nat)) (x : List Byte) : Prop := List.Forall₂ (fun r b => inRange r b = true) rs x

theorem inRange_iff {r : Nat × Nat} {b : Byte} : inRange r b = true ↔ r.1 ≤ b.toNat ∧ b.toNat ≤ r.2 := by
  simp [inRange]

/-- The same by index. -/
theorem inRanges_iff {rs : List (Nat × Nat)} {x : List Byte} :
    InRanges rs x ↔ x.length = rs.length ∧
      ∀ (k : Nat) (r : Nat × Nat), rs[k]? = some r → ∃ b, x[k]? = some b ∧ r.1 ≤ b.toNat ∧ b.toNat ≤ r.2 := by
  rw [InRanges, List.forall₂_iff_get]
  constructor
  · rintro ⟨hl, h⟩
    refine ⟨hl.symm, fun k r hr => ?_⟩
    obtain ⟨hk, rfl⟩ := List.getElem?_eq_some_iff.mp hr
    exact ⟨_, List.getElem?_eq_getElem (hl ▸ hk), inRange_iff.mp (h k hk (hl ▸ hk))⟩
  · rintro ⟨hl, h⟩
    refine ⟨hl.symm, fun k hk hk' => ?_⟩
    obtain ⟨b, hb, hr⟩ := h k _ (List.getElem?_eq_getElem hk)
    obtain ⟨_, rfl⟩ := List.getElem?_eq_some_iff.mp hb
    exact inRange_iff.mpr hr

/-- In rows whose first ranges rise, the row that a byte begins is the first one found. -/
theorem find?_row {rows : List ((Nat × Nat) × List (Nat × Nat))} (hrows : rows.Pairwise fun r r' => r.1.2 < r'.1.1)
    {row : (Nat × Nat) × List (Nat × Nat)} (hrow : row ∈ rows) {b : Byte} (hb : inRange row.1 b = true) :
    rows.find? (fun r => inRange r.1 b) = some row := by
  induction rows with
  | nil => cases hrow
  | cons r rows ih =>
    obtain ⟨hlt, hrows⟩ := List.pairwise_cons.mp hrows
    obtain rfl | hrow := List.mem_cons.mp hrow
    · simp only [List.find?_cons, hb]
    · have hr : inRange r.1 b = false := by
        have := hlt row hrow
        rw [inRange_iff] at hb
        rw [← Bool.not_eq_true, inRange_iff]
        omega
      simp only [List.find?_cons, hr, ih hrows hrow]

/-- A byte begins a sequence exactly as a row of the table says (40 R110). -/
theorem utf8Follow_eq_some {b : Byte} {rs : List (Nat × Nat)} :
    utf8Follow b = some rs ↔ ∃ row ∈ utf8Rows, inRange row.1 b = true ∧ row.2 = rs := by
  rw [utf8Follow, Option.map_eq_some_iff]
  constructor
  · rintro ⟨row, hfind, rfl⟩
    exact ⟨row, List.mem_of_find?_eq_some hfind, by simpa using List.find?_some hfind, rfl⟩
  · rintro ⟨row, hrow, hb, rfl⟩
    exact ⟨row, find?_row (by decide) hrow hb, rfl⟩

/-- The scan takes the bytes that are owed and starts afresh after them. -/
theorem utf8Scan_iff {rs : List (Nat × Nat)} {s : List Byte} :
    utf8Scan rs s = true ↔ ∃ x y, s = x ++ y ∧ InRanges rs x ∧ utf8Scan [] y = true := by
  induction rs generalizing s with
  | nil =>
    constructor
    · exact fun h => ⟨[], s, rfl, .nil, h⟩
    · rintro ⟨x, y, rfl, hx, hy⟩
      cases hx
      exact hy
  | cons r rs ih =>
    cases s with
    | nil =>
      simp only [utf8Scan, Bool.false_eq_true, false_iff]
      rintro ⟨x, y, hxy, hx, -⟩
      obtain ⟨rfl, -⟩ := List.nil_eq_append_iff.mp hxy
      cases hx
    | cons b s =>
      simp only [utf8Scan, Bool.and_eq_true, ih]
      constructor
      · rintro ⟨hb, x, y, rfl, hx, hy⟩
        exact ⟨b :: x, y, rfl, .cons hb hx, hy⟩
      · rintro ⟨x, y, hxy, hx, hy⟩
        cases hx with
        | cons hb hx =>
          obtain ⟨rfl, rfl⟩ := List.cons.inj hxy
          exact ⟨hb, _, y, rfl, hx, hy⟩

/-- A byte sequence that matches one row of the table. -/
def MatchesRow (x : List Byte) : Prop := ∃ row ∈ utf8Rows, InRanges (row.1 :: row.2) x

/-- A well-formed text is empty, or a sequence that matches a row and then a well-formed text. -/
theorem utf8Scan_cons {b : Byte} {s : List Byte} :
    utf8Scan [] (b :: s) = true ↔ ∃ x y, s = x ++ y ∧ MatchesRow (b :: x) ∧ utf8Scan [] y = true := by
  have hscan : utf8Scan [] (b :: s) = true ↔ ∃ rs, utf8Follow b = some rs ∧ utf8Scan rs s = true := by
    rw [utf8Scan]
    cases utf8Follow b <;> simp
  rw [hscan]
  constructor
  · rintro ⟨rs, hrs, hs⟩
    obtain ⟨row, hrow, hb, rfl⟩ := utf8Follow_eq_some.mp hrs
    obtain ⟨x, y, hxy, hx, hy⟩ := utf8Scan_iff.mp hs
    exact ⟨x, y, hxy, ⟨row, hrow, .cons hb hx⟩, hy⟩
  · rintro ⟨x, y, hxy, ⟨row, hrow, hx⟩, hy⟩
    cases hx with
    | cons hb hx =>
      exact ⟨row.2, utf8Follow_eq_some.mpr ⟨row, hrow, hb, rfl⟩, utf8Scan_iff.mpr ⟨x, y, hxy, hx, hy⟩⟩

/-- A text is well formed exactly if it is a concatenation of sequences that each match a row (40 R110). -/
theorem utf8Ok_iff {s : List Byte} : utf8Ok s = true ↔ ∃ parts : List (List Byte), parts.flatten = s ∧
    ∀ x ∈ parts, MatchesRow x := by
  rw [utf8Ok]
  constructor
  · induction hn : s.length using Nat.strong_induction_on generalizing s with
    | _ n ih =>
      intro h
      cases s with
      | nil => exact ⟨[], rfl, nofun⟩
      | cons b s =>
        obtain ⟨x, y, rfl, hx, hy⟩ := utf8Scan_cons.mp h
        obtain ⟨parts, rfl, hparts⟩ := ih y.length (by simp at hn; omega) rfl hy
        exact ⟨(b :: x) :: parts, rfl, List.forall_mem_cons.mpr ⟨hx, hparts⟩⟩
  · rintro ⟨parts, rfl, hparts⟩
    induction parts with
    | nil => rfl
    | cons x parts ih =>
      obtain ⟨⟨row, hrow, hr⟩, hrest⟩ := List.forall_mem_cons.mp hparts
      cases hr with
      | cons hb hr => exact utf8Scan_cons.mpr ⟨_, _, rfl, ⟨row, hrow, .cons hb hr⟩, ih hrest⟩

/-- No range of the table holds `C0`, `C1` or `F5` to `FF` (40 R110). -/
theorem utf8Rows_avoid : ∀ row ∈ utf8Rows, ∀ r ∈ row.1 :: row.2, (r.2 < 0xC0 ∨ 0xC2 ≤ r.1) ∧ r.2 < 0xF5 := by decide

/-- Each byte of a matching sequence lies in a range of the row. -/
theorem InRanges.exists_of_mem {rs : List (Nat × Nat)} {x : List Byte} (h : InRanges rs x) {b : Byte} (hb : b ∈ x) :
    ∃ r ∈ rs, inRange r b = true := by
  induction h with
  | nil => cases hb
  | @cons r b' rs x hr _ ih =>
    obtain rfl | hb := List.mem_cons.mp hb
    · exact ⟨r, List.mem_cons_self .., hr⟩
    · obtain ⟨r', hr', hin⟩ := ih hb
      exact ⟨r', List.mem_cons_of_mem r hr', hin⟩

/-- Settles O8: the scan cuts the text into the sequences of its rows. -/
theorem utf8IsConcatenationOfRows : Obligations.Utf8IsConcatenationOfRows := by
  intro s
  constructor
  · rw [utf8Ok_iff]
    simp only [MatchesRow, inRanges_iff, List.length_cons]
  · intro h b hb
    obtain ⟨parts, rfl, hparts⟩ := utf8Ok_iff.mp h
    obtain ⟨x, hx, hbx⟩ := List.mem_flatten.mp hb
    obtain ⟨row, hrow, hin⟩ := hparts x hx
    obtain ⟨r, hr, hbr⟩ := hin.exists_of_mem hbx
    obtain ⟨havoid, hlt⟩ := utf8Rows_avoid row hrow r hr
    rw [inRange_iff] at hbr
    refine ⟨?_, ?_, by omega⟩ <;> (rintro rfl; simp at hbr; omega)

end Sys2Proof.Machine
end

section
/-! RFC 3339 texts (spec 40 R116; from general knowledge, log 28): what each part of the reference parser reads is the
spelling of that part of the grammar. -/

namespace Sys2Proof.Machine

/-! Digits. -/

/-- The ASCII digit of a value below 10. -/
def digitByte (d : Nat) : Byte := BitVec.ofNat 8 (0x30 + d)

theorem digit?_eq_some {b : Byte} {d : Nat} : digit? b = some d ↔ d < 10 ∧ b = digitByte d := by
  unfold digit? digitByte
  constructor
  · intro h
    split at h
    · obtain rfl := Option.some.inj h
      exact ⟨by omega, BitVec.eq_of_toNat_eq (by rw [BitVec.toNat_ofNat]; omega)⟩
    · cases h
  · rintro ⟨hd, rfl⟩
    have hn : (BitVec.ofNat 8 (0x30 + d)).toNat = 0x30 + d := by rw [BitVec.toNat_ofNat]; omega
    rw [hn, if_pos (by omega), Nat.add_sub_cancel_left]

/-- A decimal spelling begins with the digit of the highest place. -/
theorem decimal_cons {n d k : Nat} (hd : d < 10) (hk : k < 10 ^ n) :
    decimal (n + 1) (d * 10 ^ n + k) = digitByte d :: decimal n k := by
  induction n generalizing k with
  | zero =>
    obtain rfl : k = 0 := by omega
    simp [decimal, digitByte, Nat.mod_eq_of_lt hd]
  | succ n ih =>
    have hdiv : (d * 10 ^ (n + 1) + k) / 10 = d * 10 ^ n + k / 10 := by rw [pow_succ, ← mul_assoc]; omega
    have hmod : (d * 10 ^ (n + 1) + k) % 10 = k % 10 := by rw [pow_succ, ← mul_assoc]; omega
    rw [decimal, hdiv, hmod, ih (by rw [pow_succ] at hk; omega), decimal, List.cons_append]

/-- Reading `n` digits is reading the decimal spelling of a number below `10 ^ n` (40 R116). -/
theorem digits_eq_some {n acc v : Nat} {s rest : List Byte} :
    digits n acc s = some (v, rest) ↔ ∃ k < 10 ^ n, v = acc * 10 ^ n + k ∧ s = decimal n k ++ rest := by
  induction n generalizing acc s with
  | zero =>
    simp only [digits, Option.some.injEq, Prod.mk.injEq, pow_zero, mul_one, Nat.lt_one_iff, exists_eq_left, add_zero,
      decimal, List.nil_append, eq_comm]
  | succ n ih =>
    cases s with
    | nil =>
      simp only [digits, reduceCtorEq, false_iff, not_exists, not_and, decimal]
      intro k _ _ h
      simp at h
    | cons b s =>
      have hdigits : digits (n + 1) acc (b :: s) = some (v, rest) ↔
          ∃ d, digit? b = some d ∧ digits n (acc * 10 + d) s = some (v, rest) := by
        rw [digits]
        cases digit? b <;> simp
      simp only [hdigits, digit?_eq_some, ih]
      constructor
      · rintro ⟨d, ⟨hd, rfl⟩, k, hk, rfl, rfl⟩
        refine ⟨d * 10 ^ n + k, ?_, by ring, by rw [decimal_cons hd hk, List.cons_append]⟩
        have := Nat.mul_le_mul_right (10 ^ n) (Nat.le_of_lt_succ hd)
        rw [pow_succ]
        omega
      · rintro ⟨k, hk, rfl, hs⟩
        have hpos : 0 < 10 ^ n := by positivity
        have hd : k / 10 ^ n < 10 := by rw [Nat.div_lt_iff_lt_mul hpos, ← pow_succ']; exact hk
        have hmod := Nat.mod_lt k hpos
        have hsplit : k = k / 10 ^ n * 10 ^ n + k % 10 ^ n := by rw [Nat.div_add_mod']
        rw [hsplit, decimal_cons hd hmod, List.cons_append] at hs
        obtain ⟨rfl, rfl⟩ := List.cons.inj hs
        exact ⟨_, ⟨hd, rfl⟩, _, hmod, by rw [pow_succ]; nlinarith [hsplit], rfl⟩

/-- From no digits read before, the value is the number itself. -/
theorem digits_zero_eq_some {n v : Nat} {s rest : List Byte} :
    digits n 0 s = some (v, rest) ↔ v < 10 ^ n ∧ s = decimal n v ++ rest := by
  simp only [digits_eq_some, zero_mul, zero_add]
  constructor
  · rintro ⟨k, hk, rfl, hs⟩
    exact ⟨hk, hs⟩
  · rintro ⟨hk, hs⟩
    exact ⟨v, hk, rfl, hs⟩

/-- One byte out of a list. -/
theorem oneOf_eq_some {bs s rest : List Byte} : oneOf bs s = some rest ↔ ∃ b ∈ bs, s = b :: rest := by
  cases s with
  | nil => simp [oneOf]
  | cons b s =>
    by_cases hb : b ∈ bs
    · simp only [oneOf, hb, if_true, Option.some.injEq, List.cons.injEq]
      exact ⟨fun h => ⟨b, hb, rfl, h⟩, fun ⟨_, _, _, h⟩ => h⟩
    · simp only [oneOf, hb, if_false, reduceCtorEq, List.cons.injEq, false_iff]
      rintro ⟨_, hb', rfl, _⟩
      exact hb hb'

theorem oneOf_singleton_eq_some {b : Byte} {s rest : List Byte} : oneOf [b] s = some rest ↔ s = b :: rest := by
  simp [oneOf_eq_some]

/-! The date. -/

theorem daysInMonth_le (y m : Nat) : daysInMonth y m ≤ 31 := by
  unfold daysInMonth
  split
  · split <;> decide
  all_goals decide

/-- A date that is read is the spelling of a valid one (40 R116). -/
theorem fullDate_eq_some {s rest : List Byte} {y m d : Nat} :
    fullDate s = some ((y, m, d), rest) ↔
      (y ≤ 9999 ∧ 1 ≤ m ∧ m ≤ 12 ∧ 1 ≤ d ∧ d ≤ daysInMonth y m) ∧
        s = decimal 4 y ++ 0x2D#8 :: (decimal 2 m ++ 0x2D#8 :: (decimal 2 d ++ rest)) := by
  simp only [fullDate, Option.bind_eq_bind, Option.bind_eq_some_iff, Prod.exists, digits_zero_eq_some,
    oneOf_singleton_eq_some, Option.ite_none_right_eq_some, Option.some.injEq, Prod.mk.injEq]
  constructor
  · rintro ⟨y', s₁, ⟨hy, rfl⟩, s₂, rfl, m', s₃, ⟨-, rfl⟩, s₄, rfl, d', s₅, ⟨-, rfl⟩, hok, ⟨rfl, rfl, rfl⟩, rfl⟩
    exact ⟨⟨by omega, hok⟩, rfl⟩
  · rintro ⟨⟨hy, hok⟩, rfl⟩
    have := daysInMonth_le y m
    exact ⟨y, _, ⟨by omega, rfl⟩, _, rfl, m, _, ⟨by omega, rfl⟩, _, rfl, d, _, ⟨by omega, rfl⟩, hok, ⟨rfl, rfl, rfl⟩,
      rfl⟩

/-! The fraction of a second. -/

/-- The spelling of decimal digits. -/
def digitBytes (l : List (Fin 10)) : List Byte := l.map fun k => digitByte k.val

theorem digitBytes_cons (k : Fin 10) (l : List (Fin 10)) :
    digitBytes (k :: l) = digitByte k.val :: digitBytes l := rfl

theorem digitBytes_append (l m : List (Fin 10)) : digitBytes (l ++ m) = digitBytes l ++ digitBytes m :=
  List.map_append

/-- The spelling of a fraction; no digits mean no fraction. -/
def fractionBytes (fr : List (Fin 10)) : List Byte :=
  if fr = [] then [] else 0x2E#8 :: digitBytes fr

/-- The value of a fraction in nanoseconds: its first nine digits, missing ones read as zero. -/
def fractionValue (fr : List (Fin 10)) : Nat :=
  ((fr.map Fin.val ++ List.replicate 9 0).take 9).foldl (fun a k => a * 10 + k) 0

/-- Bytes with which neither a fraction nor more of its digits begins. -/
def EndsFraction (rest : List Byte) : Prop := ∀ b ∈ rest.head?, digit? b = none ∧ b ≠ 0x2E#8

/-- Reading digits out of enough of them. -/
theorem digits_map {n acc : Nat} {l : List (Fin 10)} (h : n ≤ l.length) :
    digits n acc (digitBytes l) =
      some (((l.map Fin.val).take n).foldl (fun a k => a * 10 + k) acc, digitBytes (l.drop n)) := by
  induction n generalizing acc l with
  | zero => rfl
  | succ n ih =>
    cases l with
    | nil => simp at h
    | cons k l =>
      have hd : digit? (digitByte k.val) = some k.val := digit?_eq_some.mpr ⟨k.isLt, rfl⟩
      simp only [digitBytes_cons, List.map_cons, digits, hd, ih (Nat.le_of_succ_le_succ h), List.take_succ_cons, List.foldl_cons,
        List.drop_succ_cons]

/-- The value of the digits of a fraction, filled up with zeros. -/
theorem digits_fraction (fr : List (Fin 10)) :
    ∃ rest, digits 9 0 (digitBytes fr ++ List.replicate 9 0x30#8) =
      some (fractionValue fr, rest) := by
  have h := digits_map (n := 9) (acc := 0) (l := fr ++ List.replicate 9 0) (by simp)
  rw [digitBytes_append, List.map_append, List.map_replicate] at h
  exact ⟨_, h⟩

/-- Bytes that are all digits are the spelling of some. -/
theorem exists_digits {ds : List Byte} (h : ∀ b ∈ ds, (digit? b).isSome = true) : ∃ fr, ds = digitBytes fr := by
  induction ds with
  | nil => exact ⟨[], rfl⟩
  | cons b ds ih =>
    obtain ⟨hb, hds⟩ := List.forall_mem_cons.mp h
    obtain ⟨fr, rfl⟩ := ih hds
    obtain ⟨d, hd⟩ := Option.isSome_iff_exists.mp hb
    obtain ⟨hlt, rfl⟩ := digit?_eq_some.mp hd
    exact ⟨⟨d, hlt⟩ :: fr, rfl⟩

/-- A fraction that is read is the spelling of one. -/
theorem fraction_sound {s rest : List Byte} {n : Nat} (h : fraction s = some (n, rest)) :
    ∃ fr, n = fractionValue fr ∧ s = fractionBytes fr ++ rest := by
  unfold fraction at h
  cases ho : oneOf [0x2E#8] s with
  | none =>
    simp only [ho, Option.some.injEq, Prod.mk.injEq] at h
    obtain ⟨rfl, rfl⟩ := h
    exact ⟨[], rfl, rfl⟩
  | some s' =>
    obtain rfl := oneOf_singleton_eq_some.mp ho
    simp only [ho] at h
    obtain ⟨fr, hfr⟩ := exists_digits (ds := s'.takeWhile fun b => (digit? b).isSome)
      fun b hb => List.mem_takeWhile_imp (p := fun b => (digit? b).isSome) hb
    obtain ⟨r, hr⟩ := digits_fraction fr
    rw [hfr, hr] at h
    split at h
    · cases h
    · rename_i hne
      simp only [Option.some.injEq, Prod.mk.injEq] at h
      obtain ⟨rfl, rfl⟩ := h
      refine ⟨fr, rfl, ?_⟩
      have hdigits : fr ≠ [] := fun h => hne (by rw [h]; rfl)
      rw [fractionBytes, if_neg hdigits, ← hfr, List.cons_append, List.takeWhile_append_dropWhile]

/-- Digits are taken up to where they end. -/
theorem span_digits (fr : List (Fin 10)) {rest : List Byte} (hrest : EndsFraction rest) :
    ((digitBytes fr ++ rest).takeWhile fun b => (digit? b).isSome) = digitBytes fr ∧
      ((digitBytes fr ++ rest).dropWhile fun b => (digit? b).isSome) = rest := by
  have hdigits : ∀ b ∈ digitBytes fr, (digit? b).isSome = true := by
    intro b hb
    obtain ⟨k, -, rfl⟩ := List.mem_map.mp hb
    exact Option.isSome_iff_exists.mpr ⟨k.val, digit?_eq_some.mpr ⟨k.isLt, rfl⟩⟩
  rw [List.takeWhile_append_of_pos hdigits, List.dropWhile_append_of_pos hdigits]
  cases rest with
  | nil => simp
  | cons b rest =>
    obtain ⟨hb, -⟩ := hrest b rfl
    simp [hb]

/-- The spelling of a fraction is read, if it ends there. -/
theorem fraction_complete (fr : List (Fin 10)) {rest : List Byte} (hrest : EndsFraction rest) :
    fraction (fractionBytes fr ++ rest) = some (fractionValue fr, rest) := by
  by_cases hfr : fr = []
  · subst hfr
    have ho : oneOf [0x2E#8] rest = none := by
      refine Option.eq_none_iff_forall_ne_some.mpr fun s h => ?_
      rw [oneOf_singleton_eq_some] at h
      exact (hrest 0x2E#8 (by rw [h]; rfl)).2 rfl
    rw [show fractionBytes [] ++ rest = rest from rfl, fraction, ho]
    rfl
  · obtain ⟨htake, hdrop⟩ := span_digits fr hrest
    obtain ⟨r, hr⟩ := digits_fraction fr
    have ho : oneOf [0x2E#8] (fractionBytes fr ++ rest) = some (digitBytes fr ++ rest) := by
      rw [oneOf_singleton_eq_some, fractionBytes, if_neg hfr, List.cons_append]
    have hne : digitBytes fr ≠ [] := List.map_eq_nil_iff.not.mpr hfr
    simp only [fraction, ho, htake, hdrop, hne, if_false, hr]

/-! The time of day. -/

/-- The spelling of a time of day. -/
def timeBytes (h m sec : Nat) (fr : List (Fin 10)) : List Byte :=
  decimal 2 h ++ 0x3A#8 :: (decimal 2 m ++ 0x3A#8 :: (decimal 2 sec ++ fractionBytes fr))

/-- A time of day that is read is the spelling of a valid one (40 R116). -/
theorem partialTime_sound {s rest : List Byte} {h m sec n : Nat} (hs : partialTime s = some ((h, m, sec, n), rest)) :
    h ≤ 23 ∧ m ≤ 59 ∧ sec ≤ 60 ∧ ∃ fr, n = fractionValue fr ∧ s = timeBytes h m sec fr ++ rest := by
  simp only [partialTime, Option.bind_eq_bind, Option.bind_eq_some_iff, Prod.exists, digits_zero_eq_some,
    oneOf_singleton_eq_some, Option.ite_none_right_eq_some, Option.some.injEq, Prod.mk.injEq] at hs
  obtain ⟨h', s₁, ⟨-, rfl⟩, s₂, rfl, m', s₃, ⟨-, rfl⟩, s₄, rfl, sec', s₅, ⟨-, rfl⟩, n', s₆, hfr, ⟨hh, hm, hsec⟩,
    ⟨rfl, rfl, rfl, rfl⟩, rfl⟩ := hs
  obtain ⟨fr, hn, rfl⟩ := fraction_sound hfr
  exact ⟨hh, hm, hsec, fr, hn, by simp [timeBytes]⟩

/-- The spelling of a valid time of day is read, if the fraction ends there. -/
theorem partialTime_complete {h m sec : Nat} (hh : h ≤ 23) (hm : m ≤ 59) (hsec : sec ≤ 60) (fr : List (Fin 10))
    {rest : List Byte} (hrest : EndsFraction rest) :
    partialTime (timeBytes h m sec fr ++ rest) = some ((h, m, sec, fractionValue fr), rest) := by
  simp only [partialTime, Option.bind_eq_bind, Option.bind_eq_some_iff, Prod.exists, digits_zero_eq_some,
    oneOf_singleton_eq_some, Option.ite_none_right_eq_some, Option.some.injEq, Prod.mk.injEq]
  exact ⟨h, _, ⟨by omega, by simp only [timeBytes, List.append_assoc, List.cons_append]⟩, _, rfl, m, _,
    ⟨by omega, rfl⟩, _, rfl, sec, _, ⟨by omega, rfl⟩, _, _, fraction_complete fr hrest, ⟨hh, hm, hsec⟩,
    ⟨rfl, rfl, rfl, rfl⟩, rfl⟩

/-! The offset. -/

/-- The letter of UTC. -/
theorem oneOf_utc_eq_some {s rest : List Byte} :
    oneOf [0x5A#8, 0x7A#8] s = some rest ↔ ∃ lower, s = (Zone.utc lower).bytes ++ rest := by
  simp [oneOf_eq_some, Zone.bytes]

/-- The sign of a numeric offset. -/
theorem oneOf_sign_eq_some {s rest : List Byte} :
    oneOf [0x2B#8, 0x2D#8] s = some rest ↔ ∃ neg : Bool, s = (if neg then 0x2D#8 else 0x2B#8) :: rest := by
  simp [oneOf_eq_some]

/-- An offset that is read is the spelling of a zone (40 R116). -/
theorem timeOffset_sound {s rest : List Byte} {off : Int} (h : timeOffset s = some (off, rest)) :
    ∃ z : Zone, z.ok = true ∧ s = z.bytes ++ rest ∧ off = z.seconds := by
  unfold timeOffset at h
  cases ho : oneOf [0x5A#8, 0x7A#8] s with
  | some s' =>
    obtain ⟨lower, rfl⟩ := oneOf_utc_eq_some.mp ho
    simp only [ho, Option.some.injEq, Prod.mk.injEq] at h
    obtain ⟨rfl, rfl⟩ := h
    exact ⟨.utc lower, rfl, rfl, rfl⟩
  | none =>
    simp only [ho, Option.bind_eq_bind, Option.bind_eq_some_iff, Prod.exists, digits_zero_eq_some,
      oneOf_singleton_eq_some, oneOf_sign_eq_some, Option.ite_none_right_eq_some, Option.some.injEq,
      Prod.mk.injEq] at h
    obtain ⟨s₁, ⟨neg, rfl⟩, hh, s₂, ⟨-, rfl⟩, s₃, rfl, mm, s₄, ⟨-, rfl⟩, ⟨hok₁, hok₂⟩, hoff, rfl⟩ := h
    refine ⟨.numeric neg hh mm, by simp [Zone.ok, hok₁, hok₂], by simp [Zone.bytes], ?_⟩
    subst hoff
    cases neg <;> simp [Zone.seconds]

/-- The spelling of a zone is read. -/
theorem timeOffset_complete {z : Zone} (hz : z.ok = true) (rest : List Byte) :
    timeOffset (z.bytes ++ rest) = some (z.seconds, rest) := by
  cases z with
  | utc lower =>
    have ho := oneOf_utc_eq_some.mpr ⟨lower, rfl (a := (Zone.utc lower).bytes ++ rest)⟩
    simp only [timeOffset, ho]
    rfl
  | numeric neg h m =>
    simp only [Zone.ok, Bool.and_eq_true, decide_eq_true_eq] at hz
    have ho : oneOf [0x5A#8, 0x7A#8] ((Zone.numeric neg h m).bytes ++ rest) = none := by
      cases neg <;> rfl
    simp only [timeOffset, ho, Option.bind_eq_bind, Option.bind_eq_some_iff, Prod.exists, digits_zero_eq_some,
      oneOf_singleton_eq_some, oneOf_sign_eq_some, Option.ite_none_right_eq_some, Option.some.injEq, Prod.mk.injEq]
    refine ⟨_, ⟨neg, by simp only [Zone.bytes, List.append_assoc, List.cons_append, List.nil_append]⟩, h, _,
      ⟨by omega, rfl⟩, _, rfl, m, _, ⟨by omega, rfl⟩, hz, ?_, rfl⟩
    cases neg <;> simp [Zone.seconds, Zone.bytes]

/-- No zone begins with a digit or a point. -/
theorem endsFraction_zone (z : Zone) : EndsFraction (z.bytes ++ []) := by
  cases z with
  | utc lower => cases lower <;> simp [EndsFraction, Zone.bytes, digit?]
  | numeric neg h m => cases neg <;> simp [EndsFraction, Zone.bytes, digit?]

/-! The date-time. -/

/-- The letter between date and time. -/
theorem oneOf_letterT_eq_some {s rest : List Byte} :
    oneOf [0x54#8, 0x74#8] s = some rest ↔ ∃ lower : Bool, s = (if lower then 0x74#8 else 0x54#8) :: rest := by
  simp [oneOf_eq_some]

/-- The spelling of a date-time, part by part. -/
theorem DateTime.bytes_eq (d : DateTime) :
    d.bytes = decimal 4 d.year ++ 0x2D#8 :: (decimal 2 d.month ++ 0x2D#8 :: (decimal 2 d.day ++
      (if d.lowerT then 0x74#8 else 0x54#8) ::
        (timeBytes d.hour d.minute d.second d.fraction ++ (d.zone.bytes ++ [])))) := by
  simp [DateTime.bytes, timeBytes, fractionBytes, digitBytes, digitByte]

/-- The ranges of a date-time's parts, named. -/
theorem DateTime.ok_iff (d : DateTime) :
    d.ok = true ↔
      (d.year ≤ 9999 ∧ 1 ≤ d.month ∧ d.month ≤ 12 ∧ 1 ≤ d.day ∧ d.day ≤ daysInMonth d.year d.month) ∧
        (d.hour ≤ 23 ∧ d.minute ≤ 59 ∧ d.second ≤ 60) ∧ d.zone.ok = true := by
  simp only [DateTime.ok, Bool.and_eq_true, decide_eq_true_eq, and_assoc]

/-- The instant of a valid date-time is the one computed from its parts. -/
theorem DateTime.instant_eq (d : DateTime) (hsec : d.second ≤ 60) :
    d.instant =
      civilInstant d.year d.month d.day d.hour d.minute d.second (fractionValue d.fraction) d.zone.seconds := by
  have hmin : (if d.second = 60 then 59 else d.second) = min d.second 59 := by split <;> omega
  simp only [DateTime.instant, civilInstant, hmin, Instant.mk.injEq]
  exact ⟨by push_cast; ring, rfl, trivial⟩

/-- Settles O9: each part that is read is the spelling of that part and the other way round; the offset that follows
the fraction begins with no digit. -/
theorem referenceTimesExact : Obligations.ReferenceTimesExact := by
  intro s i
  simp only [referenceRfc3339, Option.bind_eq_bind, Option.bind_eq_some_iff, Prod.exists, fullDate_eq_some,
    oneOf_letterT_eq_some, Option.ite_none_right_eq_some, Option.some.injEq]
  constructor
  · rintro ⟨y, mo, d, s₁, ⟨hdate, rfl⟩, s₂, ⟨lower, rfl⟩, h, mi, sec, n, s₃, htime, off, s₄, hoff, rfl, rfl⟩
    obtain ⟨hh, hmi, hsec, fr, rfl, rfl⟩ := partialTime_sound htime
    obtain ⟨z, hz, rfl, rfl⟩ := timeOffset_sound hoff
    exact ⟨⟨y, mo, d, lower, h, mi, sec, fr, z⟩, (DateTime.ok_iff _).mpr ⟨hdate, ⟨hh, hmi, hsec⟩, hz⟩,
      DateTime.bytes_eq _, DateTime.instant_eq _ hsec⟩
  · rintro ⟨d, hok, rfl, rfl⟩
    obtain ⟨hdate, ⟨hh, hmi, hsec⟩, hz⟩ := d.ok_iff.mp hok
    exact ⟨d.year, d.month, d.day, _, ⟨hdate, d.bytes_eq⟩, _, ⟨d.lowerT, rfl⟩, d.hour, d.minute, d.second, _, _,
      partialTime_complete hh hmi hsec d.fraction (endsFraction_zone d.zone), _, _, timeOffset_complete hz [], rfl,
      (d.instant_eq hsec).symm⟩

end Sys2Proof.Machine
end
